-- ==== Sys2Proof/Word.lean ====
section
/-!
DEFINITION. The words of the machine (spec 00_scope.md R7, R9; 30_encoding.md R91): a byte, the 7-bit slave
identifier, the 24-bit command word and the 12-bit outcome word. Every quantity is unsigned (R9).
-/

namespace Sys2Proof

/-- A byte: registers, latches, operands and bus bytes (R10, "Widths"). -/
abbrev Byte := BitVec 8

/-- A 7-bit slave identifier (R7 `DEVICE`, R65, R95). -/
abbrev Addr7 := BitVec 7

/-- The command word of R91: `op[23:16] a[15:8] b[7:0]`. -/
abbrev CmdWord := BitVec 24

/-- An outcome on the return port (R98): `idx[3:0] ++ raw[7:0]`. -/
abbrev OutcomeWord := BitVec 12

end Sys2Proof
end

