-- ==== Sys2Proof/Syntax.lean ====
section
/-!
DEFINITION. The eleven commands of spec 30_encoding.md R92 (the rows of opcode_table.json), the direction of R96 and
the eight Bus Engine primitives that the engine's micro-state names (10_state.md R33).
-/

namespace Sys2Proof

/-- The direction of an address byte (R96): `WRITE = 0`, `READ = 1`. -/
inductive Dir where
  | write
  | read
deriving DecidableEq, Repr

/-- The Bus Engine's eight operations (R92, glossary "primitive"), as the engine's micro-state `ENG` and the contract
marks name them; operands are in the latches `OPA`, `OPB`. -/
inductive Prim where
  | init
  | start
  | stop
  | txAddr
  | txByte
  | rxAck
  | rxNak
  | decode
deriving DecidableEq, Repr

/-- The commands of the block, one constructor per row of the opcode table (R92). The widths of the operands are those
of the table's fields, so a term has no operand value the word could not carry. -/
inductive Instr where
  /-- `0x01 INIT`, `init()` (R122). -/
  | init
  /-- `0x02 START`, `start()` (R124). -/
  | start
  /-- `0x03 STOP`, `stop()` (R125). -/
  | stop
  /-- `0x04 TXADDR addr7, dir`, `transmit_address(address, direction)` (R126). -/
  | txAddr (addr : Addr7) (dir : Dir)
  /-- `0x05 TXBYTE data`, `transmit_byte(data)` (R127). -/
  | txByte (data : Byte)
  /-- `0x06 RXACK`, `receive_with_ack()` (R128). -/
  | rxAck
  /-- `0x07 RXNAK`, `receive_with_nak()` (R129). -/
  | rxNak
  /-- `0x08 DECODE raw`, `decode_status(raw_code)` (R140). -/
  | decode (raw : Byte)
  /-- `0x10 EE_WRITE offset, value`, `write_byte(offset, value)` (R151). -/
  | eeWrite (offset value : Byte)
  /-- `0x11 EE_READ offset`, `read_byte(offset)` (R152). -/
  | eeRead (offset : Byte)
  /-- `0x12 EE_WAIT`, `wait_until_write_complete()` (R153). -/
  | eeWait
deriving DecidableEq, Repr

/-- The public interface of the block (R93, R180): `INIT`, `EE_WRITE`, `EE_READ`, `EE_WAIT`. -/
def Instr.isPublic : Instr → Bool
  | .init | .eeWrite _ _ | .eeRead _ | .eeWait => true
  | .start | .stop | .txAddr _ _ | .txByte _ | .rxAck | .rxNak | .decode _ => false

/-- The twelve outcomes of the status decoder (R97), in the order of the source's list. -/
inductive BusOutcome where
  | startSent
  | repeatedStartSent
  | arbitrationLostOrNak
  | addrWriteAcked
  | addrWriteNaked
  | dataWriteAcked
  | dataWriteNaked
  | addrReadAcked
  | addrReadNaked
  | dataReadAckSent
  | dataReadNakSent
  | unrecognized (raw : Byte)
deriving DecidableEq, Repr

/-- An operand as a program text spells it (R103): a numeral, a character literal, or one of the symbols `DEVICE`,
`WRITE`/`W`, `READ`/`R`. -/
inductive Arg where
  | num (n : Nat)
  | chr (c : Char)
  | device
  | write
  | read
deriving DecidableEq, Repr

end Sys2Proof
end

