-- ==== Sys2Proof/Config.lean ====
section
/-!
DEFINITION. What the build of the block fixes (spec 00_scope.md R7: the OPEN parameters and the switches), and the free
values of the environment (20_memory.md R45, R60, R63), which no rule constrains. The configuration is plain data that
every state carries unchanged (log entry 1); a free value is an opaque constant applied to the step counter
(log entries 2 and 3).
-/

namespace Sys2Proof

/-- A non-negative rational `num / den`, as `BusFreq` and `TOL` need it (R7). -/
structure Ratio where
  num : Nat
  den : Nat
deriving DecidableEq, Repr

/-- The parameters of R7 before they are checked; the kind "positive integer" of the two clock rates is one of the
checks. -/
structure Params where
  /-- `F_CPU`, in Hz (OPEN, D11). -/
  fCpu : Nat
  /-- `F_SCL`, in Hz (OPEN, D11). -/
  fScl : Nat
  /-- `PRESC_MULT`: the source fixes it at 1. -/
  prescMult : Nat
  /-- `TOL`, the relative error allowed (OPEN, D10). -/
  tol : Ratio
  /-- `DEVICE`, the slave identifier (OPEN, 0 to 127, D12). -/
  device : Nat
  /-- `REG_BASE`, the address of the register interface (OPEN, D6). -/
  regBase : Nat
  /-- `EXPOSE_PRIMITIVES` (OPEN, D5). -/
  exposePrimitives : Bool
  /-- `PROBE_STOP` (R154, D25). -/
  probeStop : Bool
  /-- `WAIT_FINAL_STOP` (R154, D25). -/
  waitFinalStop : Bool
  /-- `POLL_BOUND`; `none` is `unbounded` (R155, D26). -/
  pollBound : Option Nat
deriving DecidableEq, Repr

/-- A built configuration (R8): the ranges of R8 (b) and (d) hold by the fields' types, and `div` is the value
`Divisor(F_CPU, F_SCL)` of the build. -/
structure Config where
  fCpu : Nat
  fScl : Nat
  /-- `Divisor(F_CPU, F_SCL)`, which `INIT` programs (R122). -/
  div : Byte
  device : Addr7
  regBase : Nat
  exposePrimitives : Bool
  probeStop : Bool
  waitFinalStop : Bool
  pollBound : Option Nat
deriving DecidableEq, Repr

/-- The default `BusFreq` of R123: `F_CPU / (16 + 2 * div * mult)`. -/
def Config.defaultBusFreq (fCpu mult div : Nat) : Ratio :=
  ⟨fCpu, 16 + 2 * div * mult⟩

/-- The default `Divisor` of R123: `((F_CPU / F_SCL) - 16) / 2`, defined only when `F_CPU / F_SCL >= 16`. -/
def Config.defaultDivisor (fCpu fScl : Nat) : Option Nat :=
  if 16 ≤ fCpu / fScl then some ((fCpu / fScl - 16) / 2) else none

/-- The example values of 95_test_vectors.md, with the reference switches of R7 (log entry 4, DESIGN CHOICE). -/
def Params.sample : Params where
  fCpu := 16000000
  fScl := 100000
  prescMult := 1
  tol := ⟨0, 1⟩
  device := 0x50
  regBase := 0
  exposePrimitives := true
  probeStop := false
  waitFinalStop := false
  pollBound := none

/-- The configuration `Params.sample` builds under the default formulas of R123; the reset state carries it
(log entry 4, DESIGN CHOICE). -/
def Config.sample : Config where
  fCpu := 16000000
  fScl := 100000
  div := 72
  device := 0x50
  regBase := 0
  exposePrimitives := true
  probeStop := false
  waitFinalStop := false
  pollBound := none

/-- A move of the environment at a point where it may step (R60 to R63, R81, R121). -/
inductive EnvMove where
  /-- The environment takes no step; the block goes on. -/
  | quiet
  /-- The operation in flight completes: `Complete(st, d)` (R61), or `StopSent(st)` for a STOP (R62). -/
  | answer (st d : Byte)
  /-- The reference device ends its write cycle: `WriteCycleDone` (R81). -/
  | writeCycleDone
deriving DecidableEq, Repr, Inhabited

/-- The places where a rule draws a byte that no listed move carries (R45, R80; R62, R80 for an answer that is not
listed), so that two draws of one step are two values. -/
inductive DrawSite where
  | answerStatus
  | answerData
  | data
  | status
  | opA
  | opB
  | res
  | ptr
deriving DecidableEq, Repr

/-- FREE VALUE (R45, R62, R80; log entries 2, 27): the byte drawn at the given step for the given place. It has no body:
nothing constrains it. -/
opaque Config.freeByte : Nat → DrawSite → Byte

/-- FREE VALUE (R60, R63; log entry 3): the arbitrary environment's move at the given step once no move is listed. It has
no body: that environment may answer with any byte, or never. -/
opaque Config.freeMove : Nat → EnvMove

end Sys2Proof
end

