-- ==== Sys2Proof/WellFormed.lean ====
section
/-!
DEFINITION. The checks made before the machine runs: the well-formedness of a configuration (spec 00_scope.md R7, R8), which
the build makes and no rule of the running machine tests, and the legality of a command on the port (30_encoding.md
R93, R100 (b)). The other illegal words of R100 are no `Instr` at all: the decoder refuses them.
-/

namespace Sys2Proof

/-- R7: `F_CPU` and `F_SCL` are positive integers. -/
def Params.clocksOk (p : Params) : Bool :=
  0 < p.fCpu && 0 < p.fScl

/-- R8 (a): `PRESC_MULT = 1`. -/
def Params.multOk (p : Params) : Bool :=
  p.prescMult = 1

/-- R8 (b): `0 <= Divisor(F_CPU, F_SCL) < 2^DIV_W`, with `DIV_W = 8`; an undefined divisor is out of range. -/
def Params.divisorOk (divisor : Nat → Nat → Option Nat) (p : Params) : Bool :=
  match divisor p.fCpu p.fScl with
  | some d => d < 256
  | none => false

/-- R8 (c): `|BusFreq(F_CPU, 1, Divisor) - F_SCL| <= TOL * F_SCL`, the fractions cleared. -/
def Params.freqOk (divisor : Nat → Nat → Option Nat) (busFreq : Nat → Nat → Nat → Ratio) (p : Params) : Bool :=
  match divisor p.fCpu p.fScl with
  | none => false
  | some d =>
    let f := busFreq p.fCpu 1 d
    let want := p.fScl * f.den
    0 < f.den && 0 < p.tol.den &&
      ((f.num - want) + (want - f.num)) * p.tol.den ≤ p.tol.num * want

/-- R8 (d): `0 <= DEVICE <= 127`. -/
def Params.deviceOk (p : Params) : Bool :=
  p.device ≤ 127

/-- A configuration is well-formed only when the clock rates are of R7's kind and all of R8 (a) to (d) hold. -/
def Params.wellFormed (divisor : Nat → Nat → Option Nat) (busFreq : Nat → Nat → Nat → Ratio) (p : Params) : Bool :=
  p.clocksOk && p.multOk && p.divisorOk divisor && p.freqOk divisor busFreq && p.deviceOk

/-- The build of a configuration (R8, R217): an ill-formed one is refused here and nowhere later. `divisor` and
`busFreq` are the OPEN functions of R7. -/
def Config.build (divisor : Nat → Nat → Option Nat) (busFreq : Nat → Nat → Nat → Ratio) (p : Params) : Option Config :=
  if p.wellFormed divisor busFreq then
    some
      { fCpu := p.fCpu
        fScl := p.fScl
        div := BitVec.ofNat 8 ((divisor p.fCpu p.fScl).getD 0)
        device := BitVec.ofNat 7 p.device
        regBase := p.regBase
        exposePrimitives := p.exposePrimitives
        probeStop := p.probeStop
        waitFinalStop := p.waitFinalStop
        pollBound := p.pollBound }
  else none

/-- A command is well-formed on the port of a configuration (R93, R100 (b)): a primitive opcode needs
`EXPOSE_PRIMITIVES`. -/
def Instr.wellFormed (cfg : Config) (i : Instr) : Bool :=
  cfg.exposePrimitives || i.isPublic

end Sys2Proof
end

