-- ==== Sys2Proof/Decode.lean ====
section
/-!
DEFINITION. The command word of spec 30_encoding.md R91, R92: the decoder, total on all 24-bit words and refusing by
name (R100 (a), (c)); the encoder; the textual syntax of R103; and the expansion of R105.
-/

namespace Sys2Proof

/-- Why a word is no command (R100). -/
inductive DecodeError where
  /-- R100 (a): the opcode is not one of the eleven. -/
  | unassignedOpcode (op : Byte)
  /-- R100 (c): a bit the command does not use is 1. -/
  | unusedBitSet (op : Byte)
deriving DecidableEq, Repr

/-- The field `op`, bits 23:16 (R91). -/
def opField (w : CmdWord) : Byte := w.extractLsb' 16 8

/-- The field `a`, bits 15:8 (R91). -/
def aField (w : CmdWord) : Byte := w.extractLsb' 8 8

/-- The field `b`, bits 7:0 (R91). -/
def bField (w : CmdWord) : Byte := w.extractLsb' 0 8

/-- The direction bit of R96: `WRITE = 0`, `READ = 1`. -/
def Dir.toBit : Dir → BitVec 1
  | .write => 0
  | .read => 1

/-- The direction that a bit stands for (R96); one bit holds exactly two values, so there is no illegal direction. -/
def Dir.ofBit (b : BitVec 1) : Dir :=
  if b = 1 then .read else .write

/-- A command both of whose operand fields must be zero (R100 (c)). -/
def decodeNoOperand (op a b : Byte) (i : Instr) : Except DecodeError Instr :=
  if a = 0 ∧ b = 0 then .ok i else .error (.unusedBitSet op)

/-- A command whose field `b` must be zero (R100 (c)). -/
def decodeOneOperand (op b : Byte) (i : Instr) : Except DecodeError Instr :=
  if b = 0 then .ok i else .error (.unusedBitSet op)

/-- `TXADDR`: bit 7 of `a` and bits 7:1 of `b` must be zero (R100 (c)). -/
def decodeTxAddr (op a b : Byte) : Except DecodeError Instr :=
  if a.extractLsb' 7 1 = 0 ∧ b.extractLsb' 1 7 = 0 then
    .ok (.txAddr (a.extractLsb' 0 7) (Dir.ofBit (b.extractLsb' 0 1)))
  else .error (.unusedBitSet op)

/-- The opcode map of R92 on the three fields. -/
def decodeFields (op a b : Byte) : Except DecodeError Instr :=
  if op = 0x01 then decodeNoOperand op a b .init
  else if op = 0x02 then decodeNoOperand op a b .start
  else if op = 0x03 then decodeNoOperand op a b .stop
  else if op = 0x04 then decodeTxAddr op a b
  else if op = 0x05 then decodeOneOperand op b (.txByte a)
  else if op = 0x06 then decodeNoOperand op a b .rxAck
  else if op = 0x07 then decodeNoOperand op a b .rxNak
  else if op = 0x08 then decodeOneOperand op b (.decode a)
  else if op = 0x10 then .ok (.eeWrite a b)
  else if op = 0x11 then decodeOneOperand op b (.eeRead a)
  else if op = 0x12 then decodeNoOperand op a b .eeWait
  else .error (.unassignedOpcode op)

/-- The decoder: one format, 24 bits, always (R91, R102). -/
def decodeWord (w : CmdWord) : Except DecodeError Instr :=
  decodeFields (opField w) (aField w) (bField w)

/-- The opcode of a command (R92). -/
def Instr.opcode : Instr → Byte
  | .init => 0x01
  | .start => 0x02
  | .stop => 0x03
  | .txAddr _ _ => 0x04
  | .txByte _ => 0x05
  | .rxAck => 0x06
  | .rxNak => 0x07
  | .decode _ => 0x08
  | .eeWrite _ _ => 0x10
  | .eeRead _ => 0x11
  | .eeWait => 0x12

/-- The field `a` of a command's word (R92, column "operands"; a field it does not use is zero). -/
def Instr.byteA : Instr → Byte
  | .txAddr addr _ => addr.setWidth 8
  | .txByte data => data
  | .decode raw => raw
  | .eeWrite offset _ => offset
  | .eeRead offset => offset
  | .init | .start | .stop | .rxAck | .rxNak | .eeWait => 0

/-- The field `b` of a command's word (R92). -/
def Instr.byteB : Instr → Byte
  | .txAddr _ dir => dir.toBit.setWidth 8
  | .eeWrite _ value => value
  | .init | .start | .stop | .txByte _ | .rxAck | .rxNak | .decode _ | .eeRead _ | .eeWait => 0

/-- The encoder: `op ++ a ++ b` (R91). -/
def encode (i : Instr) : CmdWord :=
  i.opcode ++ i.byteA ++ i.byteB

/-- What the decoder reads from an instruction whose bits, numbered as the opcode table numbers them, are `w`; bits
above `nbits` are zero. The command word is one word of 24 bits (R91, R102), so the table's number is the word. -/
def decodeTableWord (nbits w : Nat) : Option Instr :=
  match decodeWord (BitVec.ofNat 24 (w % 2 ^ nbits)) with
  | .ok i => some i
  | .error _ => none

/-! ### The textual syntax (R103) and the macro expansion (R105) -/

/-- The mnemonic of R92 and R103. -/
def Instr.mnemonic : Instr → String
  | .init => "INIT"
  | .start => "START"
  | .stop => "STOP"
  | .txAddr _ _ => "TXADDR"
  | .txByte _ => "TXBYTE"
  | .rxAck => "RXACK"
  | .rxNak => "RXNAK"
  | .decode _ => "DECODE"
  | .eeWrite _ _ => "EE_WRITE"
  | .eeRead _ => "EE_READ"
  | .eeWait => "EE_WAIT"

/-- The source's own spelling of R103's left column. -/
def Instr.sourceName : Instr → String
  | .init => "init"
  | .start => "start"
  | .stop => "stop"
  | .txAddr _ _ => "transmit_address"
  | .txByte _ => "transmit_byte"
  | .rxAck => "receive_with_ack"
  | .rxNak => "receive_with_nak"
  | .decode _ => "decode_status"
  | .eeWrite _ _ => "write_byte"
  | .eeRead _ => "read_byte"
  | .eeWait => "wait_until_write_complete"

/-- The value of an operand below `bound` (R103): a numeral, an ASCII character literal (R9) or `DEVICE`. -/
def Arg.value (cfg : Config) (bound : Nat) : Arg → Option Nat
  | .num n => if n < bound then some n else none
  | .chr c => if c.toNat < bound ∧ c.toNat < 128 then some c.toNat else none
  | .device => some cfg.device.toNat
  | .write | .read => none

/-- The byte that an operand stands for. -/
def Arg.byte (cfg : Config) (x : Arg) : Option Byte :=
  (x.value cfg 256).map (BitVec.ofNat 8)

/-- The direction that an operand stands for. -/
def Arg.dir : Arg → Option Dir
  | .write => some .write
  | .read => some .read
  | .num _ | .chr _ | .device => none

/-- One line of a program, in either of R103's two spellings, to the command it stands for. -/
def assemble (cfg : Config) (name : String) (args : List Arg) : Option Instr :=
  let is (i : Instr) : Bool := name = i.mnemonic ∨ name = i.sourceName
  match args with
  | [] =>
    if is .init then some .init
    else if is .start then some .start
    else if is .stop then some .stop
    else if is .rxAck then some .rxAck
    else if is .rxNak then some .rxNak
    else if is .eeWait then some .eeWait
    else none
  | [x] =>
    if is (.txByte 0) then (x.byte cfg).map .txByte
    else if is (.decode 0) then (x.byte cfg).map .decode
    else if is (.eeRead 0) then (x.byte cfg).map .eeRead
    else none
  | [x, y] =>
    if is (.txAddr 0 .write) then
      (x.value cfg 128).bind fun a => y.dir.map (Instr.txAddr (BitVec.ofNat 7 a))
    else if is (.eeWrite 0 0) then
      (x.byte cfg).bind fun o => (y.byte cfg).map (Instr.eeWrite o)
    else none
  | _ :: _ :: _ :: _ => none

/-- The primitives that `EE_WRITE` and `EE_READ` are macros over (R105); no other command is a macro. -/
def Instr.expansion (cfg : Config) : Instr → Option (List Instr)
  | .eeWrite offset value =>
    some [.start, .txAddr cfg.device .write, .txByte offset, .txByte value, .stop]
  | .eeRead offset =>
    some [.start, .txAddr cfg.device .write, .txByte offset, .start, .txAddr cfg.device .read, .rxNak, .stop]
  | .init | .start | .stop | .txAddr _ _ | .txByte _ | .rxAck | .rxNak | .decode _ | .eeWait => none

end Sys2Proof
end

