-- ==== Sys2Proof/Machine/State.lean ====
section
/-!
DEFINITION. The state of the machine (spec 10_state.md R20 to R41): the block's registers, latches, sequencers and
hidden state; beside them the other agents of R11 (the host's port, the environment with the reference device of R76)
and the model's own bookkeeping (configuration, step counter, listed moves and power cycles). Plain data throughout.
-/

namespace Sys2Proof.Machine

/-- A byte of state that R44 leaves unspecified at reset: until `written`, a read of it is a fresh draw and `val` is
seen by no rule (R45; log entries 2 and 5). -/
structure Latch where
  val : Byte
  written : Bool
deriving DecidableEq, Repr

/-- The control register's four flags (R23). -/
structure Ctrl where
  /-- Transfer complete (R24). -/
  tc : Bool
  /-- Acknowledge enable (R26). -/
  ea : Bool
  /-- START request (R26). -/
  sta : Bool
  /-- Stop request and stop pending (R25). -/
  sto : Bool
deriving DecidableEq, Repr

/-- The transaction sequencer's position `TXN`, the program counter (R32). The running command carries the operands
that the sequencer holds for the whole transaction (R150). -/
inductive Txn where
  | idle
  | run (i : Instr) (step : Nat)
deriving DecidableEq, Repr

/-- The Bus Engine's micro-state `ENG` (R33). -/
inductive Eng where
  | idle
  | exec (p : Prim) (u : Nat)
deriving DecidableEq, Repr

/-- The protocol phase `PHASE` (R35). -/
inductive Phase where
  | idle
  | addressPhase
  | dataWrite
  | dataRead
  | dataReadDone
  | undefined
deriving DecidableEq, Repr

/-- An operation the environment owes a completion for (R36); `b` is the byte in `DATA` at the trigger. -/
inductive BusOp where
  | opStart
  | opStop
  | opAddr (b : Byte)
  | opData (b : Byte)
  | opRxAck
  | opRxNak
deriving DecidableEq, Repr

/-- The marks `ContractFault(reason)` of `FAULT` (R37, R132). -/
inductive ContractFault where
  | notInitialised (p : Prim)
  | badPhase (p : Prim) (ph : Phase)
deriving DecidableEq, Repr

/-- The trace alphabet (R104). -/
inductive BusEvent where
  | start
  | addr (b : Byte)
  | data (b : Byte)
  | rxAck
  | rxNak
  | stop
deriving DecidableEq, Repr

/-- The register-interface writes that `REGLOG` records (R39, R104). -/
inductive RegOp where
  | setClock (mult : Nat) (div : Byte)
  | writeData (b : Byte)
  | trigger (sta sto ea : Bool)
deriving DecidableEq, Repr

/-- What a command presents on its return (R99). -/
inductive Ret where
  | nothing
  | byte (b : Byte)
  | outcome (w : OutcomeWord)
  | flag (b : Bool)
deriving DecidableEq, Repr

/-- The reference device's selection state `sel` (R76). -/
inductive Sel where
  | none
  | wAddr
  | wData
  | wPending (v : Byte)
  | reading
deriving DecidableEq, Repr

/-- The EEPROM offset space (R50): pairs of an offset and a byte, offsets strictly rising, none equal to what an
unlisted offset reads as. -/
abbrev Memory := List Host.Cell

/-- The reference device's state (R76). -/
structure Device where
  mem : Memory
  ptr : Byte
  busy : Bool
  sel : Sel
deriving DecidableEq, Repr

/-- Which environment answers: any (R60 to R63) or the reference device (R76 to R83). -/
inductive EnvKind where
  | arbitrary
  | reference
deriving DecidableEq, Repr

/-- The machine. -/
structure State where
  /-- `PRESC`, 2 bits (R22). -/
  presc : BitVec 2
  /-- `DIV`, 8 bits (R22). -/
  div : Latch
  /-- `CTRL` (R23 to R26). -/
  ctrl : Ctrl
  /-- `DATA`, 8 bits (R27). -/
  data : Latch
  /-- `STATUS`, 8 bits (R28). -/
  status : Latch
  /-- Latch `OPA` (R30). -/
  opA : Latch
  /-- Latch `OPB` (R30). -/
  opB : Latch
  /-- Latch `RES` (R30). -/
  res : Latch
  /-- `WAIT_ACKED` (R31). -/
  waitAcked : Bool
  /-- `TXN`, the program counter (R32). -/
  txn : Txn
  /-- `ENG` (R33). -/
  eng : Eng
  /-- `PHASE` (R35). -/
  phase : Phase
  /-- `INFLIGHT` (R36). -/
  inflight : Option BusOp
  /-- `FAULT`, a set kept as a list without repeats, in order of arrival (R37). -/
  faults : List ContractFault
  /-- `INITED` (R38). -/
  inited : Bool
  /-- `PROBES` (R40). -/
  probes : Nat
  /-- `TRACE` (R39). -/
  trace : List BusEvent
  /-- `REGLOG` (R39). -/
  regLog : List RegOp
  /-- The host: the command words it has still to hand to the port, in order (R90, R223). -/
  port : List CmdWord
  /-- The host: the return values it has received, in order (R99, R224). -/
  returns : List Ret
  /-- The host: how many of its calls a power cycle has taken from it; such a call never returns (R201, R223). -/
  lostCalls : Nat
  /-- The diagnostic channel: the `Diag` events emitted, in order (R143). -/
  diags : List BusOutcome
  /-- The environment: which one answers (R60, R76). -/
  env : EnvKind
  /-- The environment: the reference device (R76). -/
  dev : Device
  /-- The environment's next moves, first first; when none is listed the move is free (log entry 3). -/
  moves : List EnvMove
  /-- The power cycles to come (R200): each number is how many steps are taken before the next one falls. -/
  powerCycles : List Nat
  /-- The number of steps taken, which the free values are applied to (log entry 2). -/
  tick : Nat
  /-- The configuration, which no step changes (R7, R21; log entry 1). -/
  cfg : Config
deriving DecidableEq, Repr

/-- Why a step stops with a fault. The hardware has no fault of its own (R170); a `ContractFault` is a mark in
`State.faults` and stops nothing (R132). -/
inductive Fault where
  /-- `TXN` holds a step outside the running command's table, which R32 says never happens ("`step` never leaves its
  table"). Raised by `runCommand`, in states no run reaches. Safe. -/
  | sequencerOffTable
  /-- `ENG` holds a micro-step outside the primitive's list, or a primitive that the table's step does not call (R33).
  Raised by `runCommand`, in states no run reaches. Safe. -/
  | engineOffTable
deriving DecidableEq, Repr

/-- Why a step has no meaning. Each is a situation that the spec itself classes as refused (R177, 93 U6, U7, U13,
U14). -/
inductive Refusal where
  /-- An instruction without a meaning yet. No arm of this model answers so. Safe. -/
  | notModelled (mnemonic : String)
  /-- R100 (a): the offered word's opcode is unassigned. Raised by the port. Safe. -/
  | unassignedOpcode (op : Byte)
  /-- R100 (c): the offered word has a 1 in a bit its command does not use. Raised by the port. Safe. -/
  | unusedBitSet (op : Byte)
  /-- R100 (b): a primitive on the port while `EXPOSE_PRIMITIVES` is false. Raised by the port. Safe. -/
  | primitiveNotExposed (mnemonic : String)
  /-- U6: a trigger while an operation is in flight. Raised by `trigger`, in states no run reaches. Safe. -/
  | triggerInFlight
  /-- U6: a data access while an operation is in flight. Raised by `writeData` and `readDataThen`, in states no run
  reaches. Safe. -/
  | dataAccessInFlight
  /-- U14, R58, R101: a raw register access that no rule performs. Raised by `memRead` and `memWrite`. Safe. -/
  | reservedAccess (offset : Nat)
  /-- U7, R79: a third data byte to the reference device, which would be a page write. Raised by the reference device.
  Safe. -/
  | pageWrite
deriving DecidableEq, Repr

/-- The outcome of a step or a meaning. -/
abbrev Result := Host.Outcome State Fault Refusal

/-- The machine right after power-on under the configuration `c` (R44, R201). The values of the latches, of `DATA`,
`STATUS` and `DIV` are never seen (R45). The host has no command, the environment is arbitrary and lists no move, the
device is empty (log entries 3, 5, 6). -/
def State.resetWith (c : Config) : State where
  presc := 0
  div := ⟨0, false⟩
  ctrl := ⟨false, false, false, false⟩
  data := ⟨0, false⟩
  status := ⟨0, false⟩
  opA := ⟨0, false⟩
  opB := ⟨0, false⟩
  res := ⟨0, false⟩
  waitAcked := false
  txn := .idle
  eng := .idle
  phase := .idle
  inflight := none
  faults := []
  inited := false
  probes := 0
  trace := []
  regLog := []
  port := []
  returns := []
  lostCalls := 0
  diags := []
  env := .arbitrary
  dev := ⟨[], 0, false, .none⟩
  moves := []
  powerCycles := []
  tick := 0
  cfg := c

/-- The machine right after reset, under the example configuration (log entry 4). -/
def State.reset : State :=
  State.resetWith Config.sample

end Sys2Proof.Machine
end

