-- ==== Sys2Proof/Machine/Flags.lean ====
section
/-!
DEFINITION. The flags and codes: the byte image of `CTRL` (spec 10_state.md R23), the status decoder (41_status_decode.md
R140, 30_encoding.md R97) and the encoding of its outcome (R98). The block has no arithmetic condition codes (R34).
-/

namespace Sys2Proof.Machine

/-- `Decode(raw)` (R140): total, on all eight bits, unmasked (R141). -/
def decodeStatus (raw : Byte) : BusOutcome :=
  if raw = 0x08 then .startSent
  else if raw = 0x10 then .repeatedStartSent
  else if raw = 0x38 then .arbitrationLostOrNak
  else if raw = 0x18 then .addrWriteAcked
  else if raw = 0x20 then .addrWriteNaked
  else if raw = 0x28 then .dataWriteAcked
  else if raw = 0x30 then .dataWriteNaked
  else if raw = 0x40 then .addrReadAcked
  else if raw = 0x48 then .addrReadNaked
  else if raw = 0x50 then .dataReadAckSent
  else if raw = 0x58 then .dataReadNakSent
  else .unrecognized raw

/-- The index of an outcome in the source's list (R97, R98). -/
def outcomeIndex : BusOutcome → BitVec 4
  | .startSent => 0
  | .repeatedStartSent => 1
  | .arbitrationLostOrNak => 2
  | .addrWriteAcked => 3
  | .addrWriteNaked => 4
  | .dataWriteAcked => 5
  | .dataWriteNaked => 6
  | .addrReadAcked => 7
  | .addrReadNaked => 8
  | .dataReadAckSent => 9
  | .dataReadNakSent => 10
  | .unrecognized _ => 11

/-- The return port's word for the outcome of `raw` (R98): `idx[3:0] ++ raw[7:0]`. -/
def outcomeWord (raw : Byte) : OutcomeWord :=
  outcomeIndex (decodeStatus raw) ++ raw

/-- A flag as a bit. -/
def flagBit (b : Bool) : BitVec 1 :=
  if b then 1 else 0

/-- The byte a read of `CTRL` gives (R23): `TC EA STA STO 0000`. -/
def ctrlImage (c : Ctrl) : Byte :=
  flagBit c.tc ++ flagBit c.ea ++ flagBit c.sta ++ flagBit c.sto ++ (0 : BitVec 4)

/-- The byte a trigger writes to `CTRL` (R53): `0x80 | ea<<6 | sta<<5 | sto<<4`. -/
def triggerImage (sta sto ea : Bool) : Byte :=
  (1 : BitVec 1) ++ flagBit ea ++ flagBit sta ++ flagBit sto ++ (0 : BitVec 4)

/-- The flags a trigger leaves (R53): the three requests as passed, `TC` cleared. -/
def triggeredCtrl (sta sto ea : Bool) : Ctrl where
  tc := false
  ea := ea
  sta := sta
  sto := sto

/-- The byte writes that an entry of `REGLOG` stands for, as register offset and value (R52, R53, R56). -/
def RegOp.byteWrites : RegOp → List (Nat × Byte)
  | .setClock _ div => [(1, 0x00), (0, div)]
  | .writeData b => [(3, b)]
  | .trigger sta sto ea => [(2, triggerImage sta sto ea)]

end Sys2Proof.Machine
end

