-- ==== Sys2Proof/Machine/Operands.lean ====
section
/-!
DEFINITION. Operands: the reading of a latch that may not have been written (spec 10_state.md R45), the address byte
(30_encoding.md R95) and the operands that a primitive takes from `OPA` and `OPB` (10_state.md R30, 40_bus_engine.md
R126, R127).
-/

namespace Sys2Proof.Machine

/-- A latch after a write of `b`. -/
def Latch.put (b : Byte) : Latch :=
  ⟨b, true⟩

/-- What a read of a latch gives: the value last written, or, before the first write since reset, the draw (R45). -/
def Latch.get (l : Latch) (draw : Byte) : Byte :=
  if l.written then l.val else draw

/-- `x[OPA]`. -/
def opAValue (s : State) : Byte :=
  s.opA.get (Config.freeByte s.tick .opA)

/-- `x[OPB]`. -/
def opBValue (s : State) : Byte :=
  s.opB.get (Config.freeByte s.tick .opB)

/-- `x[RES]`. -/
def resValue (s : State) : Byte :=
  s.res.get (Config.freeByte s.tick .res)

/-- What a read of `DATA` gives (R27, R45). -/
def dataValue (s : State) : Byte :=
  s.data.get (Config.freeByte s.tick .data)

/-- `ReadStatus()` (R57): all eight bits, unmasked, no side effect. -/
def readStatus (s : State) : Byte :=
  s.status.get (Config.freeByte s.tick .status)

/-- `AddrByte(addr7, dir) = addr7[6:0] ++ dir[0]` (R95). -/
def addrByte (addr : Addr7) (dir : Dir) : Byte :=
  addr ++ dir.toBit

/-- The identifier operand of `TXADDR`: `x[OPA][6:0]` (R126). -/
def opAddr7 (s : State) : Addr7 :=
  (opAValue s).extractLsb' 0 7

/-- The direction operand of `TXADDR`: `x[OPB][0]` (R126). -/
def opDir (s : State) : Dir :=
  Dir.ofBit ((opBValue s).extractLsb' 0 1)

end Sys2Proof.Machine
end

