-- ==== Sys2Proof/Machine/Ops.lean ====
section
/-!
DEFINITION. The shared operations: the EEPROM offset space as memory (spec 20_memory.md R66, R76), the operations of the
register interface (R52 to R58), the contract (40_bus_engine.md R131, R132), accept and return at the command port
(30_encoding.md R90, R91, R99) and the power cycle (70_reset_and_hazards.md R200 to R202). The hardware takes no
exception and has no return from one (60_exceptions.md R170): what stands in that place is `raiseContract`, the one use
of `raise` in the spec (00_scope.md R10).
-/

namespace Sys2Proof.Machine

/-- Go on with `f` from the next state. -/
def andThen (o : Result) (f : State → Result) : Result :=
  match o with
  | .next s => f s
  | .fault e => .fault e
  | .refused r => .refused r

/-! ### Memory -/

/-- What an unlisted offset of the device reads as (log entry 6, DESIGN CHOICE). -/
def Memory.blank : Byte := 0

/-- The byte at an offset. -/
def Memory.read (m : Memory) (a : Nat) : Byte :=
  match m with
  | [] => Memory.blank
  | (k, v) :: rest => if k = a then v else Memory.read rest a

/-- Write a byte at an offset, keeping the canonical form: writing what an unlisted offset reads as removes the
entry. -/
def Memory.write (m : Memory) (a : Nat) (b : Byte) : Memory :=
  match m with
  | [] => if b = Memory.blank then [] else [(a, b)]
  | (k, v) :: rest =>
    if a < k then (if b = Memory.blank then (k, v) :: rest else (a, b) :: (k, v) :: rest)
    else if a = k then (if b = Memory.blank then rest else (a, b) :: rest)
    else (k, v) :: Memory.write rest a b

/-- Every offset of `m` is at least `lo`, below 256 and rising, and no entry holds the blank byte. -/
def Memory.wfFrom (lo : Nat) : Memory → Bool
  | [] => true
  | (k, v) :: rest => lo ≤ k && k < 256 && v ≠ Memory.blank && Memory.wfFrom (k + 1) rest

/-- The canonical form of the offset space. -/
def Memory.wf (m : Memory) : Bool :=
  Memory.wfFrom 0 m

/-! ### The register interface -/

/-- `SetClock(1, div)` (R52). -/
def setClock (div : Byte) (s : State) : State :=
  { s with presc := 0, div := .put div, regLog := s.regLog ++ [.setClock 1 div] }

/-- `EventOf` (R104). -/
def eventOf : BusOp → BusEvent
  | .opStart => .start
  | .opStop => .stop
  | .opAddr b => .addr b
  | .opData b => .data b
  | .opRxAck => .rxAck
  | .opRxNak => .rxNak

/-- `KindOf(p)` with `b` the byte in `DATA` (R53); `INIT` and `DECODE` trigger nothing. -/
def kindOf (p : Prim) (b : Byte) : Option BusOp :=
  match p with
  | .start => some .opStart
  | .stop => some .opStop
  | .txAddr => some (.opAddr b)
  | .txByte => some (.opData b)
  | .rxAck => some .opRxAck
  | .rxNak => some .opRxNak
  | .init | .decode => none

/-- The state after `Trigger(sta, sto, ea)` of the kind `op` (R53), its precondition met. -/
def triggered (op : BusOp) (sta sto ea : Bool) (s : State) : State :=
  { s with
    ctrl := triggeredCtrl sta sto ea
    inflight := some op
    trace := s.trace ++ [eventOf op]
    regLog := s.regLog ++ [.trigger sta sto ea] }

/-- `Trigger(sta, sto, ea)` issued by the primitive `p` (R53). Its preconditions: nothing in flight (else U6), not both
`sta` and `sto` (else U14). -/
def trigger (p : Prim) (sta sto ea : Bool) (s : State) : Result :=
  match kindOf p (dataValue s) with
  | none => .fault .engineOffTable
  | some op =>
    if s.inflight.isSome then .refused .triggerInFlight
    else if sta && sto then .refused (.reservedAccess 2)
    else .next (triggered op sta sto ea s)

/-- The operation that, in contract, a trigger's flags and the phase before it determine (R53): this is how a test bench
rebuilds `TRACE` from `REGLOG`. -/
def kindOfFlags (sta sto ea : Bool) (ph : Phase) (b : Byte) : Option BusOp :=
  if sta then some .opStart
  else if sto then some .opStop
  else match ph with
    | .addressPhase => some (.opAddr b)
    | .dataWrite => some (.opData b)
    | .dataRead => some (if ea then .opRxAck else .opRxNak)
    | .idle | .dataReadDone | .undefined => none

/-- `ReadTC()` (R54). -/
def readTC (s : State) : Bool :=
  s.ctrl.tc

/-- `ReadStopPending()` (R55). -/
def readStopPending (s : State) : Bool :=
  s.ctrl.sto

/-- The state after `WriteData(b)` (R56), its precondition met. -/
def dataWritten (b : Byte) (s : State) : State :=
  { s with data := .put b, regLog := s.regLog ++ [.writeData b] }

/-- `WriteData(b)` (R56); with an operation in flight the spec gives it no effect (U6). -/
def writeData (b : Byte) (s : State) : Result :=
  if s.inflight.isSome then .refused .dataAccessInFlight else .next (dataWritten b s)

/-- `ReadData()` (R56), its value handed to `k`; with an operation in flight the spec gives it no effect (U6). -/
def readDataThen (s : State) (k : Byte → Result) : Result :=
  if s.inflight.isSome then .refused .dataAccessInFlight else k (dataValue s)

/-- `MemRead(off, 1)` at `REG_BASE + off` (R51, R58); a read that no rule performs is refused. -/
def memRead (off : Nat) (s : State) : Except Refusal Byte :=
  match off with
  | 2 => .ok (ctrlImage s.ctrl)
  | 3 => if s.inflight.isSome then .error .dataAccessInFlight else .ok (dataValue s)
  | 4 => .ok (readStatus s)
  | _ => .error (.reservedAccess off)

/-- `MemWrite(off, 1, v)` at `REG_BASE + off` by the primitive `p` (R51, R52, R53, R56, R58). The write of `CLK_DIV`
completes a `SetClock`, whose first byte write is that of `CLK_PRESC` (R52). A write that no rule performs, or of an
image that R101 reserves, is refused. -/
def memWrite (p : Prim) (off : Nat) (v : Byte) (s : State) : Result :=
  match off with
  | 0 => .next { s with div := .put v, regLog := s.regLog ++ [.setClock 1 v] }
  | 1 => if v = 0 then .next { s with presc := 0 } else .refused (.reservedAccess 1)
  | 2 =>
    if v.getLsbD 7 && v.extractLsb' 0 4 = 0 && !(v.getLsbD 5 && v.getLsbD 4) then
      trigger p (v.getLsbD 5) (v.getLsbD 4) (v.getLsbD 6) s
    else .refused (.reservedAccess 2)
  | 3 => writeData v s
  | _ => .refused (.reservedAccess off)

/-- The address of a register on the platform (R51, R182). -/
def regAddr (cfg : Config) (off : Nat) : Nat :=
  cfg.regBase + off

/-! ### Plain updates, named so that each has its lemmas in Laws/State.lean -/

/-- `INITED <- 1` (R38). -/
def setInited (s : State) : State := { s with inited := true }

/-- `x[RES] <- b` (R30). -/
def setRes (b : Byte) (s : State) : State := { s with res := .put b }

/-- `emit Diag(o)` (R143). -/
def emitDiag (o : BusOutcome) (s : State) : State := { s with diags := s.diags ++ [o] }

/-- `pc <- k` of the command `i` (R10, R32). -/
def goto (i : Instr) (k : Nat) (s : State) : State := { s with txn := .run i k }

/-- The host's remaining words. -/
def setPort (ws : List CmdWord) (s : State) : State := { s with port := ws }

/-- The power cycles still to come. -/
def setPowerCycles (ns : List Nat) (s : State) : State := { s with powerCycles := ns }

/-- The device after its answer. -/
def setDev (dev : Device) (s : State) : State := { s with dev := dev }

/-! ### The contract -/

/-- The phase table of R131; `none` is X, out of contract. `INIT` and `DECODE` leave every phase alone. -/
def phaseTable (p : Prim) (dir : Dir) (ph : Phase) : Option Phase :=
  match p, ph with
  | .start, .idle => some .addressPhase
  | .start, .dataWrite => some .addressPhase
  | .start, .dataRead => some .addressPhase
  | .start, .dataReadDone => some .addressPhase
  | .start, .addressPhase => none
  | .start, .undefined => none
  | .txAddr, .addressPhase =>
    match dir with
    | .write => some .dataWrite
    | .read => some .dataRead
  | .txAddr, _ => none
  | .txByte, .dataWrite => some .dataWrite
  | .txByte, _ => none
  | .rxAck, .dataRead => some .dataRead
  | .rxAck, _ => none
  | .rxNak, .dataRead => some .dataReadDone
  | .rxNak, _ => none
  | .stop, .dataWrite => some .idle
  | .stop, .dataReadDone => some .idle
  | .stop, _ => none
  | .init, ph => some ph
  | .decode, ph => some ph

/-- Whether the table of R131 allows `p` in the phase `ph`; the direction of `TXADDR` does not matter. -/
def inContract (p : Prim) (ph : Phase) : Bool :=
  (phaseTable p .write ph).isSome

/-- `raise ContractFault(reason)` (R10, R37): the mark joins the set, and the phase becomes `Undefined` (R132). It stops
nothing. -/
def raiseContract (c : ContractFault) (s : State) : State :=
  { s with
    faults := if c ∈ s.faults then s.faults else s.faults ++ [c]
    phase := .undefined }

/-- The contract step `u0` of a bus primitive (R132). -/
def contractStep (p : Prim) (s : State) : State :=
  if s.inited = false then raiseContract (.notInitialised p) s
  else if inContract p s.phase then s
  else raiseContract (.badPhase p s.phase) s

/-- The phase that a primitive's last step writes (R124 to R129); `none` where it leaves the phase alone. -/
def endPhase (p : Prim) (dir : Dir) : Option Phase :=
  match p with
  | .start => some .addressPhase
  | .stop => some .idle
  | .txAddr =>
    match dir with
    | .write => some .dataWrite
    | .read => some .dataRead
  | .rxNak => some .dataReadDone
  | .init | .txByte | .rxAck | .decode => none

/-- `PHASE <- ph (if not Undefined)` (R124 to R129, R132: `Undefined` is absorbing). -/
def setPhase (ph : Option Phase) (s : State) : State :=
  match ph with
  | none => s
  | some q => if s.phase = .undefined then s else { s with phase := q }

/-! ### The command port -/

/-- Acceptance (R91): `x[OPA] <- a; x[OPB] <- b; TXN <- Run(op, 0)`. -/
def accept (i : Instr) (s : State) : State :=
  { s with opA := .put i.byteA, opB := .put i.byteB, txn := .run i 0 }

/-- What a command presents on return (R99). -/
def returnValue (i : Instr) (s : State) : Ret :=
  match i with
  | .rxAck | .rxNak | .eeRead _ => .byte (resValue s)
  | .decode _ => .outcome (outcomeWord (opAValue s))
  | .eeWait => .flag s.waitAcked
  | .init | .start | .stop | .txAddr _ _ | .txByte _ | .eeWrite _ _ => .nothing

/-- Return (R90): `TXN <- Idle`, and the return value is presented to the host. -/
def commandReturn (i : Instr) (s : State) : State :=
  { s with txn := .idle, eng := .idle, returns := s.returns ++ [returnValue i s] }

/-- The port's answer to an offered word (R100): the command, or why the word is refused. -/
def portDecode (cfg : Config) (w : CmdWord) : Except Refusal Instr :=
  match decodeWord w with
  | .error (.unassignedOpcode op) => .error (.unassignedOpcode op)
  | .error (.unusedBitSet op) => .error (.unusedBitSet op)
  | .ok i => if i.wellFormed cfg then .ok i else .error (.primitiveNotExposed i.mnemonic)

/-! ### The power cycle -/

/-- The host's calls that never return, once a power cycle falls now: a command in progress is one more (R201). -/
def lostCallsAfter (s : State) : Nat :=
  match s.txn with
  | .idle => s.lostCalls
  | .run _ _ => s.lostCalls + 1

/-- The power cycle (R200 to R202, R185): the block takes its reset values and a command in progress is lost without a
return. The slave is not reached: if the bus was idle, the device is as it was, with nothing selected; else the
environment is unconstrained from here on. What the host has seen and has still to issue is the host's. -/
def powerCycle (s : State) : State :=
  let clean := s.phase = .idle ∧ s.inflight = none
  { State.resetWith s.cfg with
    port := s.port
    returns := s.returns
    lostCalls := lostCallsAfter s
    diags := s.diags
    env := if clean then s.env else .arbitrary
    dev := if clean then { s.dev with sel := .none } else s.dev
    moves := s.moves
    powerCycles := s.powerCycles
    tick := s.tick }

end Sys2Proof.Machine
end

