-- ==== Sys2Proof/Machine/Env.lean ====
section
/-!
DEFINITION. The environment (spec 20_memory.md): the completions of R61 and R62 under any answer, and the reference
environment of R76 to R83, a single master and one EEPROM device.
-/

namespace Sys2Proof.Machine

/-- Whether an operation receives a byte (R61). -/
def isReceive : BusOp → Bool
  | .opRxAck | .opRxNak => true
  | .opStart | .opStop | .opAddr _ | .opData _ => false

/-- `Complete(st, d)` of the operation `op` (R61). -/
def complete (op : BusOp) (st d : Byte) (s : State) : State :=
  { s with
    status := .put st
    data := if isReceive op then .put d else s.data
    ctrl := { s.ctrl with tc := true }
    inflight := none }

/-- `StopSent(st)` (R62). -/
def stopSent (st : Byte) (s : State) : State :=
  { s with
    ctrl := { s.ctrl with sto := false }
    inflight := none
    status := .put st }

/-- The completion that the operation in flight is owed (R61, R62). -/
def finishOp (op : BusOp) (st d : Byte) (s : State) : State :=
  match op with
  | .opStop => stopSent st s
  | .opStart => complete .opStart st d s
  | .opAddr b => complete (.opAddr b) st d s
  | .opData b => complete (.opData b) st d s
  | .opRxAck => complete .opRxAck st d s
  | .opRxNak => complete .opRxNak st d s

/-- The identifier of an address byte, `b[7:1]` (R78, R95). -/
def byteAddr7 (b : Byte) : Addr7 := b.extractLsb' 1 7

/-- The direction of an address byte, `b[0]` (R78, R96). -/
def byteDir (b : Byte) : Dir := Dir.ofBit (b.extractLsb' 0 1)

/-- The reference device's answer to an operation (R77 to R81): the status, the data byte and the device after it.
`ph` is the phase before the trigger; `st` and `d` are the environment's draws, used where a rule says a draw and where
no rule gives the status (a data byte while addressed for read, log entry 26); `p` is the pointer's draw of R80. -/
def deviceAnswer (device : Addr7) (ph : Phase) (op : BusOp) (st d p : Byte) (dev : Device) :
    Except Refusal (Byte × Byte × Device) :=
  match op with
  | .opStart => .ok (if ph = .idle then 0x08 else 0x10, d, { dev with sel := .none })
  | .opAddr b =>
    if byteAddr7 b ≠ device ∨ dev.busy = true then
      .ok (if byteDir b = .write then 0x20 else 0x48, d, { dev with sel := .none })
    else if byteDir b = .write then .ok (0x18, d, { dev with sel := .wAddr })
    else .ok (0x40, d, { dev with sel := .reading })
  | .opData b =>
    match dev.sel with
    | .wAddr => .ok (0x28, d, { dev with ptr := b, sel := .wData })
    | .wData => .ok (0x28, d, { dev with sel := .wPending b })
    | .none => .ok (0x30, d, dev)
    | .reading => .ok (st, d, dev)
    | .wPending _ => .error .pageWrite
  | .opRxNak =>
    .ok (0x58, if dev.sel = .reading then dev.mem.read dev.ptr.toNat else d, { dev with sel := .none })
  | .opRxAck =>
    if dev.sel = .reading then .ok (0x50, dev.mem.read dev.ptr.toNat, { dev with ptr := p })
    else .ok (0x50, d, dev)
  | .opStop =>
    match dev.sel with
    | .wPending v => .ok (st, d, { dev with mem := dev.mem.write dev.ptr.toNat v, busy := true, sel := .none })
    | .none | .wAddr | .wData | .reading => .ok (st, d, { dev with sel := .none })

/-- The environment that answers from here on is unconstrained (R132, R202). -/
def freeEnv (s : State) : State :=
  { s with env := .arbitrary }

/-- The environment's answer to the operation in flight: any status and data (R60), or the reference device's. To an
operation out of contract the reference device's answer is not defined, so the environment is unconstrained from then
on (R82, R132; log entry 9). -/
def envAnswer (op : BusOp) (st d : Byte) (s : State) : Result :=
  match s.env with
  | .arbitrary => .next (finishOp op st d s)
  | .reference =>
    if s.phase = .undefined then .next (finishOp op st d (freeEnv s))
    else
      match deviceAnswer s.cfg.device s.phase op st d (Config.freeByte s.tick .ptr) s.dev with
      | .error r => .refused r
      | .ok (st', d', dev') => .next (finishOp op st' d' (setDev dev' s))

/-- `WriteCycleDone` (R81). -/
def writeCycleDone (s : State) : State :=
  setDev { s.dev with busy := false } s

/-- Whether the reference device's write cycle is running. -/
def deviceBusy (s : State) : Bool :=
  s.env = .reference && s.dev.busy

/-- Whether some step of the environment is enabled (R61, R62, R81). -/
def envEnabled (s : State) : Bool :=
  s.inflight.isSome || deviceBusy s

/-- Whether the reference environment owes an answer: it always completes an operation in contract (R82). -/
def owesAnswer (s : State) : Bool :=
  s.env = .reference && s.phase ≠ .undefined && s.inflight.isSome

/-- The environment's move once none is listed: a free one (R60, R63; log entry 3), but where the reference environment
owes an answer it gives one, its draws free, unless it ends its write cycle first (R81, R82; log entry 27). -/
def unlistedMove (s : State) : EnvMove :=
  if owesAnswer s && !(s.dev.busy && Config.freeMove s.tick = .writeCycleDone) then
    .answer (Config.freeByte s.tick .answerStatus) (Config.freeByte s.tick .answerData)
  else Config.freeMove s.tick

/-- The environment's move at `s`: the first one listed, else the unlisted one. -/
def nextMove (s : State) : EnvMove :=
  match s.moves with
  | [] => unlistedMove s
  | m :: _ => m

/-- The state once the move is taken from the list. -/
def dropMove (s : State) : State :=
  { s with moves := s.moves.tail }

/-- A move of the environment; `none` where the environment takes no step, or none that is enabled. -/
def envMove (m : EnvMove) (s : State) : Option Result :=
  match m with
  | .quiet => none
  | .answer st d => s.inflight.map fun op => envAnswer op st d s
  | .writeCycleDone => if deviceBusy s then some (.next (writeCycleDone s)) else none

end Sys2Proof.Machine
end

