-- ==== Sys2Proof/Machine/Engine.lean ====
section
/-!
DEFINITION. The two sequencers that every command runs on: the Bus Engine's micro-steps `u0, u1, ...` (spec
40_bus_engine.md R121 to R130, 10_state.md R33) and the step table of a command (42_eeprom_client.md R150, 10_state.md
R32).
-/

namespace Sys2Proof.Machine

/-- A numbered micro-step of a primitive (R122 to R129, R132, R140). -/
inductive Micro where
  /-- The contract step of R132. -/
  | contract
  /-- `SetClock(1, Divisor(F_CPU, F_SCL))`. -/
  | setClock
  /-- `INITED <- 1; return`. -/
  | markInited
  /-- `WriteData(AddrByte(addr7, dir))`. -/
  | writeAddr
  /-- `WriteData(data)`. -/
  | writeData
  /-- `Trigger(sta, sto, ea)`. -/
  | trigger (sta sto ea : Bool)
  /-- `SpinUntil(ReadTC() = 1)`. -/
  | spinTC
  /-- `SpinUntil(ReadStopPending() = 0)`. -/
  | spinStop
  /-- `x[RES] <- ReadData()`. -/
  | readData
  /-- `o <- Decode(raw); emit Diag(o); return o`. -/
  | decode
  /-- The last step: the phase of R131, then return. -/
  | ret
deriving DecidableEq, Repr

/-- The micro-steps of a primitive, in order (R122, R124 to R129, R140). -/
def microSteps : Prim → List Micro
  | .init => [.setClock, .markInited]
  | .start => [.contract, .trigger true false false, .spinTC, .ret]
  | .stop => [.contract, .trigger false true false, .spinStop, .ret]
  | .txAddr => [.contract, .writeAddr, .trigger false false false, .spinTC, .ret]
  | .txByte => [.contract, .writeData, .trigger false false false, .spinTC, .ret]
  | .rxAck => [.contract, .trigger false false true, .spinTC, .readData, .ret]
  | .rxNak => [.contract, .trigger false false false, .spinTC, .readData, .ret]
  | .decode => [.decode]

/-- The next micro-step of the same primitive. -/
def advance (p : Prim) (u : Nat) (s : State) : State :=
  { s with eng := .exec p (u + 1) }

/-- One micro-step `m`, the one numbered `u` of `p` (R120: one register operation per step). `leave` is what follows the
primitive's return. A spin whose condition does not hold repeats (R121): the state is unchanged. -/
def runMicro (m : Micro) (p : Prim) (u : Nat) (leave : State → State) (s : State) : Result :=
  match m with
  | .contract => .next (advance p u (contractStep p s))
  | .setClock => .next (advance p u (setClock s.cfg.div s))
  | .markInited => .next (leave (setInited s))
  | .writeAddr => andThen (writeData (addrByte (opAddr7 s) (opDir s)) s) fun t => .next (advance p u t)
  | .writeData => andThen (writeData (opAValue s) s) fun t => .next (advance p u t)
  | .trigger sta sto ea => andThen (trigger p sta sto ea s) fun t => .next (advance p u t)
  | .spinTC => .next (if readTC s then advance p u s else s)
  | .spinStop => .next (if readStopPending s then s else advance p u s)
  | .readData => readDataThen s fun b => .next (advance p u (setRes b s))
  | .decode => .next (leave (emitDiag (decodeStatus (opAValue s)) s))
  | .ret => .next (leave (setPhase (endPhase p (opDir s)) s))

/-- Whether the engine stands at a spin, the only places inside a primitive where the environment may step (R33,
R121). -/
def atSpin (s : State) : Bool :=
  match s.eng with
  | .idle => false
  | .exec p u => (microSteps p)[u]? = some .spinTC || (microSteps p)[u]? = some .spinStop

/-- The action of one step of a command's table (R150 to R153). -/
inductive Action where
  /-- `call P(args)`: load the operands the primitive expects, run it to its return, then go to the step `next`; with
  `none` the command returns. -/
  | call (p : Prim) (a b : Option Byte) (next : Option Nat)
  /-- Step 2 of `EE_WAIT`: read and test the status; an acknowledge or an exhausted bound goes to `exit`, else `again`. -/
  | test (exit again : Nat)
  /-- `pc <- k`. -/
  | jump (k : Nat)
  /-- Return to the host. -/
  | ret
deriving DecidableEq, Repr

/-- Load an operand latch, where the primitive expects an operand (R150). -/
def loadOperand (x : Option Byte) (l : Latch) : Latch :=
  match x with
  | none => l
  | some b => .put b

/-- `call P(args)`: the operands are loaded and the engine enters `P` (R150). -/
def enter (p : Prim) (a b : Option Byte) (s : State) : State :=
  { s with opA := loadOperand a s.opA, opB := loadOperand b s.opB, eng := .exec p 0 }

/-- What follows a called primitive's return: the table's next step, or the command's return. -/
def leaveTo (i : Instr) (next : Option Nat) (s : State) : State :=
  match next with
  | some k => { s with txn := .run i k, eng := .idle }
  | none => commandReturn i s

/-- Whether `POLL_BOUND` is finite and `n` probes use it up (R153, R155). -/
def boundReached (cfg : Config) (n : Nat) : Bool :=
  match cfg.pollBound with
  | none => false
  | some k => k ≤ n

/-- Step 2 of `EE_WAIT` (R153): `s <- ReadStatus(); PROBES <- PROBES + 1`, then the test. -/
def probeTest (i : Instr) (exit again : Nat) (s : State) : State :=
  if decodeStatus (readStatus s) = .addrWriteAcked then
    { s with probes := s.probes + 1, waitAcked := true, txn := .run i exit }
  else if boundReached s.cfg (s.probes + 1) then
    { s with probes := s.probes + 1, txn := .run i exit }
  else
    { s with probes := s.probes + 1, txn := .run i again }

/-- A step of the table that no primitive is running in yet. -/
def startAction (i : Instr) (act : Action) (s : State) : State :=
  match act with
  | .call p a b _ => enter p a b s
  | .test exit again => probeTest i exit again s
  | .jump k => goto i k s
  | .ret => commandReturn i s

/-- The engine's micro-step inside the table's step `act`. -/
def engineStep (i : Instr) (act : Action) (p : Prim) (u : Nat) (s : State) : Result :=
  match act with
  | .call q _ _ next =>
    if p = q then
      match (microSteps p)[u]? with
      | some m => runMicro m p u (leaveTo i next) s
      | none => .fault .engineOffTable
    else .fault .engineOffTable
  | .test _ _ => .fault .engineOffTable
  | .jump _ => .fault .engineOffTable
  | .ret => .fault .engineOffTable

/-- One step of the command `i` with the step table `table`: offered to an idle block it is accepted (R90, R91), running
it takes its next step, and while another command runs it is not accepted and the host waits (R177). -/
def runCommand (i : Instr) (table : Nat → Option Action) (s : State) : Result :=
  match s.txn with
  | .idle => .next (accept i s)
  | .run j k =>
    if j = i then
      match table k with
      | none => .fault .sequencerOffTable
      | some act =>
        match s.eng with
        | .idle => .next (startAction i act s)
        | .exec p u => engineStep i act p u s
    else .next s

/-- The step table of a command that is one primitive: step 0 calls it, and its end is the command's return (R32). The
operands are those of the acceptance. -/
def primTable (p : Prim) (k : Nat) : Option Action :=
  match k with
  | 0 => some (.call p none none none)
  | _ + 1 => none

end Sys2Proof.Machine
end

