-- ==== Sys2Proof/Machine/BusEngine.lean ====
section
/-!
DEFINITION. The meanings of the Bus Engine's eight commands (spec 40_bus_engine.md R122 to R129, 41_status_decode.md
R140): each is one primitive, run from the command port.
-/

namespace Sys2Proof.Machine

/-- `INIT` (R122). -/
def execInit (s : State) : Result :=
  runCommand .init (primTable .init) s

/-- `START` (R124). -/
def execStart (s : State) : Result :=
  runCommand .start (primTable .start) s

/-- `STOP` (R125). -/
def execStop (s : State) : Result :=
  runCommand .stop (primTable .stop) s

/-- `TXADDR addr7, dir` (R126). -/
def execTxAddr (addr : Addr7) (dir : Dir) (s : State) : Result :=
  runCommand (.txAddr addr dir) (primTable .txAddr) s

/-- `TXBYTE data` (R127). -/
def execTxByte (data : Byte) (s : State) : Result :=
  runCommand (.txByte data) (primTable .txByte) s

/-- `RXACK` (R128). -/
def execRxAck (s : State) : Result :=
  runCommand .rxAck (primTable .rxAck) s

/-- `RXNAK` (R129). -/
def execRxNak (s : State) : Result :=
  runCommand .rxNak (primTable .rxNak) s

/-- `DECODE raw` (R140). -/
def execDecode (raw : Byte) (s : State) : Result :=
  runCommand (.decode raw) (primTable .decode) s

end Sys2Proof.Machine
end

