-- ==== Sys2Proof/Machine/EepromClient.lean ====
section
/-!
DEFINITION. The meanings of the EEPROM Client's three transactions (spec 42_eeprom_client.md R151 to R155): the step
tables and the commands that run them.
-/

namespace Sys2Proof.Machine

/-- `call TXADDR(DEVICE, dir)`: the address byte's parts go to `OPA` and `OPB` (R30, R150). -/
def callAddr (device : Addr7) (dir : Dir) (next : Nat) : Action :=
  .call .txAddr (some (device.setWidth 8)) (some (dir.toBit.setWidth 8)) (some next)

/-- The step table of `EE_WRITE` (R151). -/
def eeWriteTable (cfg : Config) (offset value : Byte) (k : Nat) : Option Action :=
  match k with
  | 0 => some (.call .start none none (some 1))
  | 1 => some (callAddr cfg.device .write 2)
  | 2 => some (.call .txByte (some offset) none (some 3))
  | 3 => some (.call .txByte (some value) none (some 4))
  | 4 => some (.call .stop none none (some 5))
  | 5 => some .ret
  | _ => none

/-- The step table of `EE_READ` (R152). -/
def eeReadTable (cfg : Config) (offset : Byte) (k : Nat) : Option Action :=
  match k with
  | 0 => some (.call .start none none (some 1))
  | 1 => some (callAddr cfg.device .write 2)
  | 2 => some (.call .txByte (some offset) none (some 3))
  | 3 => some (.call .start none none (some 4))
  | 4 => some (callAddr cfg.device .read 5)
  | 5 => some (.call .rxNak none none (some 6))
  | 6 => some (.call .stop none none (some 7))
  | 7 => some .ret
  | _ => none

/-- The step table of `EE_WAIT` (R153, R154). -/
def eeWaitTable (cfg : Config) (k : Nat) : Option Action :=
  match k with
  | 0 => some (.call .start none none (some 1))
  | 1 => some (callAddr cfg.device .write 2)
  | 2 => some (.test 4 3)
  | 3 => some (if cfg.probeStop then .call .stop none none (some 0) else .jump 0)
  | 4 => some (if cfg.waitFinalStop then .call .stop none none none else .ret)
  | _ => none

/-- The step table of a command (R32, R151 to R153). -/
def tableOf (cfg : Config) (i : Instr) : Nat → Option Action :=
  match i with
  | .init => primTable .init
  | .start => primTable .start
  | .stop => primTable .stop
  | .txAddr _ _ => primTable .txAddr
  | .txByte _ => primTable .txByte
  | .rxAck => primTable .rxAck
  | .rxNak => primTable .rxNak
  | .decode _ => primTable .decode
  | .eeWrite offset value => eeWriteTable cfg offset value
  | .eeRead offset => eeReadTable cfg offset
  | .eeWait => eeWaitTable cfg

/-- `EE_WRITE offset, value` (R151). -/
def execEeWrite (offset value : Byte) (s : State) : Result :=
  runCommand (.eeWrite offset value) (eeWriteTable s.cfg offset value) s

/-- `EE_READ offset` (R152). -/
def execEeRead (offset : Byte) (s : State) : Result :=
  runCommand (.eeRead offset) (eeReadTable s.cfg offset) s

/-- The acceptance of `EE_WAIT` (R153): `PROBES <- 0; WAIT_ACKED <- 0`. -/
def clearProbes (s : State) : State :=
  { s with probes := 0, waitAcked := false }

/-- `EE_WAIT` (R153). -/
def execEeWait (s : State) : Result :=
  match s.txn with
  | .idle => runCommand .eeWait (eeWaitTable s.cfg) (clearProbes s)
  | .run _ _ => runCommand .eeWait (eeWaitTable s.cfg) s

end Sys2Proof.Machine
end

