-- ==== Sys2Proof/Machine/Turn.lean ====
section
/-!
DEFINITION. Whose turn it is (spec 00_scope.md R11, 20_memory.md R59, R72, 40_bus_engine.md R121): a power cycle that is
due, a step of the environment at a spin or while the block waits, or a step of the block; and the fetching of a command
from the host's port (30_encoding.md R90). The meaning of a command is an argument here; `step` passes `exec`.
-/

namespace Sys2Proof.Machine

/-- The block waits for a command (R201): it is idle and the host offers none. -/
def waiting (s : State) : Bool :=
  s.txn = .idle && s.port = []

/-- Whether the environment may step here and has a step to take (R121; log entry 7). -/
def envTurn (s : State) : Bool :=
  (atSpin s || waiting s) && envEnabled s

/-- The block's step: the running command goes on; an idle block takes the next offered word, or waits. An illegal word
is refused at the port (R100). -/
def blockTurn (exec : Instr → State → Result) (s : State) : Result :=
  match s.txn with
  | .run i _ => exec i s
  | .idle =>
    match s.port with
    | [] => .next s
    | w :: rest =>
      match portDecode s.cfg w with
      | .ok i => exec i (setPort rest s)
      | .error r => .refused r

/-- One step of the environment or of the block. -/
def turn (exec : Instr → State → Result) (s : State) : Result :=
  if envTurn s then
    match envMove (nextMove s) (dropMove s) with
    | some o => o
    | none => blockTurn exec (dropMove s)
  else blockTurn exec s

/-- The state once a step is counted. -/
def ticked (s : State) : State :=
  { s with tick := s.tick + 1 }

/-- One step of the whole: a power cycle that is due falls (R200); else one turn is taken. -/
def stepWith (exec : Instr → State → Result) (s : State) : Result :=
  match s.powerCycles with
  | [] => turn exec (ticked s)
  | 0 :: rest => .next (powerCycle (setPowerCycles rest (ticked s)))
  | (n + 1) :: rest => turn exec (setPowerCycles (n :: rest) (ticked s))

/-- The word `w` is the next one the host offers, and the block is ready to take it in the very next step. -/
def offerWord (w : CmdWord) (s : State) : State :=
  { s with port := w :: s.port, txn := .idle, eng := .idle, powerCycles := [] }

end Sys2Proof.Machine
end

