-- ==== Sys2Proof/Machine/Dispatch.lean ====
section
/-!
DEFINITION. The meaning of each command, one arm per row of the opcode table (spec 30_encoding.md R92).
-/

namespace Sys2Proof.Machine

def exec (i : Instr) (s : State) : Host.Outcome State Fault Refusal :=
  match i with
  | .init => Sys2Proof.Machine.execInit s
  | .start => Sys2Proof.Machine.execStart s
  | .stop => Sys2Proof.Machine.execStop s
  | .txAddr addr dir => Sys2Proof.Machine.execTxAddr addr dir s
  | .txByte data => Sys2Proof.Machine.execTxByte data s
  | .rxAck => Sys2Proof.Machine.execRxAck s
  | .rxNak => Sys2Proof.Machine.execRxNak s
  | .decode raw => Sys2Proof.Machine.execDecode raw s
  | .eeWrite offset value => Sys2Proof.Machine.execEeWrite offset value s
  | .eeRead offset => Sys2Proof.Machine.execEeRead offset s
  | .eeWait => Sys2Proof.Machine.execEeWait s

end Sys2Proof.Machine
end

