-- ==== Sys2Proof/Machine/Step.lean ====
section
/-!
DEFINITION. The step of the whole machine (spec 00_scope.md R11) and the placing of a command where the step fetches it
(30_encoding.md R90; log entry 8).
-/

namespace Sys2Proof.Machine

/-- One step: of the block, of the environment, or a power cycle (`stepWith`). -/
def step (s : State) : Host.Outcome State Fault Refusal :=
  stepWith exec s

/-- `s` with the instruction whose bits are `w` offered at the port as the next command (log entry 8). The command word
is 24 bits (R91); bits above `nbits` are zero. -/
def State.withFetchWord (s : State) (nbits w : Nat) : State :=
  offerWord (BitVec.ofNat 24 (w % 2 ^ nbits)) s

end Sys2Proof.Machine
end

