-- ==== Sys2Proof/Safety.lean ====
section
/-!
DEFINITION. What claims are stated in (spec 70_reset_and_hazards.md R223, R224): the end of a run and what is observed;
the named premises about the environment (20_memory.md R63, R64), which are never rules of the machine; the illegal
words of 30_encoding.md R100; and the invariants of the machine.
-/

namespace Sys2Proof.Machine

/-! ### The end of a run (R223) and the observation (R224) -/

/-- `n` steps of the machine. -/
def runs (n : Nat) (s : State) : Result :=
  Host.Core.run Sys2Proof.core n s

/-- The run is over: every command has been accepted and has returned, none was lost to a power cycle (R201), both
sequencers are idle, nothing is in flight and no mark is set (R223). It does not say that the bus is released. It looks
at the marks of this state alone: a run whose mark a power cycle has cleared (R37), with no command in progress, may be
final, though R132 and D20 call a run with a mark never final (log entry 28, DESIGN CHOICE). -/
def State.final (s : State) : Bool :=
  s.port = [] && s.lostCalls = 0 && s.txn = .idle && s.eng = .idle && s.inflight = none && s.faults = []

/-- The run is faulted: a contract mark is set (R132, R223) and no power cycle has cleared it since (R37; log entry 28,
DESIGN CHOICE). -/
def State.faulted (s : State) : Bool :=
  s.faults ≠ []

/-- The run from `s` hangs: from some step on a command is in progress for ever and never returns (R172, R223). -/
def Hangs (s : State) : Prop :=
  ∃ n, ∀ m, n ≤ m → ∃ t, runs m s = .next t ∧ t.txn ≠ .idle

/-- The list of command words is refused: a word of it is illegal (R100, R223). -/
def refusedProgram (cfg : Config) (ws : List CmdWord) : Bool :=
  ws.any fun w =>
    match portDecode cfg w with
    | .ok _ => false
    | .error _ => true

/-- The bus is owned by the block (R41). -/
def State.busOwned (s : State) : Bool :=
  s.phase ≠ .idle

/-- What a claim may look at (R224); `mem` when the environment is the reference device. -/
structure Observation where
  returns : List Ret
  trace : List BusEvent
  regLog : List RegOp
  mem : Option Memory
deriving DecidableEq, Repr

/-- The observation of a state reached (R224). -/
def State.observe (s : State) : Observation where
  returns := s.returns
  trace := s.trace
  regLog := s.regLog
  mem := if s.env = .reference then some s.dev.mem else none

/-! ### Named premises about the environment -/

/-- The row of R64's table: the statuses legal for the operation in flight, `ph` the phase before the trigger. -/
def legalStatus (op : BusOp) (ph : Phase) (st : Byte) : Bool :=
  match op, ph with
  | .opStart, .idle => st = 0x08
  | .opStart, .dataWrite => st = 0x10
  | .opStart, .dataRead => st = 0x10
  | .opStart, .dataReadDone => st = 0x10
  | .opAddr b, .addressPhase =>
    if byteDir b = .write then st = 0x18 || st = 0x20 || st = 0x38
    else st = 0x40 || st = 0x48 || st = 0x38
  | .opData _, .dataWrite => st = 0x28 || st = 0x30 || st = 0x38
  | .opRxAck, .dataRead => st = 0x50
  | .opRxNak, .dataRead => st = 0x58
  | .opStop, _ => true
  | _, _ => false

/-- The step from `u` to `t` completes the operation `op` (R61, R62). A power cycle completes nothing. -/
def Completes (u t : State) (op : BusOp) : Prop :=
  step u = .next t ∧ u.inflight = some op ∧ t.inflight = none ∧ ∀ rest, u.powerCycles ≠ 0 :: rest

/-- The step from `u` is a power cycle that may leave the slave in the middle of a transfer (R202). -/
def DirtyReset (u : State) : Prop :=
  (∃ rest, u.powerCycles = 0 :: rest) ∧ (u.phase ≠ .idle ∨ u.inflight ≠ none)

/-- Nothing in the first `n` steps from `s` has ended what a conforming environment promises: no status `0x38` was
returned (R64, R173), and no power cycle fell within a transfer (R202). -/
def StillPromised (s : State) (n : Nat) : Prop :=
  ∀ m u, m < n → runs m s = .next u → ¬DirtyReset u ∧ ∀ t op, Completes u t op → t.status.val ≠ 0x38

/-- `ENV_CONFORMS` (R64) of the run from `s`: every completion, in contract and while the promise lasts, takes its status
from the row of the operation in flight. -/
def EnvConforms (s : State) : Prop :=
  ∀ n u t op, runs n s = .next u → Completes u t op → u.phase ≠ .undefined → StillPromised s n →
    legalStatus op u.phase t.status.val = true

/-- `ENV_LIVE` (R63) of the run from `s`: every triggered operation stays in flight until, after `m` more steps, it is
completed. -/
def EnvLive (s : State) : Prop :=
  ∀ n u op, runs n s = .next u → u.inflight = some op →
    ∃ m v t, runs m u = .next v ∧ (∀ j w, j ≤ m → runs j u = .next w → w.inflight = some op) ∧ Completes v t op

/-- The step from `u` to `t` completes a write addressing of the device. -/
def WriteAddressed (u t : State) : Prop :=
  ∃ b, Completes u t (.opAddr b) ∧ byteAddr7 b = u.cfg.device ∧ byteDir b = .write

/-- `DEV_WRITE_CYCLE_ENDS` (R63, R81) of the run from `s`: a write cycle of the reference device eventually ends, and a
device that is addressed for write again and again eventually acknowledges, whichever environment answers. -/
def DevWriteCycleEnds (s : State) : Prop :=
  (∀ n u, runs n s = .next u → deviceBusy u = true → ∃ m v, runs m u = .next v ∧ deviceBusy v = false) ∧
  ((∀ n, ∃ m u t, n ≤ m ∧ runs m s = .next u ∧ WriteAddressed u t) →
    ∀ n, ∃ m u t, n ≤ m ∧ runs m s = .next u ∧ WriteAddressed u t ∧ t.status.val = 0x18)

/-! ### What a bus primitive is to show (R130, R131) -/

/-- The primitive and the direction of a command that is one bus primitive (R92). -/
def busPrim : Instr → Option (Prim × Dir)
  | .start => some (.start, .write)
  | .stop => some (.stop, .write)
  | .txAddr _ dir => some (.txAddr, dir)
  | .txByte _ => some (.txByte, .write)
  | .rxAck => some (.rxAck, .write)
  | .rxNak => some (.rxNak, .write)
  | .init | .decode _ | .eeWrite _ _ | .eeRead _ | .eeWait => none

/-- The event that a bus primitive adds to `TRACE` (R130, column "`TRACE` event"). -/
def busEvent : Instr → List BusEvent
  | .start => [.start]
  | .stop => [.stop]
  | .txAddr addr dir => [.addr (addrByte addr dir)]
  | .txByte data => [.data data]
  | .rxAck => [.rxAck]
  | .rxNak => [.rxNak]
  | .init | .decode _ | .eeWrite _ _ | .eeRead _ | .eeWait => []

/-- The register writes that a bus primitive adds to `REGLOG` (R130, column "register operations"). -/
def busRegOps : Instr → List RegOp
  | .start => [.trigger true false false]
  | .stop => [.trigger false true false]
  | .txAddr addr dir => [.writeData (addrByte addr dir), .trigger false false false]
  | .txByte data => [.writeData data, .trigger false false false]
  | .rxAck => [.trigger false false true]
  | .rxNak => [.trigger false false false]
  | .init | .decode _ | .eeWrite _ _ | .eeRead _ | .eeWait => []

/-- What a bus primitive returns, `d` the byte received (R130, column "returns"). -/
def busReturn (i : Instr) (d : Byte) : Ret :=
  match i with
  | .rxAck | .rxNak => .byte d
  | .init | .start | .stop | .txAddr _ _ | .txByte _ | .decode _ | .eeWrite _ _ | .eeRead _ | .eeWait => .nothing

/-- The four flags when a bus primitive has returned: what its trigger wrote, and then its completion (R124 to R129,
"flags written"). -/
def busCtrl : Instr → Ctrl
  | .start => { tc := true, ea := false, sta := true, sto := false }
  | .stop => { tc := false, ea := false, sta := false, sto := false }
  | .rxAck => { tc := true, ea := true, sta := false, sto := false }
  | .txAddr _ _ | .txByte _ | .rxNak => { tc := true, ea := false, sta := false, sto := false }
  | .init | .decode _ | .eeWrite _ _ | .eeRead _ | .eeWait => { tc := false, ea := false, sta := false, sto := false }

/-- `DATA` when a bus primitive has returned, `old` before it and `d` the byte received (R61, R126 to R129). -/
def busData (i : Instr) (d : Byte) (old : Latch) : Latch :=
  match i with
  | .txAddr addr dir => .put (addrByte addr dir)
  | .txByte data => .put data
  | .rxAck | .rxNak => .put d
  | .init | .start | .stop | .decode _ | .eeWrite _ _ | .eeRead _ | .eeWait => old

/-- `RES` when a bus primitive has returned (R128, R129). -/
def busRes (i : Instr) (d : Byte) (old : Latch) : Latch :=
  match i with
  | .rxAck | .rxNak => .put d
  | .init | .start | .stop | .txAddr _ _ | .txByte _ | .decode _ | .eeWrite _ _ | .eeRead _ | .eeWait => old

/-- The block is idle with nothing in flight and no power cycle to come, and offers the port the command `i` and then
`rest`. -/
structure Offers (s : State) (i : Instr) (rest : List CmdWord) : Prop where
  txn : s.txn = .idle
  eng : s.eng = .idle
  inflight : s.inflight = none
  powerCycles : s.powerCycles = []
  port : s.port = encode i :: rest
  legal : i.wellFormed s.cfg = true

/-- The block has returned from a command: both sequencers idle, nothing in flight, `rest` still on offer. -/
structure Returned (t : State) (rest : List CmdWord) : Prop where
  txn : t.txn = .idle
  eng : t.eng = .idle
  inflight : t.inflight = none
  port : t.port = rest

/-- An answer of the environment that comes after `quiet` iterations of the spin (R121, R176): the status and the byte
of its completion. -/
structure Reply where
  quiet : Nat
  st : Byte
  d : Byte
deriving DecidableEq, Repr

/-- The moves of a reply. -/
def Reply.moves (r : Reply) : List EnvMove :=
  List.replicate r.quiet .quiet ++ [.answer r.st r.d]

/-- The moves that answer a list of operations one by one. -/
def answers (rs : List Reply) : List EnvMove :=
  rs.flatMap Reply.moves

/-- The same while the reference device's write cycle is running and does not end: the environment then also has a turn
between the completion and the block's next look at the flag. -/
def answersWhileBusy (rs : List Reply) : List EnvMove :=
  rs.flatMap fun r => r.moves ++ [.quiet]

/-- The replies to one probe of `EE_WAIT`: to its START, its address byte and the STOP after it, which is issued only
under the switches of R154. -/
structure ProbeReply where
  start : Reply
  addr : Reply
  stop : Reply
deriving DecidableEq, Repr

/-- The moves that answer a probe, with or without a STOP after it. -/
def ProbeReply.moves (stopped : Bool) (p : ProbeReply) : List EnvMove :=
  answers (if stopped then [p.start, p.addr, p.stop] else [p.start, p.addr])

/-- The moves that answer an `EE_WAIT` which loops back after each probe of `fails` and leaves its loop after `last`
(R153, R154). -/
def waitMoves (cfg : Config) (fails : List ProbeReply) (last : ProbeReply) : List EnvMove :=
  fails.flatMap (ProbeReply.moves cfg.probeStop) ++ last.moves cfg.waitFinalStop

/-- The bus events of one probe of `EE_WAIT`, with or without a STOP after it (R153, R154). -/
def probeEvents (cfg : Config) (stopped : Bool) : List BusEvent :=
  .start :: .addr (addrByte cfg.device .write) :: (if stopped then [.stop] else [])

/-- The register writes of one probe (R130, R153, R154). -/
def probeRegOps (cfg : Config) (stopped : Bool) : List RegOp :=
  .trigger true false false :: .writeData (addrByte cfg.device .write) :: .trigger false false false ::
    (if stopped then [.trigger false true false] else [])

/-- The bus events of an `EE_WAIT` that loops back after `k` probes and leaves its loop after one more. -/
def waitEvents (cfg : Config) (k : Nat) : List BusEvent :=
  (List.replicate k (probeEvents cfg cfg.probeStop)).flatten ++ probeEvents cfg cfg.waitFinalStop

/-- The register writes of the same `EE_WAIT`. -/
def waitRegOps (cfg : Config) (k : Nat) : List RegOp :=
  (List.replicate k (probeRegOps cfg cfg.probeStop)).flatten ++ probeRegOps cfg cfg.waitFinalStop

/-- The bus events of `EE_WRITE`, in order (R151). -/
def writeEvents (cfg : Config) (offset value : Byte) : List BusEvent :=
  [.start, .addr (addrByte cfg.device .write), .data offset, .data value, .stop]

/-- The register writes of `EE_WRITE`, in order (R130, R151). -/
def writeRegOps (cfg : Config) (offset value : Byte) : List RegOp :=
  [.trigger true false false, .writeData (addrByte cfg.device .write), .trigger false false false,
    .writeData offset, .trigger false false false, .writeData value, .trigger false false false,
    .trigger false true false]

/-- The bus events of `EE_READ`, in order (R152). -/
def readEvents (cfg : Config) (offset : Byte) : List BusEvent :=
  [.start, .addr (addrByte cfg.device .write), .data offset, .start, .addr (addrByte cfg.device .read), .rxNak,
    .stop]

/-- The register writes of `EE_READ`, in order (R130, R152). -/
def readRegOps (cfg : Config) (offset : Byte) : List RegOp :=
  [.trigger true false false, .writeData (addrByte cfg.device .write), .trigger false false false,
    .writeData offset, .trigger false false false, .trigger true false false,
    .writeData (addrByte cfg.device .read), .trigger false false false, .trigger false false false,
    .trigger false true false]

/-! ### The illegal words of R100 -/

/-- The eleven opcodes of R92. -/
def assignedOpcodes : List Byte :=
  [0x01, 0x02, 0x03, 0x04, 0x05, 0x06, 0x07, 0x08, 0x10, 0x11, 0x12]

/-- R100 (a). -/
def unassigned (w : CmdWord) : Bool :=
  opField w ∉ assignedOpcodes

/-- R100 (b). -/
def notExposed (cfg : Config) (w : CmdWord) : Bool :=
  0x02 ≤ opField w && opField w ≤ 0x08 && !cfg.exposePrimitives

/-- R100 (c), for the opcodes that are assigned. -/
def unusedBit (w : CmdWord) : Bool :=
  if opField w ∈ ([0x01, 0x02, 0x03, 0x06, 0x07, 0x12] : List Byte) then aField w ≠ 0 || bField w ≠ 0
  else if opField w = 0x04 then (aField w).getLsbD 7 || (bField w).extractLsb' 1 7 ≠ 0
  else if opField w ∈ ([0x05, 0x08, 0x11] : List Byte) then bField w ≠ 0
  else false

/-- A command word is illegal when any of R100 (a) to (c) holds. -/
def illegalWord (cfg : Config) (w : CmdWord) : Bool :=
  unassigned w || notExposed cfg w || unusedBit w

/-! ### The invariant of the machine -/

/-- The six primitives that start a bus operation (R124 to R129). -/
def isBusPrim : Prim → Bool
  | .start | .stop | .txAddr | .txByte | .rxAck | .rxNak => true
  | .init | .decode => false

/-- The operation in flight is one that the primitive triggers (R53). -/
def opFits (p : Prim) (op : BusOp) : Bool :=
  match p, op with
  | .start, .opStart => true
  | .stop, .opStop => true
  | .txAddr, .opAddr _ => true
  | .txByte, .opData _ => true
  | .rxAck, .opRxAck => true
  | .rxNak, .opRxNak => true
  | _, _ => false

/-- The sequencers stand where the tables let them (R32, R33): idle together; else at a step of the running command's
table and, in a primitive, at a micro-step of the one that step calls. -/
def SeqInv (s : State) : Prop :=
  match s.txn with
  | .idle => s.eng = .idle
  | .run i k =>
    i.wellFormed s.cfg = true ∧
    match s.eng with
    | .idle => tableOf s.cfg i k ≠ none
    | .exec p u => (∃ a b next, tableOf s.cfg i k = some (.call p a b next)) ∧ u < (microSteps p).length

/-- An operation is in flight only at its own primitive's spin (R36, R73), with `TC` clear; `STO` is set exactly while a
STOP is in flight (R25); a `TC` spin with nothing in flight has its flag set (R24). -/
def FlightInv (s : State) : Prop :=
  (∀ op, s.inflight = some op →
    atSpin s = true ∧ s.ctrl.tc = false ∧ ∃ p u, s.eng = .exec p u ∧ opFits p op = true) ∧
  (s.ctrl.sto = true ↔ s.inflight = some .opStop) ∧
  (∀ p u, s.eng = .exec p u → (microSteps p)[u]? = some .spinTC → s.inflight = none → s.ctrl.tc = true)

/-- `FAULT` is a set, and it is not empty exactly when the phase is `Undefined` (R37, R132). -/
def MarkInv (s : State) : Prop :=
  s.faults.Nodup ∧ (s.phase = .undefined ↔ s.faults ≠ [])

/-- The clock registers hold what `INIT` wrote, once it has (R22, R38, R122, R205), and `PRESC` its only legal value. -/
def ClockInv (s : State) : Prop :=
  s.presc = 0 ∧ (s.inited = true ∨ s.eng = .exec .init 1 → s.div = .put s.cfg.div)

/-- The invariant of the machine. -/
structure MachineInv (s : State) : Prop where
  seq : SeqInv s
  flight : FlightInv s
  marks : MarkInv s
  clock : ClockInv s
  mem : Memory.wf s.dev.mem = true

/-! ### The contract of the public commands (R156) -/

/-- The phases of R156's walk: entry `k` of a public command's list holds those that are allowed while its step `k` has
not ended. No primitive on its own is part of the walk. -/
def walkPhases : Instr → List (List Phase)
  | .init => [[.idle, .dataWrite]]
  | .eeWrite _ _ => [[.idle, .dataWrite], [.addressPhase], [.dataWrite], [.dataWrite], [.dataWrite], [.idle]]
  | .eeRead _ =>
    [[.idle, .dataWrite], [.addressPhase], [.dataWrite], [.dataWrite], [.addressPhase], [.dataRead], [.dataReadDone],
      [.idle]]
  | .eeWait => [[.idle, .dataWrite], [.addressPhase], [.dataWrite], [.dataWrite], [.dataWrite]]
  | .start | .stop | .txAddr _ _ | .txByte _ | .rxAck | .rxNak | .decode _ => []

/-- R156's walk allows the phase while step `k` of the command has not ended. -/
def walkPhase (i : Instr) (k : Nat) (ph : Phase) : Prop :=
  ∃ phs, (walkPhases i)[k]? = some phs ∧ ph ∈ phs

/-- The direction that the sequencer loaded for an addressing step is still in `OPB` (R150): while `TXADDR` runs in a
public command, it addresses for write, but in step 4 of `EE_READ`. -/
def addrDirKept (s : State) : Prop :=
  ∀ i k u, s.txn = .run i k → s.eng = .exec .txAddr u →
    s.opB = .put (if k = 4 then 1 else 0)

/-- R156's condition: initialised, no mark, and the phase where the walk has it; between commands the phase is `Idle` or
`DataWrite`. -/
structure PublicInv (s : State) : Prop where
  inited : s.inited = true
  noMark : s.faults = []
  walk :
    match s.txn with
    | .idle => s.eng = .idle ∧ (s.phase = .idle ∨ s.phase = .dataWrite)
    | .run i k => walkPhase i k s.phase
  dir : addrDirKept s

end Sys2Proof.Machine
end

