-- ==== Sys2Proof/Certificates/Slice0/Obligations.lean ====
section
/-!
DEFINITION. The statements for the provers: what the spec's numbered rules say that a command, the environment or the
whole machine does. Each docstring names the rules it formalises. `MachineInv`, `PublicInv`, `Offers` and `Returned` are of
Safety.lean.
-/

section

open Sys2Proof Sys2Proof.Machine

/-! ### Encoding -/

/-- R91, R92: the decoder gives back every command that is encoded, with every operand. -/
def Obligations.DecodeOfEncodeIsTheCommand : Prop :=
  ∀ i : Instr, decodeWord (encode i) = .ok i

/-- R91, R92, R100: a word that decodes is the encoding of the command it decodes to, so no word has two spellings. -/
def Obligations.DecodedWordIsTheEncoding : Prop :=
  ∀ (w : CmdWord) (i : Instr), decodeWord w = .ok i → encode i = w

/-- R100: the port refuses exactly the illegal words. That a step of an idle block which is offered one is a refusal is the
model's reading of R100 with R223 (log entry 13, DEDUCED). -/
def Obligations.IllegalWordsAreRefused : Prop :=
  (∀ (cfg : Config) (w : CmdWord), illegalWord cfg w = true ↔ ∃ r, portDecode cfg w = .error r) ∧
  (∀ (s : State) (w : CmdWord) (rest : List CmdWord), (∀ ns, s.powerCycles ≠ 0 :: ns) → s.txn = .idle →
    s.eng = .idle → s.port = w :: rest → illegalWord s.cfg w = true → ∃ r, step s = .refused r)

/-- R92, R100 and the vectors V-ENC: words written out from the spec's encoding decode to their commands. A sanity
statement. -/
def Obligations.DecodesWordsOfTheTable : Prop :=
  decodeWord 0x010000 = .ok .init ∧ decodeWord 0x020000 = .ok .start ∧
  decodeWord 0x045001 = .ok (.txAddr 0x50 .read) ∧ decodeWord 0x047F01 = .ok (.txAddr 0x7F .read) ∧
  decodeWord 0x056400 = .ok (.txByte 0x64) ∧ decodeWord 0x081800 = .ok (.decode 0x18) ∧
  decodeWord 0x101064 = .ok (.eeWrite 0x10 0x64) ∧ decodeWord 0x111000 = .ok (.eeRead 0x10) ∧
  decodeWord 0x120000 = .ok .eeWait

/-- R95, R96: the address byte holds the identifier in bits 7:1 and the direction in bit 0, and nothing is lost. -/
def Obligations.AddressBytePacksBoth : Prop :=
  ∀ (addr : Addr7) (dir : Dir),
    byteAddr7 (addrByte addr dir) = addr ∧ byteDir (addrByte addr dir) = dir ∧
    (addrByte addr dir).toNat = addr.toNat * 2 + dir.toBit.toNat

/-! ### Fetching, accepting, waiting -/

/-- R90, R91: a step of an idle block runs the command that the offered word decodes to, the word taken from the port
and the step counted. -/
def Obligations.StepRunsTheOfferedCommand : Prop :=
  ∀ (s : State) (w : CmdWord) (rest : List CmdWord) (i : Instr), s.powerCycles = [] → s.txn = .idle →
    s.eng = .idle → s.port = w :: rest → portDecode s.cfg w = .ok i →
    step s = exec i (setPort rest (ticked s))

/-- R32, R120, R121: where the environment has no step to take, or takes none, a step of a busy block runs the running
command, the step counted and the quiet move used up. -/
def Obligations.StepRunsTheRunningCommand : Prop :=
  ∀ (s : State) (i : Instr) (k : Nat), s.powerCycles = [] → s.txn = .run i k →
    (envTurn s = false → step s = exec i (ticked s)) ∧
    (∀ ms, envTurn s = true → s.moves = .quiet :: ms → step s = exec i (dropMove (ticked s)))

/-- R91: acceptance loads `OPA` and `OPB` with the word's operand fields and starts the command at step 0; `EE_WAIT`
also clears its counters (R153); all else is as it was. -/
def Obligations.AcceptanceLoadsTheLatches : Prop :=
  ∀ (s : State) (w : CmdWord) (i : Instr), s.txn = .idle → decodeWord w = .ok i →
    exec i s = .next
      { s with
        opA := ⟨aField w, true⟩
        opB := ⟨bField w, true⟩
        txn := .run i 0
        probes := if i = .eeWait then 0 else s.probes
        waitAcked := if i = .eeWait then false else s.waitAcked }

/-- R90, R177: a command offered while another runs is not accepted and the host waits: `exec` of it answers the same state
(the model's form of "no step": log entry 14, DEDUCED). And no step takes a word from the port unless the block is idle; a
power cycle leaves the host its words (log entry 10, DESIGN CHOICE). -/
def Obligations.BusyBlockAcceptsNothing : Prop :=
  (∀ (i j : Instr) (k : Nat) (s : State), s.txn = .run j k → j ≠ i → exec i s = .next s) ∧
  (∀ s t : State, step s = .next t → s.txn ≠ .idle → t.port = s.port)

/-- R201: an idle block that is offered nothing waits; nothing but the step counter changes while the environment has no
step to take. -/
def Obligations.IdleBlockWaits : Prop :=
  ∀ s : State, s.powerCycles = [] → s.txn = .idle → s.port = [] → envEnabled s = false →
    step s = .next (ticked s)

/-! ### Reset -/

/-- R44: the values after reset, under every configuration. A byte that R44 leaves unspecified is in the model one that has
not been written (log entry 5, DESIGN CHOICE), and a read of it is the draw of its step (R45; log entry 2). -/
def Obligations.ResetValues : Prop :=
  ∀ c : Config, let r := State.resetWith c
    r.presc = 0 ∧ r.div.written = false ∧ r.ctrl = ⟨false, false, false, false⟩ ∧ r.data.written = false ∧
    r.status.written = false ∧ r.opA.written = false ∧ r.opB.written = false ∧ r.res.written = false ∧
    r.waitAcked = false ∧ r.txn = .idle ∧ r.eng = .idle ∧ r.phase = .idle ∧ r.inflight = none ∧ r.faults = [] ∧
    r.inited = false ∧ r.probes = 0 ∧ r.trace = [] ∧ r.regLog = [] ∧
    dataValue r = Config.freeByte r.tick .data ∧ readStatus r = Config.freeByte r.tick .status ∧
    opAValue r = Config.freeByte r.tick .opA ∧ opBValue r = Config.freeByte r.tick .opB ∧
    resValue r = Config.freeByte r.tick .res

/-- R45: a read of `DATA`, `STATUS` or a latch that nothing has written since reset is the draw of that step; once
written, it is the value. -/
def Obligations.UnwrittenReadsAreDraws : Prop :=
  ∀ s : State,
    dataValue s = (if s.data.written then s.data.val else Config.freeByte s.tick .data) ∧
    readStatus s = (if s.status.written then s.status.val else Config.freeByte s.tick .status) ∧
    opAValue s = (if s.opA.written then s.opA.val else Config.freeByte s.tick .opA) ∧
    opBValue s = (if s.opB.written then s.opB.val else Config.freeByte s.tick .opB) ∧
    resValue s = (if s.res.written then s.res.val else Config.freeByte s.tick .res)

/-- R200, R201, R202: a power cycle that is due falls whatever the block is doing; the block takes its reset values, and a
command in progress never returns; the device keeps its bytes, pointer and busy bit with nothing selected if the bus was
idle, and else the environment is unconstrained. What the host keeps is log entry 10 (DESIGN CHOICE). -/
def Obligations.PowerCycleResetsTheBlock : Prop :=
  ∀ (s : State) (rest : List Nat), s.powerCycles = 0 :: rest →
    (s.phase = .idle → s.inflight = none → step s = .next
      { State.resetWith s.cfg with
        port := s.port, returns := s.returns, diags := s.diags, env := s.env,
        dev := { s.dev with sel := .none }, moves := s.moves, powerCycles := rest, tick := s.tick + 1,
        lostCalls := if s.txn = .idle then s.lostCalls else s.lostCalls + 1 }) ∧
    (s.phase ≠ .idle ∨ s.inflight ≠ none → step s = .next
      { State.resetWith s.cfg with
        port := s.port, returns := s.returns, diags := s.diags, env := .arbitrary,
        dev := s.dev, moves := s.moves, powerCycles := rest, tick := s.tick + 1,
        lostCalls := if s.txn = .idle then s.lostCalls else s.lostCalls + 1 }) ∧
    (s.txn ≠ .idle → ∀ t, step s = .next t → t.final = false)

/-! ### The Bus Engine's commands, micro-step by micro-step -/

/-- R122, R52, R92: `INIT`, the word `0x010000`, programs the divisor of its configuration and the unity prescaler, then marks the block
initialised and returns; nothing else changes. -/
def Obligations.InitProgramsTheDivisor : Prop :=
  encode .init = 0x010000 ∧
  ∀ s : State, s.txn = .run .init 0 →
    (s.eng = .idle → exec .init s = .next { s with eng := .exec .init 0 }) ∧
    (s.eng = .exec .init 0 → exec .init s = .next
      { s with
        presc := 0, div := ⟨s.cfg.div, true⟩, regLog := s.regLog ++ [.setClock 1 s.cfg.div],
        eng := .exec .init 1 }) ∧
    (s.eng = .exec .init 1 → exec .init s = .next
      { s with inited := true, txn := .idle, eng := .idle, returns := s.returns ++ [.nothing] })

/-- R124: `START` in contract triggers with `STA`, spins on `TC`, and ends in the address phase. -/
def Obligations.StartMicroSteps : Prop :=
  ∀ s : State, s.txn = .run .start 0 →
    (s.eng = .idle → exec .start s = .next { s with eng := .exec .start 0 }) ∧
    (s.eng = .exec .start 0 → s.inited = true →
      (s.phase = .idle ∨ s.phase = .dataWrite ∨ s.phase = .dataRead ∨ s.phase = .dataReadDone) →
      exec .start s = .next { s with eng := .exec .start 1 }) ∧
    (s.eng = .exec .start 1 → s.inflight = none → exec .start s = .next
      { s with
        ctrl := { tc := false, ea := false, sta := true, sto := false }, inflight := some .opStart,
        trace := s.trace ++ [.start], regLog := s.regLog ++ [.trigger true false false],
        eng := .exec .start 2 }) ∧
    (s.eng = .exec .start 2 → s.ctrl.tc = false → exec .start s = .next s) ∧
    (s.eng = .exec .start 2 → s.ctrl.tc = true → exec .start s = .next { s with eng := .exec .start 3 }) ∧
    (s.eng = .exec .start 3 → s.phase ≠ .undefined → exec .start s = .next
      { s with
        phase := .addressPhase, txn := .idle, eng := .idle, returns := s.returns ++ [.nothing] }) ∧
    (s.eng = .exec .start 3 → s.phase = .undefined → exec .start s = .next
      { s with txn := .idle, eng := .idle, returns := s.returns ++ [.nothing] })

/-- R125: `STOP` in contract triggers with `STO`, spins on `STO` (never on `TC`), and ends with the bus idle. -/
def Obligations.StopMicroSteps : Prop :=
  ∀ s : State, s.txn = .run .stop 0 →
    (s.eng = .idle → exec .stop s = .next { s with eng := .exec .stop 0 }) ∧
    (s.eng = .exec .stop 0 → s.inited = true → (s.phase = .dataWrite ∨ s.phase = .dataReadDone) →
      exec .stop s = .next { s with eng := .exec .stop 1 }) ∧
    (s.eng = .exec .stop 1 → s.inflight = none → exec .stop s = .next
      { s with
        ctrl := { tc := false, ea := false, sta := false, sto := true }, inflight := some .opStop,
        trace := s.trace ++ [.stop], regLog := s.regLog ++ [.trigger false true false],
        eng := .exec .stop 2 }) ∧
    (s.eng = .exec .stop 2 → s.ctrl.sto = true → exec .stop s = .next s) ∧
    (s.eng = .exec .stop 2 → s.ctrl.sto = false → exec .stop s = .next { s with eng := .exec .stop 3 }) ∧
    (s.eng = .exec .stop 3 → s.phase ≠ .undefined → exec .stop s = .next
      { s with phase := .idle, txn := .idle, eng := .idle, returns := s.returns ++ [.nothing] }) ∧
    (s.eng = .exec .stop 3 → s.phase = .undefined → exec .stop s = .next
      { s with txn := .idle, eng := .idle, returns := s.returns ++ [.nothing] })

/-- R126: `TXADDR` in contract writes the address byte to `DATA`, triggers, spins on `TC`, and ends in the data phase of
its direction, whatever the slave answered. -/
def Obligations.TxAddrMicroSteps : Prop :=
  ∀ (addr : Addr7) (dir : Dir) (s : State), s.txn = .run (.txAddr addr dir) 0 →
    s.opA = ⟨addr.setWidth 8, true⟩ → s.opB = ⟨dir.toBit.setWidth 8, true⟩ →
    (s.eng = .idle → exec (.txAddr addr dir) s = .next { s with eng := .exec .txAddr 0 }) ∧
    (s.eng = .exec .txAddr 0 → s.inited = true → s.phase = .addressPhase →
      exec (.txAddr addr dir) s = .next { s with eng := .exec .txAddr 1 }) ∧
    (s.eng = .exec .txAddr 1 → s.inflight = none → exec (.txAddr addr dir) s = .next
      { s with
        data := ⟨addrByte addr dir, true⟩, regLog := s.regLog ++ [.writeData (addrByte addr dir)],
        eng := .exec .txAddr 2 }) ∧
    (s.eng = .exec .txAddr 2 → s.inflight = none → exec (.txAddr addr dir) s = .next
      { s with
        ctrl := { tc := false, ea := false, sta := false, sto := false },
        inflight := some (.opAddr (dataValue s)), trace := s.trace ++ [.addr (dataValue s)],
        regLog := s.regLog ++ [.trigger false false false], eng := .exec .txAddr 3 }) ∧
    (s.eng = .exec .txAddr 3 → s.ctrl.tc = false → exec (.txAddr addr dir) s = .next s) ∧
    (s.eng = .exec .txAddr 3 → s.ctrl.tc = true →
      exec (.txAddr addr dir) s = .next { s with eng := .exec .txAddr 4 }) ∧
    (s.eng = .exec .txAddr 4 → s.phase ≠ .undefined → exec (.txAddr addr dir) s = .next
      { s with
        phase := (if dir = .write then .dataWrite else .dataRead), txn := .idle, eng := .idle,
        returns := s.returns ++ [.nothing] }) ∧
    (s.eng = .exec .txAddr 4 → s.phase = .undefined → exec (.txAddr addr dir) s = .next
      { s with txn := .idle, eng := .idle, returns := s.returns ++ [.nothing] })

/-- R127: `TXBYTE` in contract writes its byte to `DATA` unchanged, triggers, spins on `TC`, and leaves the phase. -/
def Obligations.TxByteMicroSteps : Prop :=
  ∀ (v : Byte) (s : State), s.txn = .run (.txByte v) 0 → s.opA = ⟨v, true⟩ →
    (s.eng = .idle → exec (.txByte v) s = .next { s with eng := .exec .txByte 0 }) ∧
    (s.eng = .exec .txByte 0 → s.inited = true → s.phase = .dataWrite →
      exec (.txByte v) s = .next { s with eng := .exec .txByte 1 }) ∧
    (s.eng = .exec .txByte 1 → s.inflight = none → exec (.txByte v) s = .next
      { s with data := ⟨v, true⟩, regLog := s.regLog ++ [.writeData v], eng := .exec .txByte 2 }) ∧
    (s.eng = .exec .txByte 2 → s.inflight = none → exec (.txByte v) s = .next
      { s with
        ctrl := { tc := false, ea := false, sta := false, sto := false },
        inflight := some (.opData (dataValue s)), trace := s.trace ++ [.data (dataValue s)],
        regLog := s.regLog ++ [.trigger false false false], eng := .exec .txByte 3 }) ∧
    (s.eng = .exec .txByte 3 → s.ctrl.tc = false → exec (.txByte v) s = .next s) ∧
    (s.eng = .exec .txByte 3 → s.ctrl.tc = true →
      exec (.txByte v) s = .next { s with eng := .exec .txByte 4 }) ∧
    (s.eng = .exec .txByte 4 → exec (.txByte v) s = .next
      { s with txn := .idle, eng := .idle, returns := s.returns ++ [.nothing] })

/-- R128: `RXACK` in contract triggers with `EA`, spins on `TC`, puts the byte of `DATA` into `RES` and returns it, and
leaves the phase. -/
def Obligations.RxAckMicroSteps : Prop :=
  ∀ s : State, s.txn = .run .rxAck 0 →
    (s.eng = .idle → exec .rxAck s = .next { s with eng := .exec .rxAck 0 }) ∧
    (s.eng = .exec .rxAck 0 → s.inited = true → s.phase = .dataRead →
      exec .rxAck s = .next { s with eng := .exec .rxAck 1 }) ∧
    (s.eng = .exec .rxAck 1 → s.inflight = none → exec .rxAck s = .next
      { s with
        ctrl := { tc := false, ea := true, sta := false, sto := false }, inflight := some .opRxAck,
        trace := s.trace ++ [.rxAck], regLog := s.regLog ++ [.trigger false false true],
        eng := .exec .rxAck 2 }) ∧
    (s.eng = .exec .rxAck 2 → s.ctrl.tc = false → exec .rxAck s = .next s) ∧
    (s.eng = .exec .rxAck 2 → s.ctrl.tc = true → exec .rxAck s = .next { s with eng := .exec .rxAck 3 }) ∧
    (s.eng = .exec .rxAck 3 → s.inflight = none → exec .rxAck s = .next
      { s with res := ⟨dataValue s, true⟩, eng := .exec .rxAck 4 }) ∧
    (s.eng = .exec .rxAck 4 → exec .rxAck s = .next
      { s with txn := .idle, eng := .idle, returns := s.returns ++ [.byte (resValue s)] })

/-- R129: `RXNAK` in contract triggers without `EA`, spins on `TC`, puts the byte of `DATA` into `RES` and returns it,
and ends in the phase `DataReadDone`. -/
def Obligations.RxNakMicroSteps : Prop :=
  ∀ s : State, s.txn = .run .rxNak 0 →
    (s.eng = .idle → exec .rxNak s = .next { s with eng := .exec .rxNak 0 }) ∧
    (s.eng = .exec .rxNak 0 → s.inited = true → s.phase = .dataRead →
      exec .rxNak s = .next { s with eng := .exec .rxNak 1 }) ∧
    (s.eng = .exec .rxNak 1 → s.inflight = none → exec .rxNak s = .next
      { s with
        ctrl := { tc := false, ea := false, sta := false, sto := false }, inflight := some .opRxNak,
        trace := s.trace ++ [.rxNak], regLog := s.regLog ++ [.trigger false false false],
        eng := .exec .rxNak 2 }) ∧
    (s.eng = .exec .rxNak 2 → s.ctrl.tc = false → exec .rxNak s = .next s) ∧
    (s.eng = .exec .rxNak 2 → s.ctrl.tc = true → exec .rxNak s = .next { s with eng := .exec .rxNak 3 }) ∧
    (s.eng = .exec .rxNak 3 → s.inflight = none → exec .rxNak s = .next
      { s with res := ⟨dataValue s, true⟩, eng := .exec .rxNak 4 }) ∧
    (s.eng = .exec .rxNak 4 → s.phase ≠ .undefined → exec .rxNak s = .next
      { s with
        phase := .dataReadDone, txn := .idle, eng := .idle, returns := s.returns ++ [.byte (resValue s)] }) ∧
    (s.eng = .exec .rxNak 4 → s.phase = .undefined → exec .rxNak s = .next
      { s with txn := .idle, eng := .idle, returns := s.returns ++ [.byte (resValue s)] })

/-- R140, R142, R98, R143: `DECODE` returns the outcome word of its operand and emits one label, in every phase and
before `INIT`; nothing else changes. -/
def Obligations.DecodeReturnsTheOutcome : Prop :=
  ∀ (raw : Byte) (s : State), s.txn = .run (.decode raw) 0 → s.opA = ⟨raw, true⟩ →
    (s.eng = .idle → exec (.decode raw) s = .next { s with eng := .exec .decode 0 }) ∧
    (s.eng = .exec .decode 0 → exec (.decode raw) s = .next
      { s with
        diags := s.diags ++ [decodeStatus raw], txn := .idle, eng := .idle,
        returns := s.returns ++ [.outcome (outcomeIndex (decodeStatus raw) ++ raw)] })

/-- R97, R140, R141: the eleven codes decode to their named outcomes, every other byte to `Unrecognized` of itself, and
no two bytes to the same outcome. -/
def Obligations.DecoderIsTotalAndInjective : Prop :=
  (decodeStatus 0x08 = .startSent ∧ decodeStatus 0x10 = .repeatedStartSent ∧
    decodeStatus 0x38 = .arbitrationLostOrNak ∧ decodeStatus 0x18 = .addrWriteAcked ∧
    decodeStatus 0x20 = .addrWriteNaked ∧ decodeStatus 0x28 = .dataWriteAcked ∧
    decodeStatus 0x30 = .dataWriteNaked ∧ decodeStatus 0x40 = .addrReadAcked ∧
    decodeStatus 0x48 = .addrReadNaked ∧ decodeStatus 0x50 = .dataReadAckSent ∧
    decodeStatus 0x58 = .dataReadNakSent) ∧
  (∀ v : Byte, v ∉ ([0x08, 0x10, 0x38, 0x18, 0x20, 0x28, 0x30, 0x40, 0x48, 0x50, 0x58] : List Byte) →
    decodeStatus v = .unrecognized v) ∧
  (∀ v w : Byte, decodeStatus v = decodeStatus w → v = w)

/-- R132, R37: the contract step of each bus primitive. Before `INIT`, or where the table of R131 has X, the mark joins
the set and the phase becomes `Undefined`; the primitive goes on all the same. That a new mark stands at the end of the
list is the model's choice (log entry 16, DESIGN CHOICE): R37's set has no order. -/
def Obligations.ContractStepMarksAndGoesOn : Prop :=
  ∀ (i : Instr) (p : Prim) (dir : Dir) (s : State), busPrim i = some (p, dir) → s.txn = .run i 0 →
    s.eng = .exec p 0 →
    (s.inited = false → exec i s = .next
      { s with
        faults := if .notInitialised p ∈ s.faults then s.faults else s.faults ++ [.notInitialised p],
        phase := .undefined, eng := .exec p 1 }) ∧
    (s.inited = true → phaseTable p dir s.phase = none → exec i s = .next
      { s with
        faults := if .badPhase p s.phase ∈ s.faults then s.faults else s.faults ++ [.badPhase p s.phase],
        phase := .undefined, eng := .exec p 1 }) ∧
    (s.inited = true → phaseTable p dir s.phase ≠ none → exec i s = .next { s with eng := .exec p 1 })

/-- R120, R130, R131: a bus primitive that is offered in contract runs to its return once an arbitrary environment has
answered, however long the spin lasted: one bus event, its register writes in order, the phase of R131, no mark, the four
flags, `DATA` and `RES` as its rule leaves them, and the byte received for a receive. -/
def Obligations.BusPrimitivesRunToReturn : Prop :=
  ∀ (i : Instr) (p : Prim) (dir : Dir) (ph : Phase) (s : State) (rest : List CmdWord) (q : Nat) (st d : Byte)
    (ms : List EnvMove),
    busPrim i = some (p, dir) → phaseTable p dir s.phase = some ph → Offers s i rest → s.inited = true →
    s.env = .arbitrary → s.moves = List.replicate q EnvMove.quiet ++ (EnvMove.answer st d :: ms) →
    ∃ n t, runs n s = .next t ∧ Returned t rest ∧ t.phase = ph ∧ t.faults = s.faults ∧ t.moves = ms ∧
      t.trace = s.trace ++ busEvent i ∧ t.regLog = s.regLog ++ busRegOps i ∧ t.status = ⟨st, true⟩ ∧
      t.ctrl = busCtrl i ∧ t.data = busData i d s.data ∧ t.res = busRes i d s.res ∧
      t.returns = s.returns ++ [busReturn i d]

/-! ### The EEPROM Client's transactions -/

/-- R151, R150: the steps of `EE_WRITE` between its primitives: what each step calls, with which operands, and the
return. -/
def Obligations.EeWriteSteps : Prop :=
  ∀ (o v : Byte) (k : Nat) (s : State), s.txn = .run (.eeWrite o v) k → s.eng = .idle →
    (k = 0 → exec (.eeWrite o v) s = .next { s with eng := .exec .start 0 }) ∧
    (k = 1 → exec (.eeWrite o v) s = .next
      { s with opA := ⟨s.cfg.device.setWidth 8, true⟩, opB := ⟨0, true⟩, eng := .exec .txAddr 0 }) ∧
    (k = 2 → exec (.eeWrite o v) s = .next { s with opA := ⟨o, true⟩, eng := .exec .txByte 0 }) ∧
    (k = 3 → exec (.eeWrite o v) s = .next { s with opA := ⟨v, true⟩, eng := .exec .txByte 0 }) ∧
    (k = 4 → exec (.eeWrite o v) s = .next { s with eng := .exec .stop 0 }) ∧
    (k = 5 → exec (.eeWrite o v) s = .next
      { s with txn := .idle, returns := s.returns ++ [.nothing] })

/-- R152, R150: the steps of `EE_READ` between its primitives, and the return of the byte in `RES`. -/
def Obligations.EeReadSteps : Prop :=
  ∀ (o : Byte) (k : Nat) (s : State), s.txn = .run (.eeRead o) k → s.eng = .idle →
    (k = 0 → exec (.eeRead o) s = .next { s with eng := .exec .start 0 }) ∧
    (k = 1 → exec (.eeRead o) s = .next
      { s with opA := ⟨s.cfg.device.setWidth 8, true⟩, opB := ⟨0, true⟩, eng := .exec .txAddr 0 }) ∧
    (k = 2 → exec (.eeRead o) s = .next { s with opA := ⟨o, true⟩, eng := .exec .txByte 0 }) ∧
    (k = 3 → exec (.eeRead o) s = .next { s with eng := .exec .start 0 }) ∧
    (k = 4 → exec (.eeRead o) s = .next
      { s with opA := ⟨s.cfg.device.setWidth 8, true⟩, opB := ⟨1, true⟩, eng := .exec .txAddr 0 }) ∧
    (k = 5 → exec (.eeRead o) s = .next { s with eng := .exec .rxNak 0 }) ∧
    (k = 6 → exec (.eeRead o) s = .next { s with eng := .exec .stop 0 }) ∧
    (k = 7 → exec (.eeRead o) s = .next
      { s with txn := .idle, returns := s.returns ++ [.byte (resValue s)] })

/-- R153, R154, R155: the steps of `EE_WAIT` between its primitives, for every value of the switches: the probe, the
test of the status (only `0x18` ends the loop; an exhausted bound leaves it), the loop back, and the return. -/
def Obligations.EeWaitSteps : Prop :=
  ∀ (k : Nat) (s : State), s.txn = .run .eeWait k → s.eng = .idle →
    (k = 0 → exec .eeWait s = .next { s with eng := .exec .start 0 }) ∧
    (k = 1 → exec .eeWait s = .next
      { s with opA := ⟨s.cfg.device.setWidth 8, true⟩, opB := ⟨0, true⟩, eng := .exec .txAddr 0 }) ∧
    (k = 2 → readStatus s = 0x18 → exec .eeWait s = .next
      { s with probes := s.probes + 1, waitAcked := true, txn := .run .eeWait 4 }) ∧
    (k = 2 → readStatus s ≠ 0x18 →
      (∃ n, s.cfg.pollBound = some n ∧ n ≤ s.probes + 1) →
      exec .eeWait s = .next { s with probes := s.probes + 1, txn := .run .eeWait 4 }) ∧
    (k = 2 → readStatus s ≠ 0x18 →
      (∀ n, s.cfg.pollBound = some n → s.probes + 1 < n) →
      exec .eeWait s = .next { s with probes := s.probes + 1, txn := .run .eeWait 3 }) ∧
    (k = 3 → s.cfg.probeStop = false → exec .eeWait s = .next { s with txn := .run .eeWait 0 }) ∧
    (k = 3 → s.cfg.probeStop = true → exec .eeWait s = .next { s with eng := .exec .stop 0 }) ∧
    (k = 4 → s.cfg.waitFinalStop = false → exec .eeWait s = .next
      { s with txn := .idle, returns := s.returns ++ [.flag s.waitAcked] }) ∧
    (k = 4 → s.cfg.waitFinalStop = true → exec .eeWait s = .next { s with eng := .exec .stop 0 })

/-- R150, R32, R105: inside a transaction a called primitive takes the same micro-steps as on its own; at its last one it
writes the phase of R131, where `Undefined` stays, and the transaction goes to the table's next step, or returns where the
table has none. -/
def Obligations.TransactionsRunTheirPrimitives : Prop :=
  ∀ (i : Instr) (k : Nat) (p : Prim) (a b : Option Byte) (next : Option Nat) (u : Nat) (m : Micro) (s : State),
    s.txn = .run i k → tableOf s.cfg i k = some (.call p a b next) → s.eng = .exec p u →
    (microSteps p)[u]? = some m →
    (m ≠ .ret → m ≠ .markInited → m ≠ .decode → ∀ j, tableOf s.cfg j 0 = some (.call p none none none) → ∀ t,
      (exec i s = .next t ↔
        t.txn = .run i k ∧ exec j { s with txn := .run j 0 } = .next { t with txn := .run j 0 })) ∧
    (m = .ret → ∀ ph, phaseTable p (opDir s) s.phase = some ph ∨ (s.phase = .undefined ∧ ph = .undefined) →
      (∀ k', next = some k' → exec i s = .next { s with phase := ph, txn := .run i k', eng := .idle }) ∧
      (next = none → exec i s = .next
        { s with phase := ph, txn := .idle, eng := .idle, returns := s.returns ++ [returnValue i s] }))

/-- R105: `EE_WRITE` and `EE_READ` call, step by step, the primitives of their expansion with the operand bytes that the
expansion's own words carry, and then return. -/
def Obligations.TransactionsAreTheirExpansion : Prop :=
  ∀ (cfg : Config) (i : Instr) (prims : List Instr), i.expansion cfg = some prims →
    tableOf cfg i prims.length = some .ret ∧
    ∀ k j, prims[k]? = some j → ∃ p dir a b, busPrim j = some (p, dir) ∧
      tableOf cfg i k = some (.call p a b (some (k + 1))) ∧
      (∀ x, a = some x → x = j.byteA) ∧ (∀ x, b = some x → x = j.byteB) ∧
      ((p = .txAddr ∨ p = .txByte) → a ≠ none) ∧ (p = .txAddr → b ≠ none)

/-- R151: `EE_WRITE` on an initialised block, against any environment that answers its five operations in turn, each after
any number of spin iterations, returns nothing with exactly the five bus events, the register writes of R130 in order, the
bus idle and all four flags 0, whatever the answers were; and no mark is set. -/
def Obligations.EeWriteIssuesItsFiveOperations : Prop :=
  ∀ (o v : Byte) (s : State) (rest : List CmdWord) (rs : List Reply) (ms : List EnvMove),
    Offers s (.eeWrite o v) rest → s.inited = true → (s.phase = .idle ∨ s.phase = .dataWrite) →
    s.env = .arbitrary → rs.length = 5 → s.moves = answers rs ++ ms →
    ∃ n t, runs n s = .next t ∧ Returned t rest ∧ t.phase = .idle ∧ t.faults = s.faults ∧ t.moves = ms ∧
      t.trace = s.trace ++ writeEvents s.cfg o v ∧
      t.regLog = s.regLog ++ writeRegOps s.cfg o v ∧
      t.ctrl = ⟨false, false, false, false⟩ ∧ t.returns = s.returns ++ [.nothing]

/-- R152: `EE_READ` on an initialised block, against any environment that answers its seven operations in turn, each after
any number of spin iterations, issues exactly its seven bus events and returns the byte that came with the answer to the
receive, the sixth. -/
def Obligations.EeReadReturnsTheReceivedByte : Prop :=
  ∀ (o : Byte) (s : State) (rest : List CmdWord) (rs : List Reply) (d : Byte) (ms : List EnvMove),
    Offers s (.eeRead o) rest → s.inited = true → (s.phase = .idle ∨ s.phase = .dataWrite) →
    s.env = .arbitrary → rs.length = 7 → rs[5]?.map Reply.d = some d → s.moves = answers rs ++ ms →
    ∃ n t, runs n s = .next t ∧ Returned t rest ∧ t.phase = .idle ∧ t.faults = s.faults ∧ t.moves = ms ∧
      t.trace = s.trace ++ readEvents s.cfg o ∧ t.regLog = s.regLog ++ readRegOps s.cfg o ∧
      t.ctrl = ⟨false, false, false, false⟩ ∧ t.res = ⟨d, true⟩ ∧ t.returns = s.returns ++ [.byte d]

/-- R153, R154: for every value of the switches, `EE_WAIT` probes once for each address status that is not `0x18` and once
more for the first `0x18`, which comes before a finite bound is used up; a probe is a START and an address byte, a STOP
follows a failed one under `PROBE_STOP` and the last one under `WAIT_FINAL_STOP`, and there is nothing else. Without
`WAIT_FINAL_STOP` it returns with the bus still owned. -/
def Obligations.EeWaitProbesUntilAcknowledged : Prop :=
  ∀ (s : State) (rest : List CmdWord) (fails : List ProbeReply) (last : ProbeReply) (ms : List EnvMove),
    Offers s .eeWait rest → s.inited = true → (s.phase = .idle ∨ s.phase = .dataWrite) → s.env = .arbitrary →
    (∀ b, s.cfg.pollBound = some b → fails.length < b) → (∀ f ∈ fails, f.addr.st ≠ 0x18) → last.addr.st = 0x18 →
    s.moves = waitMoves s.cfg fails last ++ ms →
    ∃ n t, runs n s = .next t ∧ Returned t rest ∧
      t.phase = (if s.cfg.waitFinalStop then .idle else .dataWrite) ∧ t.faults = s.faults ∧ t.moves = ms ∧
      t.probes = fails.length + 1 ∧ t.waitAcked = true ∧
      t.trace = s.trace ++ waitEvents s.cfg fails.length ∧
      t.regLog = s.regLog ++ waitRegOps s.cfg fails.length ∧
      t.returns = s.returns ++ [.flag true]

/-- R155, R154: for every value of the switches, with a finite bound `b >= 1`, `EE_WAIT` returns after the `b`-th probe that
is not acknowledged, with `WAIT_ACKED = 0`. -/
def Obligations.EeWaitStopsAtItsBound : Prop :=
  ∀ (s : State) (rest : List CmdWord) (fails : List ProbeReply) (last : ProbeReply) (ms : List EnvMove),
    Offers s .eeWait rest → s.inited = true → (s.phase = .idle ∨ s.phase = .dataWrite) → s.env = .arbitrary →
    s.cfg.pollBound = some (fails.length + 1) → (∀ f ∈ fails, f.addr.st ≠ 0x18) → last.addr.st ≠ 0x18 →
    s.moves = waitMoves s.cfg fails last ++ ms →
    ∃ n t, runs n s = .next t ∧ Returned t rest ∧
      t.phase = (if s.cfg.waitFinalStop then .idle else .dataWrite) ∧ t.faults = s.faults ∧ t.moves = ms ∧
      t.probes = fails.length + 1 ∧ t.waitAcked = false ∧
      t.trace = s.trace ++ waitEvents s.cfg fails.length ∧
      t.regLog = s.regLog ++ waitRegOps s.cfg fails.length ∧
      t.returns = s.returns ++ [.flag false]

/-! ### The environment -/

/-- R61, R60, R77 to R80: the environment's answer to an operation other than a STOP, at its spin, is
`Complete(st, d)`, with the draws of an arbitrary environment or, in contract, with the reference device's answer. -/
def Obligations.AnswerCompletesTheOperation : Prop :=
  ∀ (s : State) (op : BusOp) (st d : Byte) (ms : List EnvMove), s.powerCycles = [] → s.inflight = some op →
    op ≠ .opStop → atSpin s = true → s.moves = .answer st d :: ms →
    (s.env = .arbitrary → step s = .next
      { s with
        status := ⟨st, true⟩, data := (if op = .opRxAck ∨ op = .opRxNak then ⟨d, true⟩ else s.data),
        ctrl := { s.ctrl with tc := true }, inflight := none, moves := ms, tick := s.tick + 1 }) ∧
    (∀ st' d' dev', s.env = .reference → s.phase ≠ .undefined →
      deviceAnswer s.cfg.device s.phase op st d (Config.freeByte (s.tick + 1) .ptr) s.dev = .ok (st', d', dev') →
      step s = .next
        { s with
          status := ⟨st', true⟩, data := (if op = .opRxAck ∨ op = .opRxNak then ⟨d', true⟩ else s.data),
          ctrl := { s.ctrl with tc := true }, inflight := none, dev := dev', moves := ms, tick := s.tick + 1 })

/-- R62, R60, R81: the environment's answer to a STOP, at its spin, is `StopSent(st)`, `TC` unchanged; the status is a
draw even with the reference device, which stores a pending value. -/
def Obligations.AnswerReportsTheStopSent : Prop :=
  ∀ (s : State) (st d : Byte) (ms : List EnvMove), s.powerCycles = [] → s.inflight = some .opStop →
    atSpin s = true → s.moves = .answer st d :: ms →
    (s.env = .arbitrary → step s = .next
      { s with
        ctrl := { s.ctrl with sto := false }, inflight := none, status := ⟨st, true⟩, moves := ms,
        tick := s.tick + 1 }) ∧
    (s.env = .reference → s.phase ≠ .undefined → ∃ dev', step s = .next
      { s with
        ctrl := { s.ctrl with sto := false }, inflight := none, status := ⟨st, true⟩, dev := dev', moves := ms,
        tick := s.tick + 1 } ∧ dev'.sel = .none ∧ dev'.ptr = s.dev.ptr ∧
      (∀ v, s.dev.sel = .wPending v → dev'.mem = s.dev.mem.write s.dev.ptr.toNat v ∧ dev'.busy = true) ∧
      ((∀ v, s.dev.sel ≠ .wPending v) → dev'.mem = s.dev.mem ∧ dev'.busy = s.dev.busy))

/-- R82, R132 as log entry 9 reads them (DEDUCED): to an operation out of contract every environment answers with any
status and any data, and is unconstrained from then on. -/
def Obligations.OutOfContractAnswersAreFree : Prop :=
  ∀ (s : State) (op : BusOp) (st d : Byte) (ms : List EnvMove), s.powerCycles = [] → s.phase = .undefined →
    s.inflight = some op → atSpin s = true → s.moves = .answer st d :: ms →
    ∃ t, step s = .next t ∧ t.status = ⟨st, true⟩ ∧ t.inflight = none ∧ t.env = .arbitrary ∧ t.dev = s.dev ∧
      t.data = (if op = .opRxAck ∨ op = .opRxNak then ⟨d, true⟩ else s.data) ∧
      t.ctrl = (if op = .opStop then { s.ctrl with sto := false } else { s.ctrl with tc := true }) ∧
      t.txn = s.txn ∧ t.eng = s.eng ∧ t.phase = .undefined ∧ t.faults = s.faults ∧ t.trace = s.trace ∧
      t.regLog = s.regLog

/-- R63, R172: while the environment takes no step, a spin goes on for any number of steps, and only time passes. -/
def Obligations.SpinHangsWithoutAnAnswer : Prop :=
  ∀ (n : Nat) (s : State) (ms : List EnvMove), MachineInv s → s.powerCycles = [] → s.inflight ≠ none →
    s.moves = List.replicate n EnvMove.quiet ++ ms →
    runs n s = .next { s with moves := ms, tick := s.tick + n }

/-- R64, R77 to R82: the reference device's answer to every operation that is triggered in contract is legal, but for a
data byte to a device that is addressed for read, which R79 gives no answer (log entry 26); it refuses only a third data
byte (R79). -/
def Obligations.ReferenceDeviceConforms : Prop :=
  ∀ (a : Addr7) (p : Prim) (dir : Dir) (ph ph' : Phase) (op : BusOp) (st d x : Byte) (dev : Device),
    opFits p op = true → phaseTable p dir ph = some ph' →
    (∀ r, deviceAnswer a ph op st d x dev = .error r →
      (∃ b v, op = .opData b ∧ dev.sel = .wPending v) ∧ r = .pageWrite) ∧
    (∀ st' d' dev', deviceAnswer a ph op st d x dev = .ok (st', d', dev') →
      (∀ b, op = .opData b → dev.sel ≠ .reading) → legalStatus op ph st' = true)

/-- R151, R79, R81: against the reference device, not busy, `EE_WRITE` stores its value at its offset, leaves every other
byte of the device alone, and leaves the write cycle running where the device does not end it before the block sees its
STOP sent; each operation is answered after any number of spin iterations. -/
def Obligations.EeWriteStoresInTheDevice : Prop :=
  ∀ (o v : Byte) (s : State) (rest : List CmdWord) (rs : List Reply) (ms : List EnvMove),
    Offers s (.eeWrite o v) rest → s.inited = true → (s.phase = .idle ∨ s.phase = .dataWrite) →
    s.env = .reference → s.dev.busy = false → Memory.wf s.dev.mem = true →
    rs.length = 5 → s.moves = answers rs ++ (EnvMove.quiet :: ms) →
    ∃ n t, runs n s = .next t ∧ Returned t rest ∧ t.phase = .idle ∧ t.faults = s.faults ∧ t.moves = ms ∧
      t.trace = s.trace ++ writeEvents s.cfg o v ∧
      t.dev.busy = true ∧ t.dev.mem.read o.toNat = v ∧
      (∀ a, a ≠ o.toNat → t.dev.mem.read a = s.dev.mem.read a) ∧ t.returns = s.returns ++ [.nothing]

/-- R212: against the reference device while it is busy, `EE_WRITE` stores nothing, and returns exactly as if it had
succeeded; each operation is answered after any number of spin iterations. -/
def Obligations.EeWriteToABusyDeviceIsLost : Prop :=
  ∀ (o v : Byte) (s : State) (rest : List CmdWord) (rs : List Reply) (ms : List EnvMove),
    Offers s (.eeWrite o v) rest → s.inited = true → (s.phase = .idle ∨ s.phase = .dataWrite) →
    s.env = .reference → s.dev.busy = true → rs.length = 5 → s.moves = answersWhileBusy rs ++ ms →
    ∃ n t, runs n s = .next t ∧ Returned t rest ∧ t.phase = .idle ∧ t.faults = s.faults ∧ t.moves = ms ∧
      t.trace = s.trace ++ writeEvents s.cfg o v ∧
      t.dev.busy = true ∧ t.dev.mem = s.dev.mem ∧ t.returns = s.returns ++ [.nothing]

/-- R212, R80, program P3 of 95_test_vectors.md: against the reference device while it is busy, `EE_READ` runs to its end
all the same and returns the byte that the environment drew for the receive, the sixth operation; the device stores
nothing. -/
def Obligations.EeReadFromABusyDeviceIsADraw : Prop :=
  ∀ (o : Byte) (s : State) (rest : List CmdWord) (rs : List Reply) (d : Byte) (ms : List EnvMove),
    Offers s (.eeRead o) rest → s.inited = true → (s.phase = .idle ∨ s.phase = .dataWrite) →
    s.env = .reference → s.dev.busy = true → rs.length = 7 → rs[5]?.map Reply.d = some d →
    s.moves = answersWhileBusy rs ++ ms →
    ∃ n t, runs n s = .next t ∧ Returned t rest ∧ t.phase = .idle ∧ t.faults = s.faults ∧ t.moves = ms ∧
      t.trace = s.trace ++ readEvents s.cfg o ∧
      t.dev.busy = true ∧ t.dev.mem = s.dev.mem ∧ t.returns = s.returns ++ [.byte d]

/-- R152, R79, R80, R82: against the reference device, not busy, `EE_READ` returns the byte at its offset and stores nothing,
whatever moves are listed and whether any are: the reference environment always completes (log entry 27, DEDUCED). -/
def Obligations.EeReadReturnsTheDevicesByte : Prop :=
  ∀ (o : Byte) (s : State) (rest : List CmdWord),
    Offers s (.eeRead o) rest → s.inited = true → (s.phase = .idle ∨ s.phase = .dataWrite) →
    s.env = .reference → s.dev.busy = false →
    ∃ n t, runs n s = .next t ∧ Returned t rest ∧ t.phase = .idle ∧ t.faults = s.faults ∧
      t.trace = s.trace ++ readEvents s.cfg o ∧ t.dev.busy = false ∧
      t.dev.mem = s.dev.mem ∧ t.returns = s.returns ++ [.byte (s.dev.mem.read o.toNat)]

/-- R157, R75: against the reference device, under `DEV_WRITE_CYCLE_ENDS`, `EE_WRITE a, b; EE_WAIT; EE_READ a` returns `b`,
for every `a` and `b`, whatever moves are listed, wherever the write cycle ends, and for every value of the switches of
R154; the device keeps the byte and every other one. The reference environment always completes, so `ENV_LIVE` is no
premise here (R82; log entry 27, DEDUCED); the premise is as log entry 25 (DEDUCED) writes it. -/
def Obligations.RoundTripReturnsTheByte : Prop :=
  ∀ (a b : Byte) (s : State) (rest : List CmdWord),
    Offers s (.eeWrite a b) (encode .eeWait :: encode (.eeRead a) :: rest) → s.inited = true →
    (s.phase = .idle ∨ s.phase = .dataWrite) → s.env = .reference → s.dev.busy = false →
    Memory.wf s.dev.mem = true → s.cfg.pollBound = none → DevWriteCycleEnds s →
    ∃ n t, runs n s = .next t ∧ Returned t rest ∧ t.phase = .idle ∧ t.faults = s.faults ∧ t.dev.busy = false ∧
      t.dev.mem.read a.toNat = b ∧ (∀ c, c ≠ a.toNat → t.dev.mem.read c = s.dev.mem.read c) ∧
      t.returns = s.returns ++ [.nothing, .flag true, .byte b]

/-- R63, R121: under the named premise `ENV_LIVE` (as log entry 25, DEDUCED, writes it) every bus primitive that the host
offers returns, in contract or not, whatever the environment answers and whenever it does. -/
def Obligations.LivePrimitivesReturn : Prop :=
  ∀ (i : Instr) (p : Prim) (dir : Dir) (s : State) (rest : List CmdWord), busPrim i = some (p, dir) →
    Offers s i rest → EnvLive s → ∃ n t, runs n s = .next t ∧ Returned t rest

/-- R63, R172: under `ENV_LIVE`, `EE_WRITE` and `EE_READ` return, in contract or not; under `DEV_WRITE_CYCLE_ENDS` as well,
`EE_WAIT` returns, acknowledged where it has no bound, and from any state of the invariant nothing hangs. The two premises
are as log entry 25 (DEDUCED) writes them. -/
def Obligations.LiveTransactionsReturn : Prop :=
  ∀ (s : State) (rest : List CmdWord), EnvLive s →
    (∀ o v, Offers s (.eeWrite o v) rest →
      ∃ n t, runs n s = .next t ∧ Returned t rest ∧ t.returns = s.returns ++ [.nothing]) ∧
    (∀ o, Offers s (.eeRead o) rest →
      ∃ n t d, runs n s = .next t ∧ Returned t rest ∧ t.returns = s.returns ++ [.byte d]) ∧
    (Offers s .eeWait rest → DevWriteCycleEnds s →
      ∃ n t acked, runs n s = .next t ∧ Returned t rest ∧ t.returns = s.returns ++ [.flag acked] ∧
        (s.cfg.pollBound = none → acked = true)) ∧
    (MachineInv s → DevWriteCycleEnds s → ¬Hangs s)

/-- R82: the reference environment completes every operation in contract (a third data byte to it is a page write, which
it refuses, R79), at once and with free draws where no move is listed (log entry 27, DEDUCED); and against it every run of
a host that is confined to the public interface meets `ENV_CONFORMS` and `ENV_LIVE` (as log entry 25, DEDUCED, writes
them). -/
def Obligations.ReferenceEnvironmentConformsAndIsLive : Prop :=
  (∀ (s : State) (op : BusOp), MachineInv s → s.env = .reference → s.phase ≠ .undefined → s.powerCycles = [] →
    s.inflight = some op →
    ∃ n u, runs n s = .next u ∧
      ((∃ t, Completes u t op) ∨
        (step u = .refused .pageWrite ∧ ∃ b v, op = .opData b ∧ u.dev.sel = .wPending v))) ∧
  (∀ s : State, s.cfg.exposePrimitives = false → MachineInv s → PublicInv s → s.env = .reference → s.txn = .idle →
    s.powerCycles = [] → EnvConforms s ∧ EnvLive s)

/-! ### The register interface -/

/-- R53: in contract, the operation that a trigger starts is determined by its flags and the phase before it, so `TRACE`
can be rebuilt from `REGLOG`. -/
def Obligations.TriggerKindFollowsFromFlagsAndPhase : Prop :=
  ∀ (p : Prim) (dir : Dir) (ph ph' : Phase) (b : Byte) (sta sto ea : Bool), isBusPrim p = true →
    phaseTable p dir ph = some ph' → .trigger sta sto ea ∈ microSteps p →
    kindOf p b = kindOfFlags sta sto ea ph b

/-- R52, R53, R54, R55, R56, R57, R58, R101: each register operation is its byte writes or byte read, in order, and the
accesses that no rule performs and the images that are reserved are refused. -/
def Obligations.RegisterOperationsAreByteAccesses : Prop :=
  (∀ (p : Prim) (v : Byte) (s : State),
    andThen (memWrite p 1 0 s) (memWrite p 0 v) = .next (setClock v s)) ∧
  (∀ (p : Prim) (b : Byte) (s : State), memWrite p 3 b s = writeData b s) ∧
  (∀ (p : Prim) (sta sto ea : Bool) (s : State), (sta && sto) = false →
    memWrite p 2 (triggerImage sta sto ea) s = trigger p sta sto ea s) ∧
  (∀ s : State, ∃ x, memRead 2 s = .ok x ∧ x.getLsbD 7 = readTC s ∧ x.getLsbD 4 = readStopPending s ∧
    x.getLsbD 6 = s.ctrl.ea ∧ x.getLsbD 5 = s.ctrl.sta ∧ x.extractLsb' 0 4 = 0) ∧
  (∀ s : State, s.inflight = none → memRead 3 s = .ok (dataValue s)) ∧
  (∀ s : State, memRead 4 s = .ok (readStatus s)) ∧
  (∀ (p : Prim) (v : Byte) (s : State),
    v.getLsbD 7 = false ∨ (v.getLsbD 5 = true ∧ v.getLsbD 4 = true) ∨ v.extractLsb' 0 4 ≠ 0 →
    memWrite p 2 v s = .refused (.reservedAccess 2)) ∧
  (∀ (p : Prim) (v : Byte) (s : State), v ≠ 0 → memWrite p 1 v s = .refused (.reservedAccess 1)) ∧
  (∀ (p : Prim) (v : Byte) (s : State), memWrite p 4 v s = .refused (.reservedAccess 4)) ∧
  (∀ (off : Nat) (s : State), off < 2 ∨ 5 ≤ off → memRead off s = .error (.reservedAccess off)) ∧
  (∀ (p : Prim) (off : Nat) (v : Byte) (s : State), 5 ≤ off → memWrite p off v s = .refused (.reservedAccess off))

/-! ### Configuration -/

/-- R7, R8: a configuration is built exactly when the clock rates are positive and R8 (a) to (d) hold, whatever the functions
`Divisor` and `BusFreq` are, and then holds the divisor and every parameter unchanged. That an undefined divisor and a zero
denominator are ill-formed is log entry 23 (DESIGN CHOICE). -/
def Obligations.OnlyWellFormedConfigurationsAreBuilt : Prop :=
  ∀ (dv : Nat → Nat → Option Nat) (bf : Nat → Nat → Nat → Ratio) (p : Params),
    (Config.build dv bf p ≠ none ↔
      0 < p.fCpu ∧ 0 < p.fScl ∧ p.prescMult = 1 ∧ p.device ≤ 127 ∧ ∃ d, dv p.fCpu p.fScl = some d ∧ d < 256 ∧
        0 < (bf p.fCpu 1 d).den ∧ 0 < p.tol.den ∧
        |((bf p.fCpu 1 d).num : ℚ) / (bf p.fCpu 1 d).den - p.fScl| ≤ (p.tol.num : ℚ) / p.tol.den * p.fScl) ∧
    (∀ c, Config.build dv bf p = some c →
      dv p.fCpu p.fScl = some c.div.toNat ∧ c.device.toNat = p.device ∧ c.fCpu = p.fCpu ∧ c.fScl = p.fScl ∧
      c.regBase = p.regBase ∧ c.exposePrimitives = p.exposePrimitives ∧ c.probeStop = p.probeStop ∧
      c.waitFinalStop = p.waitFinalStop ∧ c.pollBound = p.pollBound)

/-! ### Invariants and whole-machine rules -/

/-- The invariant `MachineInv` holds right after reset, under every configuration (R44, R201). -/
def Obligations.InvHoldsAtReset : Prop :=
  ∀ c : Config, MachineInv (State.resetWith c)

/-- Every step keeps the invariant `MachineInv`: the sequencers stay in their tables (R32, R33), an operation is in flight only
at its own spin (R36, R73), `STO` and `TC` mean what R24 and R25 say, marks and the undefined phase go together (R132),
the clock registers hold what `INIT` wrote (R22), and the device's memory is canonical. -/
def Obligations.InvIsKeptByEveryStep : Prop :=
  ∀ s t : State, MachineInv s → step s = .next t → MachineInv t

/-- R32, R53, R56, R219: in a state that meets the invariant no step faults, and a step is refused only for an illegal
word on the port or a page write to the reference device. -/
def Obligations.InvStatesNeverFault : Prop :=
  ∀ s : State, MachineInv s →
    (∀ f, step s ≠ .fault f) ∧
    (∀ r, step s = .refused r →
      (s.txn = .idle ∧ ∃ w rest, s.port = w :: rest ∧ portDecode s.cfg w = .error r) ∨
      (s.env = .reference ∧ r = .pageWrite))

/-- R156: a host confined to the public interface never breaks the contract: from an initialised state without marks,
with the phase where the walk of R156 has it, every step but a power cycle keeps it so. -/
def Obligations.PublicCommandsKeepTheContract : Prop :=
  ∀ s t : State, s.cfg.exposePrimitives = false → PublicInv s → (∀ rest, s.powerCycles ≠ 0 :: rest) →
    step s = .next t → PublicInv t

/-- R156, R205: after reset, once `INIT` has returned, the condition of R156 holds. -/
def Obligations.InitEstablishesTheContract : Prop :=
  ∀ (c : Config) (rest : List CmdWord), ∃ n t,
    runs n { State.resetWith c with port := encode .init :: rest } = .next t ∧ Returned t rest ∧ PublicInv t ∧
      t.returns = [.nothing] ∧ t.div = ⟨c.div, true⟩ ∧ t.regLog = [.setClock 1 c.div] ∧ t.trace = []

/-- R37, R132: a mark stays, and the phase `Undefined` is absorbing, until a power cycle. That new marks stand at the end
of the list is the model's choice (log entry 16, DESIGN CHOICE): R37's set has no order. -/
def Obligations.MarksAreSticky : Prop :=
  ∀ s t : State, step s = .next t → (∀ rest, s.powerCycles ≠ 0 :: rest) →
    (∃ new, t.faults = s.faults ++ new) ∧ (s.phase = .undefined → t.phase = .undefined)

/-- R39, R72: `TRACE` and `REGLOG` only grow, by at most one entry a step, until a power cycle. The host's return values
(R99, R224) only grow, and that they stay over a power cycle is the model's choice (log entry 10, DESIGN CHOICE). -/
def Obligations.TracesOnlyGrow : Prop :=
  ∀ s t : State, step s = .next t →
    (∃ new, t.returns = s.returns ++ new ∧ new.length ≤ 1) ∧
    ((∀ rest, s.powerCycles ≠ 0 :: rest) →
      (∃ new, t.trace = s.trace ++ new ∧ new.length ≤ 1) ∧ (∃ new, t.regLog = s.regLog ++ new ∧ new.length ≤ 1))

/-- R21: the configuration is no state of the block: no step changes it. -/
def Obligations.ConfigurationNeverChanges : Prop :=
  ∀ s t : State, step s = .next t → t.cfg = s.cfg

/-- R155: with a finite bound at least 1, `PROBES` never passes it while `EE_WAIT` runs. -/
def Obligations.ProbesStayWithinTheBound : Prop :=
  ∀ (s t : State) (n : Nat), s.cfg.pollBound = some n → 1 ≤ n →
    (s.probes ≤ n ∧ ∀ k, s.txn = .run .eeWait k → k ≤ 3 → s.probes < n) → step s = .next t →
    (t.probes ≤ n ∧ ∀ k, t.txn = .run .eeWait k → k ≤ 3 → t.probes < n)

/-! ### Frames -/

/-- R42, the access matrix by command: what each command leaves unchanged in the block, whatever step of it is taken. -/
def Obligations.CommandsLeaveTheRestUnchanged : Prop :=
  ∀ (i : Instr) (s t : State), exec i s = .next t →
    (i ≠ .init → t.presc = s.presc ∧ t.div = s.div ∧ t.inited = s.inited) ∧
    (i = .init ∨ (∃ raw, i = .decode raw) →
      t.ctrl = s.ctrl ∧ t.data = s.data ∧ t.phase = s.phase ∧ t.inflight = s.inflight ∧ t.trace = s.trace ∧
        t.faults = s.faults) ∧
    ((∃ raw, i = .decode raw) → t.regLog = s.regLog) ∧
    ((∀ raw, i ≠ .decode raw) → t.diags = s.diags) ∧
    (i = .start ∨ i = .stop ∨ i = .rxAck ∨ i = .rxNak → t.data = s.data) ∧
    (i ≠ .rxAck ∧ i ≠ .rxNak ∧ (∀ o, i ≠ .eeRead o) → t.res = s.res) ∧
    (i ≠ .eeWait → t.waitAcked = s.waitAcked ∧ t.probes = s.probes) ∧
    (s.txn ≠ .idle → (∀ o v, i ≠ .eeWrite o v) → (∀ o, i ≠ .eeRead o) → i ≠ .eeWait →
      t.opA = s.opA ∧ t.opB = s.opB) ∧
    (t.ctrl.tc = true → s.ctrl.tc = true) ∧
    (i ≠ .rxAck → t.ctrl.ea = true → s.ctrl.ea = true) ∧
    (i ≠ .start → (∀ o v, i ≠ .eeWrite o v) → (∀ o, i ≠ .eeRead o) → i ≠ .eeWait → t.ctrl.sta = true →
      s.ctrl.sta = true) ∧
    (i ≠ .stop → (∀ o v, i ≠ .eeWrite o v) → (∀ o, i ≠ .eeRead o) → i ≠ .eeWait → t.ctrl.sto = true →
      s.ctrl.sto = true) ∧
    t.status = s.status ∧ t.port = s.port ∧ t.env = s.env ∧ t.dev = s.dev ∧ t.moves = s.moves ∧
    t.powerCycles = s.powerCycles ∧ t.tick = s.tick ∧ t.cfg = s.cfg ∧
    (∀ a, t.dev.mem.read a = s.dev.mem.read a)

/-- R81, R83: a byte of the device changes in no step but the completion of a STOP with a value pending, and then only
the byte at the device's pointer, which becomes that value. -/
def Obligations.OnlyAStopStoresInTheDevice : Prop :=
  ∀ (s t : State) (a : Nat), Memory.wf s.dev.mem = true → step s = .next t →
    t.dev.mem.read a ≠ s.dev.mem.read a →
    s.env = .reference ∧ s.inflight = some .opStop ∧ a = s.dev.ptr.toNat ∧
      s.dev.sel = .wPending (t.dev.mem.read a)

end
end

