-- ==== Sys2Proof/Laws/Encoding.lean ====
section
/-!
SUPPORT. The fields of a command word (spec 30_encoding.md R91), the operand fields of `TXADDR` (R100) and the address
byte (R95).
-/

namespace Sys2Proof

/-- The bits of three bytes laid side by side. -/
theorem getLsbD_threeBytes (a b c : Byte) (j : Nat) :
    (a ++ b ++ c : BitVec (8 + 8 + 8)).getLsbD j =
      if j < 8 then c.getLsbD j else if j < 16 then b.getLsbD (j - 8) else a.getLsbD (j - 16) := by
  rw [BitVec.getLsbD_append, BitVec.getLsbD_append]
  split
  · rfl
  · simp only [show (j - 8 < 8) ↔ j < 16 by omega, show j - 8 - 8 = j - 16 by omega]

/-- The opcode field of a word laid out of three bytes. -/
theorem opField_append (a b c : Byte) : opField (a ++ b ++ c) = a := by
  apply BitVec.eq_of_getLsbD_eq
  intro j hj
  simp only [opField, BitVec.getLsbD_extractLsb', hj, decide_true, Bool.true_and]
  refine (getLsbD_threeBytes a b c _).trans ?_
  rw [if_neg (by omega), if_neg (by omega)]
  congr 1
  omega

/-- The field `a` of a word laid out of three bytes. -/
theorem aField_append (a b c : Byte) : aField (a ++ b ++ c) = b := by
  apply BitVec.eq_of_getLsbD_eq
  intro j hj
  simp only [aField, BitVec.getLsbD_extractLsb', hj, decide_true, Bool.true_and]
  refine (getLsbD_threeBytes a b c _).trans ?_
  rw [if_neg (by omega), if_pos (by omega)]
  congr 1
  omega

/-- The field `b` of a word laid out of three bytes. -/
theorem bField_append (a b c : Byte) : bField (a ++ b ++ c) = c := by
  apply BitVec.eq_of_getLsbD_eq
  intro j hj
  simp only [bField, BitVec.getLsbD_extractLsb', hj, decide_true, Bool.true_and]
  refine (getLsbD_threeBytes a b c _).trans ?_
  rw [if_pos (by omega)]
  congr 1
  omega

/-- A word is its three fields (R91). -/
theorem fields_append (w : CmdWord) : opField w ++ aField w ++ bField w = w := by
  apply BitVec.eq_of_getLsbD_eq
  intro j hj
  refine (getLsbD_threeBytes (opField w) (aField w) (bField w) j).trans ?_
  simp only [opField, aField, bField, BitVec.getLsbD_extractLsb']
  split
  · simp [*]
  · split
    · simp only [show j - 8 < 8 by omega, decide_true, Bool.true_and]
      congr 1
      omega
    · simp only [show j - 16 < 8 by omega, decide_true, Bool.true_and]
      congr 1
      omega

/-- The opcode field of a command's word. -/
theorem opField_encode (i : Instr) : opField (encode i) = i.opcode := opField_append _ _ _

/-- The field `a` of a command's word. -/
theorem aField_encode (i : Instr) : aField (encode i) = i.byteA := aField_append _ _ _

/-- The field `b` of a command's word. -/
theorem bField_encode (i : Instr) : bField (encode i) = i.byteB := bField_append _ _ _

/-- The identifier operand of `TXADDR` fits `a` with bit 7 zero. -/
theorem addr7_in_byteA : ∀ addr : Addr7,
    (addr.setWidth 8 : Byte).extractLsb' 7 1 = 0 ∧ (addr.setWidth 8 : Byte).extractLsb' 0 7 = addr := by
  decide

/-- A byte with bit 7 zero is the identifier in its bits 6:0. -/
theorem byteA_of_addr7 : ∀ a : Byte, a.extractLsb' 7 1 = 0 → (a.extractLsb' 0 7).setWidth 8 = a := by
  decide

/-- The direction operand of `TXADDR` fits bit 0 of `b`. -/
theorem dir_in_byteB : ∀ dir : Dir,
    (dir.toBit.setWidth 8 : Byte).extractLsb' 1 7 = 0 ∧
      Dir.ofBit ((dir.toBit.setWidth 8 : Byte).extractLsb' 0 1) = dir := by
  intro dir
  cases dir <;> decide

/-- A byte with bits 7:1 zero is the direction in its bit 0. -/
theorem byteB_of_dir : ∀ b : Byte, b.extractLsb' 1 7 = 0 → (Dir.ofBit (b.extractLsb' 0 1)).toBit.setWidth 8 = b := by
  decide

/-- Bit 7 of a byte, as the decoder and as R100 name it. -/
theorem bit7_eq : ∀ a : Byte, a.extractLsb' 7 1 = 0 ↔ a.getLsbD 7 = false := by
  decide

namespace Machine

/-- The operands that acceptance loads for `TXADDR` are the ones the primitive takes back (R126). -/
theorem operands_of_txAddr {s : State} {addr : Addr7} {dir : Dir} (ha : s.opA = .put (addr.setWidth 8))
    (hb : s.opB = .put (dir.toBit.setWidth 8)) : opAddr7 s = addr ∧ opDir s = dir := by
  constructor
  · simpa [opAddr7, opAValue, ha, Latch.get, Latch.put] using (addr7_in_byteA addr).2
  · simpa [opDir, opBValue, hb, Latch.get, Latch.put] using (dir_in_byteB dir).2

end Machine

end Sys2Proof
end

