-- ==== Sys2Proof/Laws/State.lean ====
section
/-!
SUPPORT. One lemma per field per named update of the state, so that no later proof unfolds a record update.
-/

namespace Sys2Proof.Machine

section

variable (s : State)

/-! ### `setClock` (R52) -/

@[simp] theorem setClock_presc (d : Byte) : (setClock d s).presc = 0 := rfl
@[simp] theorem setClock_div (d : Byte) : (setClock d s).div = .put d := rfl
@[simp] theorem setClock_ctrl (d : Byte) : (setClock d s).ctrl = s.ctrl := rfl
@[simp] theorem setClock_data (d : Byte) : (setClock d s).data = s.data := rfl
@[simp] theorem setClock_status (d : Byte) : (setClock d s).status = s.status := rfl
@[simp] theorem setClock_opA (d : Byte) : (setClock d s).opA = s.opA := rfl
@[simp] theorem setClock_opB (d : Byte) : (setClock d s).opB = s.opB := rfl
@[simp] theorem setClock_res (d : Byte) : (setClock d s).res = s.res := rfl
@[simp] theorem setClock_waitAcked (d : Byte) : (setClock d s).waitAcked = s.waitAcked := rfl
@[simp] theorem setClock_txn (d : Byte) : (setClock d s).txn = s.txn := rfl
@[simp] theorem setClock_eng (d : Byte) : (setClock d s).eng = s.eng := rfl
@[simp] theorem setClock_phase (d : Byte) : (setClock d s).phase = s.phase := rfl
@[simp] theorem setClock_inflight (d : Byte) : (setClock d s).inflight = s.inflight := rfl
@[simp] theorem setClock_faults (d : Byte) : (setClock d s).faults = s.faults := rfl
@[simp] theorem setClock_inited (d : Byte) : (setClock d s).inited = s.inited := rfl
@[simp] theorem setClock_probes (d : Byte) : (setClock d s).probes = s.probes := rfl
@[simp] theorem setClock_trace (d : Byte) : (setClock d s).trace = s.trace := rfl
@[simp] theorem setClock_regLog (d : Byte) : (setClock d s).regLog = s.regLog ++ [.setClock 1 d] := rfl
@[simp] theorem setClock_port (d : Byte) : (setClock d s).port = s.port := rfl
@[simp] theorem setClock_returns (d : Byte) : (setClock d s).returns = s.returns := rfl
@[simp] theorem setClock_lostCalls (d : Byte) : (setClock d s).lostCalls = s.lostCalls := rfl
@[simp] theorem setClock_diags (d : Byte) : (setClock d s).diags = s.diags := rfl
@[simp] theorem setClock_env (d : Byte) : (setClock d s).env = s.env := rfl
@[simp] theorem setClock_dev (d : Byte) : (setClock d s).dev = s.dev := rfl
@[simp] theorem setClock_moves (d : Byte) : (setClock d s).moves = s.moves := rfl
@[simp] theorem setClock_powerCycles (d : Byte) : (setClock d s).powerCycles = s.powerCycles := rfl
@[simp] theorem setClock_tick (d : Byte) : (setClock d s).tick = s.tick := rfl
@[simp] theorem setClock_cfg (d : Byte) : (setClock d s).cfg = s.cfg := rfl

/-! ### `triggered` (R53) -/

@[simp] theorem triggered_presc (op : BusOp) (sta sto ea : Bool) : (triggered op sta sto ea s).presc = s.presc := rfl
@[simp] theorem triggered_div (op : BusOp) (sta sto ea : Bool) : (triggered op sta sto ea s).div = s.div := rfl
@[simp] theorem triggered_ctrl (op : BusOp) (sta sto ea : Bool) :
    (triggered op sta sto ea s).ctrl = triggeredCtrl sta sto ea :=
  rfl
@[simp] theorem triggered_data (op : BusOp) (sta sto ea : Bool) : (triggered op sta sto ea s).data = s.data := rfl
@[simp] theorem triggered_status (op : BusOp) (sta sto ea : Bool) :
    (triggered op sta sto ea s).status = s.status :=
  rfl
@[simp] theorem triggered_opA (op : BusOp) (sta sto ea : Bool) : (triggered op sta sto ea s).opA = s.opA := rfl
@[simp] theorem triggered_opB (op : BusOp) (sta sto ea : Bool) : (triggered op sta sto ea s).opB = s.opB := rfl
@[simp] theorem triggered_res (op : BusOp) (sta sto ea : Bool) : (triggered op sta sto ea s).res = s.res := rfl
@[simp] theorem triggered_waitAcked (op : BusOp) (sta sto ea : Bool) :
    (triggered op sta sto ea s).waitAcked = s.waitAcked :=
  rfl
@[simp] theorem triggered_txn (op : BusOp) (sta sto ea : Bool) : (triggered op sta sto ea s).txn = s.txn := rfl
@[simp] theorem triggered_eng (op : BusOp) (sta sto ea : Bool) : (triggered op sta sto ea s).eng = s.eng := rfl
@[simp] theorem triggered_phase (op : BusOp) (sta sto ea : Bool) : (triggered op sta sto ea s).phase = s.phase := rfl
@[simp] theorem triggered_inflight (op : BusOp) (sta sto ea : Bool) :
    (triggered op sta sto ea s).inflight = some op :=
  rfl
@[simp] theorem triggered_faults (op : BusOp) (sta sto ea : Bool) :
    (triggered op sta sto ea s).faults = s.faults :=
  rfl
@[simp] theorem triggered_inited (op : BusOp) (sta sto ea : Bool) :
    (triggered op sta sto ea s).inited = s.inited :=
  rfl
@[simp] theorem triggered_probes (op : BusOp) (sta sto ea : Bool) :
    (triggered op sta sto ea s).probes = s.probes :=
  rfl
@[simp] theorem triggered_trace (op : BusOp) (sta sto ea : Bool) :
    (triggered op sta sto ea s).trace = s.trace ++ [eventOf op] :=
  rfl
@[simp] theorem triggered_regLog (op : BusOp) (sta sto ea : Bool) :
    (triggered op sta sto ea s).regLog = s.regLog ++ [.trigger sta sto ea] :=
  rfl
@[simp] theorem triggered_port (op : BusOp) (sta sto ea : Bool) : (triggered op sta sto ea s).port = s.port := rfl
@[simp] theorem triggered_returns (op : BusOp) (sta sto ea : Bool) :
    (triggered op sta sto ea s).returns = s.returns :=
  rfl
@[simp] theorem triggered_lostCalls (op : BusOp) (sta sto ea : Bool) :
    (triggered op sta sto ea s).lostCalls = s.lostCalls :=
  rfl
@[simp] theorem triggered_diags (op : BusOp) (sta sto ea : Bool) : (triggered op sta sto ea s).diags = s.diags := rfl
@[simp] theorem triggered_env (op : BusOp) (sta sto ea : Bool) : (triggered op sta sto ea s).env = s.env := rfl
@[simp] theorem triggered_dev (op : BusOp) (sta sto ea : Bool) : (triggered op sta sto ea s).dev = s.dev := rfl
@[simp] theorem triggered_moves (op : BusOp) (sta sto ea : Bool) : (triggered op sta sto ea s).moves = s.moves := rfl
@[simp] theorem triggered_powerCycles (op : BusOp) (sta sto ea : Bool) :
    (triggered op sta sto ea s).powerCycles = s.powerCycles :=
  rfl
@[simp] theorem triggered_tick (op : BusOp) (sta sto ea : Bool) : (triggered op sta sto ea s).tick = s.tick := rfl
@[simp] theorem triggered_cfg (op : BusOp) (sta sto ea : Bool) : (triggered op sta sto ea s).cfg = s.cfg := rfl

/-! ### `dataWritten` (R56) -/

@[simp] theorem dataWritten_presc (b : Byte) : (dataWritten b s).presc = s.presc := rfl
@[simp] theorem dataWritten_div (b : Byte) : (dataWritten b s).div = s.div := rfl
@[simp] theorem dataWritten_ctrl (b : Byte) : (dataWritten b s).ctrl = s.ctrl := rfl
@[simp] theorem dataWritten_data (b : Byte) : (dataWritten b s).data = .put b := rfl
@[simp] theorem dataWritten_status (b : Byte) : (dataWritten b s).status = s.status := rfl
@[simp] theorem dataWritten_opA (b : Byte) : (dataWritten b s).opA = s.opA := rfl
@[simp] theorem dataWritten_opB (b : Byte) : (dataWritten b s).opB = s.opB := rfl
@[simp] theorem dataWritten_res (b : Byte) : (dataWritten b s).res = s.res := rfl
@[simp] theorem dataWritten_waitAcked (b : Byte) : (dataWritten b s).waitAcked = s.waitAcked := rfl
@[simp] theorem dataWritten_txn (b : Byte) : (dataWritten b s).txn = s.txn := rfl
@[simp] theorem dataWritten_eng (b : Byte) : (dataWritten b s).eng = s.eng := rfl
@[simp] theorem dataWritten_phase (b : Byte) : (dataWritten b s).phase = s.phase := rfl
@[simp] theorem dataWritten_inflight (b : Byte) : (dataWritten b s).inflight = s.inflight := rfl
@[simp] theorem dataWritten_faults (b : Byte) : (dataWritten b s).faults = s.faults := rfl
@[simp] theorem dataWritten_inited (b : Byte) : (dataWritten b s).inited = s.inited := rfl
@[simp] theorem dataWritten_probes (b : Byte) : (dataWritten b s).probes = s.probes := rfl
@[simp] theorem dataWritten_trace (b : Byte) : (dataWritten b s).trace = s.trace := rfl
@[simp] theorem dataWritten_regLog (b : Byte) : (dataWritten b s).regLog = s.regLog ++ [.writeData b] := rfl
@[simp] theorem dataWritten_port (b : Byte) : (dataWritten b s).port = s.port := rfl
@[simp] theorem dataWritten_returns (b : Byte) : (dataWritten b s).returns = s.returns := rfl
@[simp] theorem dataWritten_lostCalls (b : Byte) : (dataWritten b s).lostCalls = s.lostCalls := rfl
@[simp] theorem dataWritten_diags (b : Byte) : (dataWritten b s).diags = s.diags := rfl
@[simp] theorem dataWritten_env (b : Byte) : (dataWritten b s).env = s.env := rfl
@[simp] theorem dataWritten_dev (b : Byte) : (dataWritten b s).dev = s.dev := rfl
@[simp] theorem dataWritten_moves (b : Byte) : (dataWritten b s).moves = s.moves := rfl
@[simp] theorem dataWritten_powerCycles (b : Byte) : (dataWritten b s).powerCycles = s.powerCycles := rfl
@[simp] theorem dataWritten_tick (b : Byte) : (dataWritten b s).tick = s.tick := rfl
@[simp] theorem dataWritten_cfg (b : Byte) : (dataWritten b s).cfg = s.cfg := rfl

/-! ### `raiseContract` (R37, R132) -/

@[simp] theorem raiseContract_presc (c : ContractFault) : (raiseContract c s).presc = s.presc := rfl
@[simp] theorem raiseContract_div (c : ContractFault) : (raiseContract c s).div = s.div := rfl
@[simp] theorem raiseContract_ctrl (c : ContractFault) : (raiseContract c s).ctrl = s.ctrl := rfl
@[simp] theorem raiseContract_data (c : ContractFault) : (raiseContract c s).data = s.data := rfl
@[simp] theorem raiseContract_status (c : ContractFault) : (raiseContract c s).status = s.status := rfl
@[simp] theorem raiseContract_opA (c : ContractFault) : (raiseContract c s).opA = s.opA := rfl
@[simp] theorem raiseContract_opB (c : ContractFault) : (raiseContract c s).opB = s.opB := rfl
@[simp] theorem raiseContract_res (c : ContractFault) : (raiseContract c s).res = s.res := rfl
@[simp] theorem raiseContract_waitAcked (c : ContractFault) : (raiseContract c s).waitAcked = s.waitAcked := rfl
@[simp] theorem raiseContract_txn (c : ContractFault) : (raiseContract c s).txn = s.txn := rfl
@[simp] theorem raiseContract_eng (c : ContractFault) : (raiseContract c s).eng = s.eng := rfl
@[simp] theorem raiseContract_phase (c : ContractFault) : (raiseContract c s).phase = .undefined := rfl
@[simp] theorem raiseContract_inflight (c : ContractFault) : (raiseContract c s).inflight = s.inflight := rfl
@[simp] theorem raiseContract_faults (c : ContractFault) :
    (raiseContract c s).faults = if c ∈ s.faults then s.faults else s.faults ++ [c] :=
  rfl
@[simp] theorem raiseContract_inited (c : ContractFault) : (raiseContract c s).inited = s.inited := rfl
@[simp] theorem raiseContract_probes (c : ContractFault) : (raiseContract c s).probes = s.probes := rfl
@[simp] theorem raiseContract_trace (c : ContractFault) : (raiseContract c s).trace = s.trace := rfl
@[simp] theorem raiseContract_regLog (c : ContractFault) : (raiseContract c s).regLog = s.regLog := rfl
@[simp] theorem raiseContract_port (c : ContractFault) : (raiseContract c s).port = s.port := rfl
@[simp] theorem raiseContract_returns (c : ContractFault) : (raiseContract c s).returns = s.returns := rfl
@[simp] theorem raiseContract_lostCalls (c : ContractFault) : (raiseContract c s).lostCalls = s.lostCalls := rfl
@[simp] theorem raiseContract_diags (c : ContractFault) : (raiseContract c s).diags = s.diags := rfl
@[simp] theorem raiseContract_env (c : ContractFault) : (raiseContract c s).env = s.env := rfl
@[simp] theorem raiseContract_dev (c : ContractFault) : (raiseContract c s).dev = s.dev := rfl
@[simp] theorem raiseContract_moves (c : ContractFault) : (raiseContract c s).moves = s.moves := rfl
@[simp] theorem raiseContract_powerCycles (c : ContractFault) : (raiseContract c s).powerCycles = s.powerCycles := rfl
@[simp] theorem raiseContract_tick (c : ContractFault) : (raiseContract c s).tick = s.tick := rfl
@[simp] theorem raiseContract_cfg (c : ContractFault) : (raiseContract c s).cfg = s.cfg := rfl

/-! ### `contractStep` (R132): only the marks and the phase -/

@[simp] theorem contractStep_presc (p : Prim) :
    (contractStep p s).presc = s.presc :=
  by unfold contractStep; split <;> (try split) <;> rfl
@[simp] theorem contractStep_div (p : Prim) :
    (contractStep p s).div = s.div :=
  by unfold contractStep; split <;> (try split) <;> rfl
@[simp] theorem contractStep_ctrl (p : Prim) :
    (contractStep p s).ctrl = s.ctrl :=
  by unfold contractStep; split <;> (try split) <;> rfl
@[simp] theorem contractStep_data (p : Prim) :
    (contractStep p s).data = s.data :=
  by unfold contractStep; split <;> (try split) <;> rfl
@[simp] theorem contractStep_status (p : Prim) :
    (contractStep p s).status = s.status :=
  by unfold contractStep; split <;> (try split) <;> rfl
@[simp] theorem contractStep_opA (p : Prim) :
    (contractStep p s).opA = s.opA :=
  by unfold contractStep; split <;> (try split) <;> rfl
@[simp] theorem contractStep_opB (p : Prim) :
    (contractStep p s).opB = s.opB :=
  by unfold contractStep; split <;> (try split) <;> rfl
@[simp] theorem contractStep_res (p : Prim) :
    (contractStep p s).res = s.res :=
  by unfold contractStep; split <;> (try split) <;> rfl
@[simp] theorem contractStep_waitAcked (p : Prim) :
    (contractStep p s).waitAcked = s.waitAcked :=
  by unfold contractStep; split <;> (try split) <;> rfl
@[simp] theorem contractStep_txn (p : Prim) :
    (contractStep p s).txn = s.txn :=
  by unfold contractStep; split <;> (try split) <;> rfl
@[simp] theorem contractStep_eng (p : Prim) :
    (contractStep p s).eng = s.eng :=
  by unfold contractStep; split <;> (try split) <;> rfl
@[simp] theorem contractStep_inflight (p : Prim) :
    (contractStep p s).inflight = s.inflight :=
  by unfold contractStep; split <;> (try split) <;> rfl
@[simp] theorem contractStep_inited (p : Prim) :
    (contractStep p s).inited = s.inited :=
  by unfold contractStep; split <;> (try split) <;> rfl
@[simp] theorem contractStep_probes (p : Prim) :
    (contractStep p s).probes = s.probes :=
  by unfold contractStep; split <;> (try split) <;> rfl
@[simp] theorem contractStep_trace (p : Prim) :
    (contractStep p s).trace = s.trace :=
  by unfold contractStep; split <;> (try split) <;> rfl
@[simp] theorem contractStep_regLog (p : Prim) :
    (contractStep p s).regLog = s.regLog :=
  by unfold contractStep; split <;> (try split) <;> rfl
@[simp] theorem contractStep_port (p : Prim) :
    (contractStep p s).port = s.port :=
  by unfold contractStep; split <;> (try split) <;> rfl
@[simp] theorem contractStep_returns (p : Prim) :
    (contractStep p s).returns = s.returns :=
  by unfold contractStep; split <;> (try split) <;> rfl
@[simp] theorem contractStep_lostCalls (p : Prim) :
    (contractStep p s).lostCalls = s.lostCalls :=
  by unfold contractStep; split <;> (try split) <;> rfl
@[simp] theorem contractStep_diags (p : Prim) :
    (contractStep p s).diags = s.diags :=
  by unfold contractStep; split <;> (try split) <;> rfl
@[simp] theorem contractStep_env (p : Prim) :
    (contractStep p s).env = s.env :=
  by unfold contractStep; split <;> (try split) <;> rfl
@[simp] theorem contractStep_dev (p : Prim) :
    (contractStep p s).dev = s.dev :=
  by unfold contractStep; split <;> (try split) <;> rfl
@[simp] theorem contractStep_moves (p : Prim) :
    (contractStep p s).moves = s.moves :=
  by unfold contractStep; split <;> (try split) <;> rfl
@[simp] theorem contractStep_powerCycles (p : Prim) :
    (contractStep p s).powerCycles = s.powerCycles :=
  by unfold contractStep; split <;> (try split) <;> rfl
@[simp] theorem contractStep_tick (p : Prim) :
    (contractStep p s).tick = s.tick :=
  by unfold contractStep; split <;> (try split) <;> rfl
@[simp] theorem contractStep_cfg (p : Prim) :
    (contractStep p s).cfg = s.cfg :=
  by unfold contractStep; split <;> (try split) <;> rfl

/-! ### `setPhase` (R131) -/

@[simp] theorem setPhase_presc (q : Option Phase) :
    (setPhase q s).presc = s.presc :=
  by unfold setPhase; split <;> (try split) <;> rfl
@[simp] theorem setPhase_div (q : Option Phase) :
    (setPhase q s).div = s.div :=
  by unfold setPhase; split <;> (try split) <;> rfl
@[simp] theorem setPhase_ctrl (q : Option Phase) :
    (setPhase q s).ctrl = s.ctrl :=
  by unfold setPhase; split <;> (try split) <;> rfl
@[simp] theorem setPhase_data (q : Option Phase) :
    (setPhase q s).data = s.data :=
  by unfold setPhase; split <;> (try split) <;> rfl
@[simp] theorem setPhase_status (q : Option Phase) :
    (setPhase q s).status = s.status :=
  by unfold setPhase; split <;> (try split) <;> rfl
@[simp] theorem setPhase_opA (q : Option Phase) :
    (setPhase q s).opA = s.opA :=
  by unfold setPhase; split <;> (try split) <;> rfl
@[simp] theorem setPhase_opB (q : Option Phase) :
    (setPhase q s).opB = s.opB :=
  by unfold setPhase; split <;> (try split) <;> rfl
@[simp] theorem setPhase_res (q : Option Phase) :
    (setPhase q s).res = s.res :=
  by unfold setPhase; split <;> (try split) <;> rfl
@[simp] theorem setPhase_waitAcked (q : Option Phase) :
    (setPhase q s).waitAcked = s.waitAcked :=
  by unfold setPhase; split <;> (try split) <;> rfl
@[simp] theorem setPhase_txn (q : Option Phase) :
    (setPhase q s).txn = s.txn :=
  by unfold setPhase; split <;> (try split) <;> rfl
@[simp] theorem setPhase_eng (q : Option Phase) :
    (setPhase q s).eng = s.eng :=
  by unfold setPhase; split <;> (try split) <;> rfl
@[simp] theorem setPhase_phase (q : Option Phase) : (setPhase q s).phase = match q with | none => s.phase | some r => if s.phase = .undefined then .undefined else r := by
  unfold setPhase; split <;> (try split) <;> simp_all
@[simp] theorem setPhase_inflight (q : Option Phase) :
    (setPhase q s).inflight = s.inflight :=
  by unfold setPhase; split <;> (try split) <;> rfl
@[simp] theorem setPhase_faults (q : Option Phase) :
    (setPhase q s).faults = s.faults :=
  by unfold setPhase; split <;> (try split) <;> rfl
@[simp] theorem setPhase_inited (q : Option Phase) :
    (setPhase q s).inited = s.inited :=
  by unfold setPhase; split <;> (try split) <;> rfl
@[simp] theorem setPhase_probes (q : Option Phase) :
    (setPhase q s).probes = s.probes :=
  by unfold setPhase; split <;> (try split) <;> rfl
@[simp] theorem setPhase_trace (q : Option Phase) :
    (setPhase q s).trace = s.trace :=
  by unfold setPhase; split <;> (try split) <;> rfl
@[simp] theorem setPhase_regLog (q : Option Phase) :
    (setPhase q s).regLog = s.regLog :=
  by unfold setPhase; split <;> (try split) <;> rfl
@[simp] theorem setPhase_port (q : Option Phase) :
    (setPhase q s).port = s.port :=
  by unfold setPhase; split <;> (try split) <;> rfl
@[simp] theorem setPhase_returns (q : Option Phase) :
    (setPhase q s).returns = s.returns :=
  by unfold setPhase; split <;> (try split) <;> rfl
@[simp] theorem setPhase_lostCalls (q : Option Phase) :
    (setPhase q s).lostCalls = s.lostCalls :=
  by unfold setPhase; split <;> (try split) <;> rfl
@[simp] theorem setPhase_diags (q : Option Phase) :
    (setPhase q s).diags = s.diags :=
  by unfold setPhase; split <;> (try split) <;> rfl
@[simp] theorem setPhase_env (q : Option Phase) :
    (setPhase q s).env = s.env :=
  by unfold setPhase; split <;> (try split) <;> rfl
@[simp] theorem setPhase_dev (q : Option Phase) :
    (setPhase q s).dev = s.dev :=
  by unfold setPhase; split <;> (try split) <;> rfl
@[simp] theorem setPhase_moves (q : Option Phase) :
    (setPhase q s).moves = s.moves :=
  by unfold setPhase; split <;> (try split) <;> rfl
@[simp] theorem setPhase_powerCycles (q : Option Phase) :
    (setPhase q s).powerCycles = s.powerCycles :=
  by unfold setPhase; split <;> (try split) <;> rfl
@[simp] theorem setPhase_tick (q : Option Phase) :
    (setPhase q s).tick = s.tick :=
  by unfold setPhase; split <;> (try split) <;> rfl
@[simp] theorem setPhase_cfg (q : Option Phase) :
    (setPhase q s).cfg = s.cfg :=
  by unfold setPhase; split <;> (try split) <;> rfl

/-! ### `accept` (R91) -/

@[simp] theorem accept_presc (i : Instr) : (accept i s).presc = s.presc := rfl
@[simp] theorem accept_div (i : Instr) : (accept i s).div = s.div := rfl
@[simp] theorem accept_ctrl (i : Instr) : (accept i s).ctrl = s.ctrl := rfl
@[simp] theorem accept_data (i : Instr) : (accept i s).data = s.data := rfl
@[simp] theorem accept_status (i : Instr) : (accept i s).status = s.status := rfl
@[simp] theorem accept_opA (i : Instr) : (accept i s).opA = .put i.byteA := rfl
@[simp] theorem accept_opB (i : Instr) : (accept i s).opB = .put i.byteB := rfl
@[simp] theorem accept_res (i : Instr) : (accept i s).res = s.res := rfl
@[simp] theorem accept_waitAcked (i : Instr) : (accept i s).waitAcked = s.waitAcked := rfl
@[simp] theorem accept_txn (i : Instr) : (accept i s).txn = .run i 0 := rfl
@[simp] theorem accept_eng (i : Instr) : (accept i s).eng = s.eng := rfl
@[simp] theorem accept_phase (i : Instr) : (accept i s).phase = s.phase := rfl
@[simp] theorem accept_inflight (i : Instr) : (accept i s).inflight = s.inflight := rfl
@[simp] theorem accept_faults (i : Instr) : (accept i s).faults = s.faults := rfl
@[simp] theorem accept_inited (i : Instr) : (accept i s).inited = s.inited := rfl
@[simp] theorem accept_probes (i : Instr) : (accept i s).probes = s.probes := rfl
@[simp] theorem accept_trace (i : Instr) : (accept i s).trace = s.trace := rfl
@[simp] theorem accept_regLog (i : Instr) : (accept i s).regLog = s.regLog := rfl
@[simp] theorem accept_port (i : Instr) : (accept i s).port = s.port := rfl
@[simp] theorem accept_returns (i : Instr) : (accept i s).returns = s.returns := rfl
@[simp] theorem accept_lostCalls (i : Instr) : (accept i s).lostCalls = s.lostCalls := rfl
@[simp] theorem accept_diags (i : Instr) : (accept i s).diags = s.diags := rfl
@[simp] theorem accept_env (i : Instr) : (accept i s).env = s.env := rfl
@[simp] theorem accept_dev (i : Instr) : (accept i s).dev = s.dev := rfl
@[simp] theorem accept_moves (i : Instr) : (accept i s).moves = s.moves := rfl
@[simp] theorem accept_powerCycles (i : Instr) : (accept i s).powerCycles = s.powerCycles := rfl
@[simp] theorem accept_tick (i : Instr) : (accept i s).tick = s.tick := rfl
@[simp] theorem accept_cfg (i : Instr) : (accept i s).cfg = s.cfg := rfl

/-! ### `commandReturn` (R90) -/

@[simp] theorem commandReturn_presc (i : Instr) : (commandReturn i s).presc = s.presc := rfl
@[simp] theorem commandReturn_div (i : Instr) : (commandReturn i s).div = s.div := rfl
@[simp] theorem commandReturn_ctrl (i : Instr) : (commandReturn i s).ctrl = s.ctrl := rfl
@[simp] theorem commandReturn_data (i : Instr) : (commandReturn i s).data = s.data := rfl
@[simp] theorem commandReturn_status (i : Instr) : (commandReturn i s).status = s.status := rfl
@[simp] theorem commandReturn_opA (i : Instr) : (commandReturn i s).opA = s.opA := rfl
@[simp] theorem commandReturn_opB (i : Instr) : (commandReturn i s).opB = s.opB := rfl
@[simp] theorem commandReturn_res (i : Instr) : (commandReturn i s).res = s.res := rfl
@[simp] theorem commandReturn_waitAcked (i : Instr) : (commandReturn i s).waitAcked = s.waitAcked := rfl
@[simp] theorem commandReturn_txn (i : Instr) : (commandReturn i s).txn = .idle := rfl
@[simp] theorem commandReturn_eng (i : Instr) : (commandReturn i s).eng = .idle := rfl
@[simp] theorem commandReturn_phase (i : Instr) : (commandReturn i s).phase = s.phase := rfl
@[simp] theorem commandReturn_inflight (i : Instr) : (commandReturn i s).inflight = s.inflight := rfl
@[simp] theorem commandReturn_faults (i : Instr) : (commandReturn i s).faults = s.faults := rfl
@[simp] theorem commandReturn_inited (i : Instr) : (commandReturn i s).inited = s.inited := rfl
@[simp] theorem commandReturn_probes (i : Instr) : (commandReturn i s).probes = s.probes := rfl
@[simp] theorem commandReturn_trace (i : Instr) : (commandReturn i s).trace = s.trace := rfl
@[simp] theorem commandReturn_regLog (i : Instr) : (commandReturn i s).regLog = s.regLog := rfl
@[simp] theorem commandReturn_port (i : Instr) : (commandReturn i s).port = s.port := rfl
@[simp] theorem commandReturn_returns (i : Instr) :
    (commandReturn i s).returns = s.returns ++ [returnValue i s] :=
  rfl
@[simp] theorem commandReturn_lostCalls (i : Instr) : (commandReturn i s).lostCalls = s.lostCalls := rfl
@[simp] theorem commandReturn_diags (i : Instr) : (commandReturn i s).diags = s.diags := rfl
@[simp] theorem commandReturn_env (i : Instr) : (commandReturn i s).env = s.env := rfl
@[simp] theorem commandReturn_dev (i : Instr) : (commandReturn i s).dev = s.dev := rfl
@[simp] theorem commandReturn_moves (i : Instr) : (commandReturn i s).moves = s.moves := rfl
@[simp] theorem commandReturn_powerCycles (i : Instr) : (commandReturn i s).powerCycles = s.powerCycles := rfl
@[simp] theorem commandReturn_tick (i : Instr) : (commandReturn i s).tick = s.tick := rfl
@[simp] theorem commandReturn_cfg (i : Instr) : (commandReturn i s).cfg = s.cfg := rfl

/-! ### `complete` (R61) -/

@[simp] theorem complete_presc (op : BusOp) (st d : Byte) : (complete op st d s).presc = s.presc := rfl
@[simp] theorem complete_div (op : BusOp) (st d : Byte) : (complete op st d s).div = s.div := rfl
@[simp] theorem complete_ctrl (op : BusOp) (st d : Byte) :
    (complete op st d s).ctrl = { s.ctrl with tc := true } :=
  rfl
@[simp] theorem complete_data (op : BusOp) (st d : Byte) :
    (complete op st d s).data = if isReceive op then .put d else s.data :=
  rfl
@[simp] theorem complete_status (op : BusOp) (st d : Byte) : (complete op st d s).status = .put st := rfl
@[simp] theorem complete_opA (op : BusOp) (st d : Byte) : (complete op st d s).opA = s.opA := rfl
@[simp] theorem complete_opB (op : BusOp) (st d : Byte) : (complete op st d s).opB = s.opB := rfl
@[simp] theorem complete_res (op : BusOp) (st d : Byte) : (complete op st d s).res = s.res := rfl
@[simp] theorem complete_waitAcked (op : BusOp) (st d : Byte) : (complete op st d s).waitAcked = s.waitAcked := rfl
@[simp] theorem complete_txn (op : BusOp) (st d : Byte) : (complete op st d s).txn = s.txn := rfl
@[simp] theorem complete_eng (op : BusOp) (st d : Byte) : (complete op st d s).eng = s.eng := rfl
@[simp] theorem complete_phase (op : BusOp) (st d : Byte) : (complete op st d s).phase = s.phase := rfl
@[simp] theorem complete_inflight (op : BusOp) (st d : Byte) : (complete op st d s).inflight = none := rfl
@[simp] theorem complete_faults (op : BusOp) (st d : Byte) : (complete op st d s).faults = s.faults := rfl
@[simp] theorem complete_inited (op : BusOp) (st d : Byte) : (complete op st d s).inited = s.inited := rfl
@[simp] theorem complete_probes (op : BusOp) (st d : Byte) : (complete op st d s).probes = s.probes := rfl
@[simp] theorem complete_trace (op : BusOp) (st d : Byte) : (complete op st d s).trace = s.trace := rfl
@[simp] theorem complete_regLog (op : BusOp) (st d : Byte) : (complete op st d s).regLog = s.regLog := rfl
@[simp] theorem complete_port (op : BusOp) (st d : Byte) : (complete op st d s).port = s.port := rfl
@[simp] theorem complete_returns (op : BusOp) (st d : Byte) : (complete op st d s).returns = s.returns := rfl
@[simp] theorem complete_lostCalls (op : BusOp) (st d : Byte) : (complete op st d s).lostCalls = s.lostCalls := rfl
@[simp] theorem complete_diags (op : BusOp) (st d : Byte) : (complete op st d s).diags = s.diags := rfl
@[simp] theorem complete_env (op : BusOp) (st d : Byte) : (complete op st d s).env = s.env := rfl
@[simp] theorem complete_dev (op : BusOp) (st d : Byte) : (complete op st d s).dev = s.dev := rfl
@[simp] theorem complete_moves (op : BusOp) (st d : Byte) : (complete op st d s).moves = s.moves := rfl
@[simp] theorem complete_powerCycles (op : BusOp) (st d : Byte) :
    (complete op st d s).powerCycles = s.powerCycles :=
  rfl
@[simp] theorem complete_tick (op : BusOp) (st d : Byte) : (complete op st d s).tick = s.tick := rfl
@[simp] theorem complete_cfg (op : BusOp) (st d : Byte) : (complete op st d s).cfg = s.cfg := rfl

/-! ### `stopSent` (R62) -/

@[simp] theorem stopSent_presc (st : Byte) : (stopSent st s).presc = s.presc := rfl
@[simp] theorem stopSent_div (st : Byte) : (stopSent st s).div = s.div := rfl
@[simp] theorem stopSent_ctrl (st : Byte) : (stopSent st s).ctrl = { s.ctrl with sto := false } := rfl
@[simp] theorem stopSent_data (st : Byte) : (stopSent st s).data = s.data := rfl
@[simp] theorem stopSent_status (st : Byte) : (stopSent st s).status = .put st := rfl
@[simp] theorem stopSent_opA (st : Byte) : (stopSent st s).opA = s.opA := rfl
@[simp] theorem stopSent_opB (st : Byte) : (stopSent st s).opB = s.opB := rfl
@[simp] theorem stopSent_res (st : Byte) : (stopSent st s).res = s.res := rfl
@[simp] theorem stopSent_waitAcked (st : Byte) : (stopSent st s).waitAcked = s.waitAcked := rfl
@[simp] theorem stopSent_txn (st : Byte) : (stopSent st s).txn = s.txn := rfl
@[simp] theorem stopSent_eng (st : Byte) : (stopSent st s).eng = s.eng := rfl
@[simp] theorem stopSent_phase (st : Byte) : (stopSent st s).phase = s.phase := rfl
@[simp] theorem stopSent_inflight (st : Byte) : (stopSent st s).inflight = none := rfl
@[simp] theorem stopSent_faults (st : Byte) : (stopSent st s).faults = s.faults := rfl
@[simp] theorem stopSent_inited (st : Byte) : (stopSent st s).inited = s.inited := rfl
@[simp] theorem stopSent_probes (st : Byte) : (stopSent st s).probes = s.probes := rfl
@[simp] theorem stopSent_trace (st : Byte) : (stopSent st s).trace = s.trace := rfl
@[simp] theorem stopSent_regLog (st : Byte) : (stopSent st s).regLog = s.regLog := rfl
@[simp] theorem stopSent_port (st : Byte) : (stopSent st s).port = s.port := rfl
@[simp] theorem stopSent_returns (st : Byte) : (stopSent st s).returns = s.returns := rfl
@[simp] theorem stopSent_lostCalls (st : Byte) : (stopSent st s).lostCalls = s.lostCalls := rfl
@[simp] theorem stopSent_diags (st : Byte) : (stopSent st s).diags = s.diags := rfl
@[simp] theorem stopSent_env (st : Byte) : (stopSent st s).env = s.env := rfl
@[simp] theorem stopSent_dev (st : Byte) : (stopSent st s).dev = s.dev := rfl
@[simp] theorem stopSent_moves (st : Byte) : (stopSent st s).moves = s.moves := rfl
@[simp] theorem stopSent_powerCycles (st : Byte) : (stopSent st s).powerCycles = s.powerCycles := rfl
@[simp] theorem stopSent_tick (st : Byte) : (stopSent st s).tick = s.tick := rfl
@[simp] theorem stopSent_cfg (st : Byte) : (stopSent st s).cfg = s.cfg := rfl

/-! ### `finishOp` (R61, R62) -/

@[simp] theorem finishOp_presc (op : BusOp) (st d : Byte) :
    (finishOp op st d s).presc = s.presc :=
  by cases op <;> rfl
@[simp] theorem finishOp_div (op : BusOp) (st d : Byte) : (finishOp op st d s).div = s.div := by cases op <;> rfl
@[simp] theorem finishOp_ctrl (op : BusOp) (st d : Byte) :
    (finishOp op st d s).ctrl = if op = .opStop then { s.ctrl with sto := false } else { s.ctrl with tc := true } :=
  by cases op <;> rfl
@[simp] theorem finishOp_data (op : BusOp) (st d : Byte) :
    (finishOp op st d s).data = if isReceive op then .put d else s.data :=
  by cases op <;> rfl
@[simp] theorem finishOp_status (op : BusOp) (st d : Byte) :
    (finishOp op st d s).status = .put st :=
  by cases op <;> rfl
@[simp] theorem finishOp_opA (op : BusOp) (st d : Byte) : (finishOp op st d s).opA = s.opA := by cases op <;> rfl
@[simp] theorem finishOp_opB (op : BusOp) (st d : Byte) : (finishOp op st d s).opB = s.opB := by cases op <;> rfl
@[simp] theorem finishOp_res (op : BusOp) (st d : Byte) : (finishOp op st d s).res = s.res := by cases op <;> rfl
@[simp] theorem finishOp_waitAcked (op : BusOp) (st d : Byte) :
    (finishOp op st d s).waitAcked = s.waitAcked :=
  by cases op <;> rfl
@[simp] theorem finishOp_txn (op : BusOp) (st d : Byte) : (finishOp op st d s).txn = s.txn := by cases op <;> rfl
@[simp] theorem finishOp_eng (op : BusOp) (st d : Byte) : (finishOp op st d s).eng = s.eng := by cases op <;> rfl
@[simp] theorem finishOp_phase (op : BusOp) (st d : Byte) :
    (finishOp op st d s).phase = s.phase :=
  by cases op <;> rfl
@[simp] theorem finishOp_inflight (op : BusOp) (st d : Byte) :
    (finishOp op st d s).inflight = none :=
  by cases op <;> rfl
@[simp] theorem finishOp_faults (op : BusOp) (st d : Byte) :
    (finishOp op st d s).faults = s.faults :=
  by cases op <;> rfl
@[simp] theorem finishOp_inited (op : BusOp) (st d : Byte) :
    (finishOp op st d s).inited = s.inited :=
  by cases op <;> rfl
@[simp] theorem finishOp_probes (op : BusOp) (st d : Byte) :
    (finishOp op st d s).probes = s.probes :=
  by cases op <;> rfl
@[simp] theorem finishOp_trace (op : BusOp) (st d : Byte) :
    (finishOp op st d s).trace = s.trace :=
  by cases op <;> rfl
@[simp] theorem finishOp_regLog (op : BusOp) (st d : Byte) :
    (finishOp op st d s).regLog = s.regLog :=
  by cases op <;> rfl
@[simp] theorem finishOp_port (op : BusOp) (st d : Byte) : (finishOp op st d s).port = s.port := by cases op <;> rfl
@[simp] theorem finishOp_returns (op : BusOp) (st d : Byte) :
    (finishOp op st d s).returns = s.returns :=
  by cases op <;> rfl
@[simp] theorem finishOp_lostCalls (op : BusOp) (st d : Byte) :
    (finishOp op st d s).lostCalls = s.lostCalls :=
  by cases op <;> rfl
@[simp] theorem finishOp_diags (op : BusOp) (st d : Byte) :
    (finishOp op st d s).diags = s.diags :=
  by cases op <;> rfl
@[simp] theorem finishOp_env (op : BusOp) (st d : Byte) : (finishOp op st d s).env = s.env := by cases op <;> rfl
@[simp] theorem finishOp_dev (op : BusOp) (st d : Byte) : (finishOp op st d s).dev = s.dev := by cases op <;> rfl
@[simp] theorem finishOp_moves (op : BusOp) (st d : Byte) :
    (finishOp op st d s).moves = s.moves :=
  by cases op <;> rfl
@[simp] theorem finishOp_powerCycles (op : BusOp) (st d : Byte) :
    (finishOp op st d s).powerCycles = s.powerCycles :=
  by cases op <;> rfl
@[simp] theorem finishOp_tick (op : BusOp) (st d : Byte) : (finishOp op st d s).tick = s.tick := by cases op <;> rfl
@[simp] theorem finishOp_cfg (op : BusOp) (st d : Byte) : (finishOp op st d s).cfg = s.cfg := by cases op <;> rfl

/-! ### `setInited` (R38) -/

@[simp] theorem setInited_presc : (setInited s).presc = s.presc := rfl
@[simp] theorem setInited_div : (setInited s).div = s.div := rfl
@[simp] theorem setInited_ctrl : (setInited s).ctrl = s.ctrl := rfl
@[simp] theorem setInited_data : (setInited s).data = s.data := rfl
@[simp] theorem setInited_status : (setInited s).status = s.status := rfl
@[simp] theorem setInited_opA : (setInited s).opA = s.opA := rfl
@[simp] theorem setInited_opB : (setInited s).opB = s.opB := rfl
@[simp] theorem setInited_res : (setInited s).res = s.res := rfl
@[simp] theorem setInited_waitAcked : (setInited s).waitAcked = s.waitAcked := rfl
@[simp] theorem setInited_txn : (setInited s).txn = s.txn := rfl
@[simp] theorem setInited_eng : (setInited s).eng = s.eng := rfl
@[simp] theorem setInited_phase : (setInited s).phase = s.phase := rfl
@[simp] theorem setInited_inflight : (setInited s).inflight = s.inflight := rfl
@[simp] theorem setInited_faults : (setInited s).faults = s.faults := rfl
@[simp] theorem setInited_inited : (setInited s).inited = true := rfl
@[simp] theorem setInited_probes : (setInited s).probes = s.probes := rfl
@[simp] theorem setInited_trace : (setInited s).trace = s.trace := rfl
@[simp] theorem setInited_regLog : (setInited s).regLog = s.regLog := rfl
@[simp] theorem setInited_port : (setInited s).port = s.port := rfl
@[simp] theorem setInited_returns : (setInited s).returns = s.returns := rfl
@[simp] theorem setInited_lostCalls : (setInited s).lostCalls = s.lostCalls := rfl
@[simp] theorem setInited_diags : (setInited s).diags = s.diags := rfl
@[simp] theorem setInited_env : (setInited s).env = s.env := rfl
@[simp] theorem setInited_dev : (setInited s).dev = s.dev := rfl
@[simp] theorem setInited_moves : (setInited s).moves = s.moves := rfl
@[simp] theorem setInited_powerCycles : (setInited s).powerCycles = s.powerCycles := rfl
@[simp] theorem setInited_tick : (setInited s).tick = s.tick := rfl
@[simp] theorem setInited_cfg : (setInited s).cfg = s.cfg := rfl

/-! ### `setRes` (R30) -/

@[simp] theorem setRes_presc (b : Byte) : (setRes b s).presc = s.presc := rfl
@[simp] theorem setRes_div (b : Byte) : (setRes b s).div = s.div := rfl
@[simp] theorem setRes_ctrl (b : Byte) : (setRes b s).ctrl = s.ctrl := rfl
@[simp] theorem setRes_data (b : Byte) : (setRes b s).data = s.data := rfl
@[simp] theorem setRes_status (b : Byte) : (setRes b s).status = s.status := rfl
@[simp] theorem setRes_opA (b : Byte) : (setRes b s).opA = s.opA := rfl
@[simp] theorem setRes_opB (b : Byte) : (setRes b s).opB = s.opB := rfl
@[simp] theorem setRes_res (b : Byte) : (setRes b s).res = .put b := rfl
@[simp] theorem setRes_waitAcked (b : Byte) : (setRes b s).waitAcked = s.waitAcked := rfl
@[simp] theorem setRes_txn (b : Byte) : (setRes b s).txn = s.txn := rfl
@[simp] theorem setRes_eng (b : Byte) : (setRes b s).eng = s.eng := rfl
@[simp] theorem setRes_phase (b : Byte) : (setRes b s).phase = s.phase := rfl
@[simp] theorem setRes_inflight (b : Byte) : (setRes b s).inflight = s.inflight := rfl
@[simp] theorem setRes_faults (b : Byte) : (setRes b s).faults = s.faults := rfl
@[simp] theorem setRes_inited (b : Byte) : (setRes b s).inited = s.inited := rfl
@[simp] theorem setRes_probes (b : Byte) : (setRes b s).probes = s.probes := rfl
@[simp] theorem setRes_trace (b : Byte) : (setRes b s).trace = s.trace := rfl
@[simp] theorem setRes_regLog (b : Byte) : (setRes b s).regLog = s.regLog := rfl
@[simp] theorem setRes_port (b : Byte) : (setRes b s).port = s.port := rfl
@[simp] theorem setRes_returns (b : Byte) : (setRes b s).returns = s.returns := rfl
@[simp] theorem setRes_lostCalls (b : Byte) : (setRes b s).lostCalls = s.lostCalls := rfl
@[simp] theorem setRes_diags (b : Byte) : (setRes b s).diags = s.diags := rfl
@[simp] theorem setRes_env (b : Byte) : (setRes b s).env = s.env := rfl
@[simp] theorem setRes_dev (b : Byte) : (setRes b s).dev = s.dev := rfl
@[simp] theorem setRes_moves (b : Byte) : (setRes b s).moves = s.moves := rfl
@[simp] theorem setRes_powerCycles (b : Byte) : (setRes b s).powerCycles = s.powerCycles := rfl
@[simp] theorem setRes_tick (b : Byte) : (setRes b s).tick = s.tick := rfl
@[simp] theorem setRes_cfg (b : Byte) : (setRes b s).cfg = s.cfg := rfl

/-! ### `emitDiag` (R143) -/

@[simp] theorem emitDiag_presc (o : BusOutcome) : (emitDiag o s).presc = s.presc := rfl
@[simp] theorem emitDiag_div (o : BusOutcome) : (emitDiag o s).div = s.div := rfl
@[simp] theorem emitDiag_ctrl (o : BusOutcome) : (emitDiag o s).ctrl = s.ctrl := rfl
@[simp] theorem emitDiag_data (o : BusOutcome) : (emitDiag o s).data = s.data := rfl
@[simp] theorem emitDiag_status (o : BusOutcome) : (emitDiag o s).status = s.status := rfl
@[simp] theorem emitDiag_opA (o : BusOutcome) : (emitDiag o s).opA = s.opA := rfl
@[simp] theorem emitDiag_opB (o : BusOutcome) : (emitDiag o s).opB = s.opB := rfl
@[simp] theorem emitDiag_res (o : BusOutcome) : (emitDiag o s).res = s.res := rfl
@[simp] theorem emitDiag_waitAcked (o : BusOutcome) : (emitDiag o s).waitAcked = s.waitAcked := rfl
@[simp] theorem emitDiag_txn (o : BusOutcome) : (emitDiag o s).txn = s.txn := rfl
@[simp] theorem emitDiag_eng (o : BusOutcome) : (emitDiag o s).eng = s.eng := rfl
@[simp] theorem emitDiag_phase (o : BusOutcome) : (emitDiag o s).phase = s.phase := rfl
@[simp] theorem emitDiag_inflight (o : BusOutcome) : (emitDiag o s).inflight = s.inflight := rfl
@[simp] theorem emitDiag_faults (o : BusOutcome) : (emitDiag o s).faults = s.faults := rfl
@[simp] theorem emitDiag_inited (o : BusOutcome) : (emitDiag o s).inited = s.inited := rfl
@[simp] theorem emitDiag_probes (o : BusOutcome) : (emitDiag o s).probes = s.probes := rfl
@[simp] theorem emitDiag_trace (o : BusOutcome) : (emitDiag o s).trace = s.trace := rfl
@[simp] theorem emitDiag_regLog (o : BusOutcome) : (emitDiag o s).regLog = s.regLog := rfl
@[simp] theorem emitDiag_port (o : BusOutcome) : (emitDiag o s).port = s.port := rfl
@[simp] theorem emitDiag_returns (o : BusOutcome) : (emitDiag o s).returns = s.returns := rfl
@[simp] theorem emitDiag_lostCalls (o : BusOutcome) : (emitDiag o s).lostCalls = s.lostCalls := rfl
@[simp] theorem emitDiag_diags (o : BusOutcome) : (emitDiag o s).diags = s.diags ++ [o] := rfl
@[simp] theorem emitDiag_env (o : BusOutcome) : (emitDiag o s).env = s.env := rfl
@[simp] theorem emitDiag_dev (o : BusOutcome) : (emitDiag o s).dev = s.dev := rfl
@[simp] theorem emitDiag_moves (o : BusOutcome) : (emitDiag o s).moves = s.moves := rfl
@[simp] theorem emitDiag_powerCycles (o : BusOutcome) : (emitDiag o s).powerCycles = s.powerCycles := rfl
@[simp] theorem emitDiag_tick (o : BusOutcome) : (emitDiag o s).tick = s.tick := rfl
@[simp] theorem emitDiag_cfg (o : BusOutcome) : (emitDiag o s).cfg = s.cfg := rfl

/-! ### `goto` (R32) -/

@[simp] theorem goto_presc (i : Instr) (k : Nat) : (goto i k s).presc = s.presc := rfl
@[simp] theorem goto_div (i : Instr) (k : Nat) : (goto i k s).div = s.div := rfl
@[simp] theorem goto_ctrl (i : Instr) (k : Nat) : (goto i k s).ctrl = s.ctrl := rfl
@[simp] theorem goto_data (i : Instr) (k : Nat) : (goto i k s).data = s.data := rfl
@[simp] theorem goto_status (i : Instr) (k : Nat) : (goto i k s).status = s.status := rfl
@[simp] theorem goto_opA (i : Instr) (k : Nat) : (goto i k s).opA = s.opA := rfl
@[simp] theorem goto_opB (i : Instr) (k : Nat) : (goto i k s).opB = s.opB := rfl
@[simp] theorem goto_res (i : Instr) (k : Nat) : (goto i k s).res = s.res := rfl
@[simp] theorem goto_waitAcked (i : Instr) (k : Nat) : (goto i k s).waitAcked = s.waitAcked := rfl
@[simp] theorem goto_txn (i : Instr) (k : Nat) : (goto i k s).txn = .run i k := rfl
@[simp] theorem goto_eng (i : Instr) (k : Nat) : (goto i k s).eng = s.eng := rfl
@[simp] theorem goto_phase (i : Instr) (k : Nat) : (goto i k s).phase = s.phase := rfl
@[simp] theorem goto_inflight (i : Instr) (k : Nat) : (goto i k s).inflight = s.inflight := rfl
@[simp] theorem goto_faults (i : Instr) (k : Nat) : (goto i k s).faults = s.faults := rfl
@[simp] theorem goto_inited (i : Instr) (k : Nat) : (goto i k s).inited = s.inited := rfl
@[simp] theorem goto_probes (i : Instr) (k : Nat) : (goto i k s).probes = s.probes := rfl
@[simp] theorem goto_trace (i : Instr) (k : Nat) : (goto i k s).trace = s.trace := rfl
@[simp] theorem goto_regLog (i : Instr) (k : Nat) : (goto i k s).regLog = s.regLog := rfl
@[simp] theorem goto_port (i : Instr) (k : Nat) : (goto i k s).port = s.port := rfl
@[simp] theorem goto_returns (i : Instr) (k : Nat) : (goto i k s).returns = s.returns := rfl
@[simp] theorem goto_lostCalls (i : Instr) (k : Nat) : (goto i k s).lostCalls = s.lostCalls := rfl
@[simp] theorem goto_diags (i : Instr) (k : Nat) : (goto i k s).diags = s.diags := rfl
@[simp] theorem goto_env (i : Instr) (k : Nat) : (goto i k s).env = s.env := rfl
@[simp] theorem goto_dev (i : Instr) (k : Nat) : (goto i k s).dev = s.dev := rfl
@[simp] theorem goto_moves (i : Instr) (k : Nat) : (goto i k s).moves = s.moves := rfl
@[simp] theorem goto_powerCycles (i : Instr) (k : Nat) : (goto i k s).powerCycles = s.powerCycles := rfl
@[simp] theorem goto_tick (i : Instr) (k : Nat) : (goto i k s).tick = s.tick := rfl
@[simp] theorem goto_cfg (i : Instr) (k : Nat) : (goto i k s).cfg = s.cfg := rfl

/-! ### `setPort` -/

@[simp] theorem setPort_presc (ws : List CmdWord) : (setPort ws s).presc = s.presc := rfl
@[simp] theorem setPort_div (ws : List CmdWord) : (setPort ws s).div = s.div := rfl
@[simp] theorem setPort_ctrl (ws : List CmdWord) : (setPort ws s).ctrl = s.ctrl := rfl
@[simp] theorem setPort_data (ws : List CmdWord) : (setPort ws s).data = s.data := rfl
@[simp] theorem setPort_status (ws : List CmdWord) : (setPort ws s).status = s.status := rfl
@[simp] theorem setPort_opA (ws : List CmdWord) : (setPort ws s).opA = s.opA := rfl
@[simp] theorem setPort_opB (ws : List CmdWord) : (setPort ws s).opB = s.opB := rfl
@[simp] theorem setPort_res (ws : List CmdWord) : (setPort ws s).res = s.res := rfl
@[simp] theorem setPort_waitAcked (ws : List CmdWord) : (setPort ws s).waitAcked = s.waitAcked := rfl
@[simp] theorem setPort_txn (ws : List CmdWord) : (setPort ws s).txn = s.txn := rfl
@[simp] theorem setPort_eng (ws : List CmdWord) : (setPort ws s).eng = s.eng := rfl
@[simp] theorem setPort_phase (ws : List CmdWord) : (setPort ws s).phase = s.phase := rfl
@[simp] theorem setPort_inflight (ws : List CmdWord) : (setPort ws s).inflight = s.inflight := rfl
@[simp] theorem setPort_faults (ws : List CmdWord) : (setPort ws s).faults = s.faults := rfl
@[simp] theorem setPort_inited (ws : List CmdWord) : (setPort ws s).inited = s.inited := rfl
@[simp] theorem setPort_probes (ws : List CmdWord) : (setPort ws s).probes = s.probes := rfl
@[simp] theorem setPort_trace (ws : List CmdWord) : (setPort ws s).trace = s.trace := rfl
@[simp] theorem setPort_regLog (ws : List CmdWord) : (setPort ws s).regLog = s.regLog := rfl
@[simp] theorem setPort_port (ws : List CmdWord) : (setPort ws s).port = ws := rfl
@[simp] theorem setPort_returns (ws : List CmdWord) : (setPort ws s).returns = s.returns := rfl
@[simp] theorem setPort_lostCalls (ws : List CmdWord) : (setPort ws s).lostCalls = s.lostCalls := rfl
@[simp] theorem setPort_diags (ws : List CmdWord) : (setPort ws s).diags = s.diags := rfl
@[simp] theorem setPort_env (ws : List CmdWord) : (setPort ws s).env = s.env := rfl
@[simp] theorem setPort_dev (ws : List CmdWord) : (setPort ws s).dev = s.dev := rfl
@[simp] theorem setPort_moves (ws : List CmdWord) : (setPort ws s).moves = s.moves := rfl
@[simp] theorem setPort_powerCycles (ws : List CmdWord) : (setPort ws s).powerCycles = s.powerCycles := rfl
@[simp] theorem setPort_tick (ws : List CmdWord) : (setPort ws s).tick = s.tick := rfl
@[simp] theorem setPort_cfg (ws : List CmdWord) : (setPort ws s).cfg = s.cfg := rfl

/-! ### `setPowerCycles` -/

@[simp] theorem setPowerCycles_presc (ns : List Nat) : (setPowerCycles ns s).presc = s.presc := rfl
@[simp] theorem setPowerCycles_div (ns : List Nat) : (setPowerCycles ns s).div = s.div := rfl
@[simp] theorem setPowerCycles_ctrl (ns : List Nat) : (setPowerCycles ns s).ctrl = s.ctrl := rfl
@[simp] theorem setPowerCycles_data (ns : List Nat) : (setPowerCycles ns s).data = s.data := rfl
@[simp] theorem setPowerCycles_status (ns : List Nat) : (setPowerCycles ns s).status = s.status := rfl
@[simp] theorem setPowerCycles_opA (ns : List Nat) : (setPowerCycles ns s).opA = s.opA := rfl
@[simp] theorem setPowerCycles_opB (ns : List Nat) : (setPowerCycles ns s).opB = s.opB := rfl
@[simp] theorem setPowerCycles_res (ns : List Nat) : (setPowerCycles ns s).res = s.res := rfl
@[simp] theorem setPowerCycles_waitAcked (ns : List Nat) : (setPowerCycles ns s).waitAcked = s.waitAcked := rfl
@[simp] theorem setPowerCycles_txn (ns : List Nat) : (setPowerCycles ns s).txn = s.txn := rfl
@[simp] theorem setPowerCycles_eng (ns : List Nat) : (setPowerCycles ns s).eng = s.eng := rfl
@[simp] theorem setPowerCycles_phase (ns : List Nat) : (setPowerCycles ns s).phase = s.phase := rfl
@[simp] theorem setPowerCycles_inflight (ns : List Nat) : (setPowerCycles ns s).inflight = s.inflight := rfl
@[simp] theorem setPowerCycles_faults (ns : List Nat) : (setPowerCycles ns s).faults = s.faults := rfl
@[simp] theorem setPowerCycles_inited (ns : List Nat) : (setPowerCycles ns s).inited = s.inited := rfl
@[simp] theorem setPowerCycles_probes (ns : List Nat) : (setPowerCycles ns s).probes = s.probes := rfl
@[simp] theorem setPowerCycles_trace (ns : List Nat) : (setPowerCycles ns s).trace = s.trace := rfl
@[simp] theorem setPowerCycles_regLog (ns : List Nat) : (setPowerCycles ns s).regLog = s.regLog := rfl
@[simp] theorem setPowerCycles_port (ns : List Nat) : (setPowerCycles ns s).port = s.port := rfl
@[simp] theorem setPowerCycles_returns (ns : List Nat) : (setPowerCycles ns s).returns = s.returns := rfl
@[simp] theorem setPowerCycles_lostCalls (ns : List Nat) : (setPowerCycles ns s).lostCalls = s.lostCalls := rfl
@[simp] theorem setPowerCycles_diags (ns : List Nat) : (setPowerCycles ns s).diags = s.diags := rfl
@[simp] theorem setPowerCycles_env (ns : List Nat) : (setPowerCycles ns s).env = s.env := rfl
@[simp] theorem setPowerCycles_dev (ns : List Nat) : (setPowerCycles ns s).dev = s.dev := rfl
@[simp] theorem setPowerCycles_moves (ns : List Nat) : (setPowerCycles ns s).moves = s.moves := rfl
@[simp] theorem setPowerCycles_powerCycles (ns : List Nat) : (setPowerCycles ns s).powerCycles = ns := rfl
@[simp] theorem setPowerCycles_tick (ns : List Nat) : (setPowerCycles ns s).tick = s.tick := rfl
@[simp] theorem setPowerCycles_cfg (ns : List Nat) : (setPowerCycles ns s).cfg = s.cfg := rfl

/-! ### `setDev` -/

@[simp] theorem setDev_presc (d : Device) : (setDev d s).presc = s.presc := rfl
@[simp] theorem setDev_div (d : Device) : (setDev d s).div = s.div := rfl
@[simp] theorem setDev_ctrl (d : Device) : (setDev d s).ctrl = s.ctrl := rfl
@[simp] theorem setDev_data (d : Device) : (setDev d s).data = s.data := rfl
@[simp] theorem setDev_status (d : Device) : (setDev d s).status = s.status := rfl
@[simp] theorem setDev_opA (d : Device) : (setDev d s).opA = s.opA := rfl
@[simp] theorem setDev_opB (d : Device) : (setDev d s).opB = s.opB := rfl
@[simp] theorem setDev_res (d : Device) : (setDev d s).res = s.res := rfl
@[simp] theorem setDev_waitAcked (d : Device) : (setDev d s).waitAcked = s.waitAcked := rfl
@[simp] theorem setDev_txn (d : Device) : (setDev d s).txn = s.txn := rfl
@[simp] theorem setDev_eng (d : Device) : (setDev d s).eng = s.eng := rfl
@[simp] theorem setDev_phase (d : Device) : (setDev d s).phase = s.phase := rfl
@[simp] theorem setDev_inflight (d : Device) : (setDev d s).inflight = s.inflight := rfl
@[simp] theorem setDev_faults (d : Device) : (setDev d s).faults = s.faults := rfl
@[simp] theorem setDev_inited (d : Device) : (setDev d s).inited = s.inited := rfl
@[simp] theorem setDev_probes (d : Device) : (setDev d s).probes = s.probes := rfl
@[simp] theorem setDev_trace (d : Device) : (setDev d s).trace = s.trace := rfl
@[simp] theorem setDev_regLog (d : Device) : (setDev d s).regLog = s.regLog := rfl
@[simp] theorem setDev_port (d : Device) : (setDev d s).port = s.port := rfl
@[simp] theorem setDev_returns (d : Device) : (setDev d s).returns = s.returns := rfl
@[simp] theorem setDev_lostCalls (d : Device) : (setDev d s).lostCalls = s.lostCalls := rfl
@[simp] theorem setDev_diags (d : Device) : (setDev d s).diags = s.diags := rfl
@[simp] theorem setDev_env (d : Device) : (setDev d s).env = s.env := rfl
@[simp] theorem setDev_dev (d : Device) : (setDev d s).dev = d := rfl
@[simp] theorem setDev_moves (d : Device) : (setDev d s).moves = s.moves := rfl
@[simp] theorem setDev_powerCycles (d : Device) : (setDev d s).powerCycles = s.powerCycles := rfl
@[simp] theorem setDev_tick (d : Device) : (setDev d s).tick = s.tick := rfl
@[simp] theorem setDev_cfg (d : Device) : (setDev d s).cfg = s.cfg := rfl

/-! ### `freeEnv` (R82, R132) -/

@[simp] theorem freeEnv_presc : (freeEnv s).presc = s.presc := rfl
@[simp] theorem freeEnv_div : (freeEnv s).div = s.div := rfl
@[simp] theorem freeEnv_ctrl : (freeEnv s).ctrl = s.ctrl := rfl
@[simp] theorem freeEnv_data : (freeEnv s).data = s.data := rfl
@[simp] theorem freeEnv_status : (freeEnv s).status = s.status := rfl
@[simp] theorem freeEnv_opA : (freeEnv s).opA = s.opA := rfl
@[simp] theorem freeEnv_opB : (freeEnv s).opB = s.opB := rfl
@[simp] theorem freeEnv_res : (freeEnv s).res = s.res := rfl
@[simp] theorem freeEnv_waitAcked : (freeEnv s).waitAcked = s.waitAcked := rfl
@[simp] theorem freeEnv_txn : (freeEnv s).txn = s.txn := rfl
@[simp] theorem freeEnv_eng : (freeEnv s).eng = s.eng := rfl
@[simp] theorem freeEnv_phase : (freeEnv s).phase = s.phase := rfl
@[simp] theorem freeEnv_inflight : (freeEnv s).inflight = s.inflight := rfl
@[simp] theorem freeEnv_faults : (freeEnv s).faults = s.faults := rfl
@[simp] theorem freeEnv_inited : (freeEnv s).inited = s.inited := rfl
@[simp] theorem freeEnv_probes : (freeEnv s).probes = s.probes := rfl
@[simp] theorem freeEnv_trace : (freeEnv s).trace = s.trace := rfl
@[simp] theorem freeEnv_regLog : (freeEnv s).regLog = s.regLog := rfl
@[simp] theorem freeEnv_port : (freeEnv s).port = s.port := rfl
@[simp] theorem freeEnv_returns : (freeEnv s).returns = s.returns := rfl
@[simp] theorem freeEnv_lostCalls : (freeEnv s).lostCalls = s.lostCalls := rfl
@[simp] theorem freeEnv_diags : (freeEnv s).diags = s.diags := rfl
@[simp] theorem freeEnv_env : (freeEnv s).env = .arbitrary := rfl
@[simp] theorem freeEnv_dev : (freeEnv s).dev = s.dev := rfl
@[simp] theorem freeEnv_moves : (freeEnv s).moves = s.moves := rfl
@[simp] theorem freeEnv_powerCycles : (freeEnv s).powerCycles = s.powerCycles := rfl
@[simp] theorem freeEnv_tick : (freeEnv s).tick = s.tick := rfl
@[simp] theorem freeEnv_cfg : (freeEnv s).cfg = s.cfg := rfl

/-! ### `writeCycleDone` (R81) -/

@[simp] theorem writeCycleDone_presc : (writeCycleDone s).presc = s.presc := rfl
@[simp] theorem writeCycleDone_div : (writeCycleDone s).div = s.div := rfl
@[simp] theorem writeCycleDone_ctrl : (writeCycleDone s).ctrl = s.ctrl := rfl
@[simp] theorem writeCycleDone_data : (writeCycleDone s).data = s.data := rfl
@[simp] theorem writeCycleDone_status : (writeCycleDone s).status = s.status := rfl
@[simp] theorem writeCycleDone_opA : (writeCycleDone s).opA = s.opA := rfl
@[simp] theorem writeCycleDone_opB : (writeCycleDone s).opB = s.opB := rfl
@[simp] theorem writeCycleDone_res : (writeCycleDone s).res = s.res := rfl
@[simp] theorem writeCycleDone_waitAcked : (writeCycleDone s).waitAcked = s.waitAcked := rfl
@[simp] theorem writeCycleDone_txn : (writeCycleDone s).txn = s.txn := rfl
@[simp] theorem writeCycleDone_eng : (writeCycleDone s).eng = s.eng := rfl
@[simp] theorem writeCycleDone_phase : (writeCycleDone s).phase = s.phase := rfl
@[simp] theorem writeCycleDone_inflight : (writeCycleDone s).inflight = s.inflight := rfl
@[simp] theorem writeCycleDone_faults : (writeCycleDone s).faults = s.faults := rfl
@[simp] theorem writeCycleDone_inited : (writeCycleDone s).inited = s.inited := rfl
@[simp] theorem writeCycleDone_probes : (writeCycleDone s).probes = s.probes := rfl
@[simp] theorem writeCycleDone_trace : (writeCycleDone s).trace = s.trace := rfl
@[simp] theorem writeCycleDone_regLog : (writeCycleDone s).regLog = s.regLog := rfl
@[simp] theorem writeCycleDone_port : (writeCycleDone s).port = s.port := rfl
@[simp] theorem writeCycleDone_returns : (writeCycleDone s).returns = s.returns := rfl
@[simp] theorem writeCycleDone_lostCalls : (writeCycleDone s).lostCalls = s.lostCalls := rfl
@[simp] theorem writeCycleDone_diags : (writeCycleDone s).diags = s.diags := rfl
@[simp] theorem writeCycleDone_env : (writeCycleDone s).env = s.env := rfl
@[simp] theorem writeCycleDone_dev : (writeCycleDone s).dev = { s.dev with busy := false } := rfl
@[simp] theorem writeCycleDone_moves : (writeCycleDone s).moves = s.moves := rfl
@[simp] theorem writeCycleDone_powerCycles : (writeCycleDone s).powerCycles = s.powerCycles := rfl
@[simp] theorem writeCycleDone_tick : (writeCycleDone s).tick = s.tick := rfl
@[simp] theorem writeCycleDone_cfg : (writeCycleDone s).cfg = s.cfg := rfl

/-! ### `dropMove` -/

@[simp] theorem dropMove_presc : (dropMove s).presc = s.presc := rfl
@[simp] theorem dropMove_div : (dropMove s).div = s.div := rfl
@[simp] theorem dropMove_ctrl : (dropMove s).ctrl = s.ctrl := rfl
@[simp] theorem dropMove_data : (dropMove s).data = s.data := rfl
@[simp] theorem dropMove_status : (dropMove s).status = s.status := rfl
@[simp] theorem dropMove_opA : (dropMove s).opA = s.opA := rfl
@[simp] theorem dropMove_opB : (dropMove s).opB = s.opB := rfl
@[simp] theorem dropMove_res : (dropMove s).res = s.res := rfl
@[simp] theorem dropMove_waitAcked : (dropMove s).waitAcked = s.waitAcked := rfl
@[simp] theorem dropMove_txn : (dropMove s).txn = s.txn := rfl
@[simp] theorem dropMove_eng : (dropMove s).eng = s.eng := rfl
@[simp] theorem dropMove_phase : (dropMove s).phase = s.phase := rfl
@[simp] theorem dropMove_inflight : (dropMove s).inflight = s.inflight := rfl
@[simp] theorem dropMove_faults : (dropMove s).faults = s.faults := rfl
@[simp] theorem dropMove_inited : (dropMove s).inited = s.inited := rfl
@[simp] theorem dropMove_probes : (dropMove s).probes = s.probes := rfl
@[simp] theorem dropMove_trace : (dropMove s).trace = s.trace := rfl
@[simp] theorem dropMove_regLog : (dropMove s).regLog = s.regLog := rfl
@[simp] theorem dropMove_port : (dropMove s).port = s.port := rfl
@[simp] theorem dropMove_returns : (dropMove s).returns = s.returns := rfl
@[simp] theorem dropMove_lostCalls : (dropMove s).lostCalls = s.lostCalls := rfl
@[simp] theorem dropMove_diags : (dropMove s).diags = s.diags := rfl
@[simp] theorem dropMove_env : (dropMove s).env = s.env := rfl
@[simp] theorem dropMove_dev : (dropMove s).dev = s.dev := rfl
@[simp] theorem dropMove_moves : (dropMove s).moves = s.moves.tail := rfl
@[simp] theorem dropMove_powerCycles : (dropMove s).powerCycles = s.powerCycles := rfl
@[simp] theorem dropMove_tick : (dropMove s).tick = s.tick := rfl
@[simp] theorem dropMove_cfg : (dropMove s).cfg = s.cfg := rfl

/-! ### `ticked` -/

@[simp] theorem ticked_presc : (ticked s).presc = s.presc := rfl
@[simp] theorem ticked_div : (ticked s).div = s.div := rfl
@[simp] theorem ticked_ctrl : (ticked s).ctrl = s.ctrl := rfl
@[simp] theorem ticked_data : (ticked s).data = s.data := rfl
@[simp] theorem ticked_status : (ticked s).status = s.status := rfl
@[simp] theorem ticked_opA : (ticked s).opA = s.opA := rfl
@[simp] theorem ticked_opB : (ticked s).opB = s.opB := rfl
@[simp] theorem ticked_res : (ticked s).res = s.res := rfl
@[simp] theorem ticked_waitAcked : (ticked s).waitAcked = s.waitAcked := rfl
@[simp] theorem ticked_txn : (ticked s).txn = s.txn := rfl
@[simp] theorem ticked_eng : (ticked s).eng = s.eng := rfl
@[simp] theorem ticked_phase : (ticked s).phase = s.phase := rfl
@[simp] theorem ticked_inflight : (ticked s).inflight = s.inflight := rfl
@[simp] theorem ticked_faults : (ticked s).faults = s.faults := rfl
@[simp] theorem ticked_inited : (ticked s).inited = s.inited := rfl
@[simp] theorem ticked_probes : (ticked s).probes = s.probes := rfl
@[simp] theorem ticked_trace : (ticked s).trace = s.trace := rfl
@[simp] theorem ticked_regLog : (ticked s).regLog = s.regLog := rfl
@[simp] theorem ticked_port : (ticked s).port = s.port := rfl
@[simp] theorem ticked_returns : (ticked s).returns = s.returns := rfl
@[simp] theorem ticked_lostCalls : (ticked s).lostCalls = s.lostCalls := rfl
@[simp] theorem ticked_diags : (ticked s).diags = s.diags := rfl
@[simp] theorem ticked_env : (ticked s).env = s.env := rfl
@[simp] theorem ticked_dev : (ticked s).dev = s.dev := rfl
@[simp] theorem ticked_moves : (ticked s).moves = s.moves := rfl
@[simp] theorem ticked_powerCycles : (ticked s).powerCycles = s.powerCycles := rfl
@[simp] theorem ticked_tick : (ticked s).tick = s.tick + 1 := rfl
@[simp] theorem ticked_cfg : (ticked s).cfg = s.cfg := rfl

/-! ### `advance` (R33) -/

@[simp] theorem advance_presc (p : Prim) (u : Nat) : (advance p u s).presc = s.presc := rfl
@[simp] theorem advance_div (p : Prim) (u : Nat) : (advance p u s).div = s.div := rfl
@[simp] theorem advance_ctrl (p : Prim) (u : Nat) : (advance p u s).ctrl = s.ctrl := rfl
@[simp] theorem advance_data (p : Prim) (u : Nat) : (advance p u s).data = s.data := rfl
@[simp] theorem advance_status (p : Prim) (u : Nat) : (advance p u s).status = s.status := rfl
@[simp] theorem advance_opA (p : Prim) (u : Nat) : (advance p u s).opA = s.opA := rfl
@[simp] theorem advance_opB (p : Prim) (u : Nat) : (advance p u s).opB = s.opB := rfl
@[simp] theorem advance_res (p : Prim) (u : Nat) : (advance p u s).res = s.res := rfl
@[simp] theorem advance_waitAcked (p : Prim) (u : Nat) : (advance p u s).waitAcked = s.waitAcked := rfl
@[simp] theorem advance_txn (p : Prim) (u : Nat) : (advance p u s).txn = s.txn := rfl
@[simp] theorem advance_eng (p : Prim) (u : Nat) : (advance p u s).eng = .exec p (u + 1) := rfl
@[simp] theorem advance_phase (p : Prim) (u : Nat) : (advance p u s).phase = s.phase := rfl
@[simp] theorem advance_inflight (p : Prim) (u : Nat) : (advance p u s).inflight = s.inflight := rfl
@[simp] theorem advance_faults (p : Prim) (u : Nat) : (advance p u s).faults = s.faults := rfl
@[simp] theorem advance_inited (p : Prim) (u : Nat) : (advance p u s).inited = s.inited := rfl
@[simp] theorem advance_probes (p : Prim) (u : Nat) : (advance p u s).probes = s.probes := rfl
@[simp] theorem advance_trace (p : Prim) (u : Nat) : (advance p u s).trace = s.trace := rfl
@[simp] theorem advance_regLog (p : Prim) (u : Nat) : (advance p u s).regLog = s.regLog := rfl
@[simp] theorem advance_port (p : Prim) (u : Nat) : (advance p u s).port = s.port := rfl
@[simp] theorem advance_returns (p : Prim) (u : Nat) : (advance p u s).returns = s.returns := rfl
@[simp] theorem advance_lostCalls (p : Prim) (u : Nat) : (advance p u s).lostCalls = s.lostCalls := rfl
@[simp] theorem advance_diags (p : Prim) (u : Nat) : (advance p u s).diags = s.diags := rfl
@[simp] theorem advance_env (p : Prim) (u : Nat) : (advance p u s).env = s.env := rfl
@[simp] theorem advance_dev (p : Prim) (u : Nat) : (advance p u s).dev = s.dev := rfl
@[simp] theorem advance_moves (p : Prim) (u : Nat) : (advance p u s).moves = s.moves := rfl
@[simp] theorem advance_powerCycles (p : Prim) (u : Nat) : (advance p u s).powerCycles = s.powerCycles := rfl
@[simp] theorem advance_tick (p : Prim) (u : Nat) : (advance p u s).tick = s.tick := rfl
@[simp] theorem advance_cfg (p : Prim) (u : Nat) : (advance p u s).cfg = s.cfg := rfl

/-! ### `enter` (R150) -/

@[simp] theorem enter_presc (p : Prim) (a b : Option Byte) : (enter p a b s).presc = s.presc := rfl
@[simp] theorem enter_div (p : Prim) (a b : Option Byte) : (enter p a b s).div = s.div := rfl
@[simp] theorem enter_ctrl (p : Prim) (a b : Option Byte) : (enter p a b s).ctrl = s.ctrl := rfl
@[simp] theorem enter_data (p : Prim) (a b : Option Byte) : (enter p a b s).data = s.data := rfl
@[simp] theorem enter_status (p : Prim) (a b : Option Byte) : (enter p a b s).status = s.status := rfl
@[simp] theorem enter_opA (p : Prim) (a b : Option Byte) : (enter p a b s).opA = loadOperand a s.opA := rfl
@[simp] theorem enter_opB (p : Prim) (a b : Option Byte) : (enter p a b s).opB = loadOperand b s.opB := rfl
@[simp] theorem enter_res (p : Prim) (a b : Option Byte) : (enter p a b s).res = s.res := rfl
@[simp] theorem enter_waitAcked (p : Prim) (a b : Option Byte) : (enter p a b s).waitAcked = s.waitAcked := rfl
@[simp] theorem enter_txn (p : Prim) (a b : Option Byte) : (enter p a b s).txn = s.txn := rfl
@[simp] theorem enter_eng (p : Prim) (a b : Option Byte) : (enter p a b s).eng = .exec p 0 := rfl
@[simp] theorem enter_phase (p : Prim) (a b : Option Byte) : (enter p a b s).phase = s.phase := rfl
@[simp] theorem enter_inflight (p : Prim) (a b : Option Byte) : (enter p a b s).inflight = s.inflight := rfl
@[simp] theorem enter_faults (p : Prim) (a b : Option Byte) : (enter p a b s).faults = s.faults := rfl
@[simp] theorem enter_inited (p : Prim) (a b : Option Byte) : (enter p a b s).inited = s.inited := rfl
@[simp] theorem enter_probes (p : Prim) (a b : Option Byte) : (enter p a b s).probes = s.probes := rfl
@[simp] theorem enter_trace (p : Prim) (a b : Option Byte) : (enter p a b s).trace = s.trace := rfl
@[simp] theorem enter_regLog (p : Prim) (a b : Option Byte) : (enter p a b s).regLog = s.regLog := rfl
@[simp] theorem enter_port (p : Prim) (a b : Option Byte) : (enter p a b s).port = s.port := rfl
@[simp] theorem enter_returns (p : Prim) (a b : Option Byte) : (enter p a b s).returns = s.returns := rfl
@[simp] theorem enter_lostCalls (p : Prim) (a b : Option Byte) : (enter p a b s).lostCalls = s.lostCalls := rfl
@[simp] theorem enter_diags (p : Prim) (a b : Option Byte) : (enter p a b s).diags = s.diags := rfl
@[simp] theorem enter_env (p : Prim) (a b : Option Byte) : (enter p a b s).env = s.env := rfl
@[simp] theorem enter_dev (p : Prim) (a b : Option Byte) : (enter p a b s).dev = s.dev := rfl
@[simp] theorem enter_moves (p : Prim) (a b : Option Byte) : (enter p a b s).moves = s.moves := rfl
@[simp] theorem enter_powerCycles (p : Prim) (a b : Option Byte) : (enter p a b s).powerCycles = s.powerCycles := rfl
@[simp] theorem enter_tick (p : Prim) (a b : Option Byte) : (enter p a b s).tick = s.tick := rfl
@[simp] theorem enter_cfg (p : Prim) (a b : Option Byte) : (enter p a b s).cfg = s.cfg := rfl

/-! ### `leaveTo` (R32) -/

@[simp] theorem leaveTo_presc (i : Instr) (next : Option Nat) :
    (leaveTo i next s).presc = s.presc :=
  by cases next <;> rfl
@[simp] theorem leaveTo_div (i : Instr) (next : Option Nat) : (leaveTo i next s).div = s.div := by cases next <;> rfl
@[simp] theorem leaveTo_ctrl (i : Instr) (next : Option Nat) :
    (leaveTo i next s).ctrl = s.ctrl :=
  by cases next <;> rfl
@[simp] theorem leaveTo_data (i : Instr) (next : Option Nat) :
    (leaveTo i next s).data = s.data :=
  by cases next <;> rfl
@[simp] theorem leaveTo_status (i : Instr) (next : Option Nat) :
    (leaveTo i next s).status = s.status :=
  by cases next <;> rfl
@[simp] theorem leaveTo_opA (i : Instr) (next : Option Nat) : (leaveTo i next s).opA = s.opA := by cases next <;> rfl
@[simp] theorem leaveTo_opB (i : Instr) (next : Option Nat) : (leaveTo i next s).opB = s.opB := by cases next <;> rfl
@[simp] theorem leaveTo_res (i : Instr) (next : Option Nat) : (leaveTo i next s).res = s.res := by cases next <;> rfl
@[simp] theorem leaveTo_waitAcked (i : Instr) (next : Option Nat) :
    (leaveTo i next s).waitAcked = s.waitAcked :=
  by cases next <;> rfl
@[simp] theorem leaveTo_txn (i : Instr) (next : Option Nat) :
    (leaveTo i next s).txn = match next with | some k => .run i k | none => .idle :=
  by cases next <;> rfl
@[simp] theorem leaveTo_eng (i : Instr) (next : Option Nat) : (leaveTo i next s).eng = .idle := by cases next <;> rfl
@[simp] theorem leaveTo_phase (i : Instr) (next : Option Nat) :
    (leaveTo i next s).phase = s.phase :=
  by cases next <;> rfl
@[simp] theorem leaveTo_inflight (i : Instr) (next : Option Nat) :
    (leaveTo i next s).inflight = s.inflight :=
  by cases next <;> rfl
@[simp] theorem leaveTo_faults (i : Instr) (next : Option Nat) :
    (leaveTo i next s).faults = s.faults :=
  by cases next <;> rfl
@[simp] theorem leaveTo_inited (i : Instr) (next : Option Nat) :
    (leaveTo i next s).inited = s.inited :=
  by cases next <;> rfl
@[simp] theorem leaveTo_probes (i : Instr) (next : Option Nat) :
    (leaveTo i next s).probes = s.probes :=
  by cases next <;> rfl
@[simp] theorem leaveTo_trace (i : Instr) (next : Option Nat) :
    (leaveTo i next s).trace = s.trace :=
  by cases next <;> rfl
@[simp] theorem leaveTo_regLog (i : Instr) (next : Option Nat) :
    (leaveTo i next s).regLog = s.regLog :=
  by cases next <;> rfl
@[simp] theorem leaveTo_port (i : Instr) (next : Option Nat) :
    (leaveTo i next s).port = s.port :=
  by cases next <;> rfl
@[simp] theorem leaveTo_returns (i : Instr) (next : Option Nat) :
    (leaveTo i next s).returns = match next with | some _ => s.returns | none => s.returns ++ [returnValue i s] :=
  by cases next <;> rfl
@[simp] theorem leaveTo_lostCalls (i : Instr) (next : Option Nat) :
    (leaveTo i next s).lostCalls = s.lostCalls :=
  by cases next <;> rfl
@[simp] theorem leaveTo_diags (i : Instr) (next : Option Nat) :
    (leaveTo i next s).diags = s.diags :=
  by cases next <;> rfl
@[simp] theorem leaveTo_env (i : Instr) (next : Option Nat) : (leaveTo i next s).env = s.env := by cases next <;> rfl
@[simp] theorem leaveTo_dev (i : Instr) (next : Option Nat) : (leaveTo i next s).dev = s.dev := by cases next <;> rfl
@[simp] theorem leaveTo_moves (i : Instr) (next : Option Nat) :
    (leaveTo i next s).moves = s.moves :=
  by cases next <;> rfl
@[simp] theorem leaveTo_powerCycles (i : Instr) (next : Option Nat) :
    (leaveTo i next s).powerCycles = s.powerCycles :=
  by cases next <;> rfl
@[simp] theorem leaveTo_tick (i : Instr) (next : Option Nat) :
    (leaveTo i next s).tick = s.tick :=
  by cases next <;> rfl
@[simp] theorem leaveTo_cfg (i : Instr) (next : Option Nat) : (leaveTo i next s).cfg = s.cfg := by cases next <;> rfl

/-! ### `probeTest` (R153) -/

@[simp] theorem probeTest_presc (i : Instr) (exit again : Nat) :
    (probeTest i exit again s).presc = s.presc :=
  by unfold probeTest; split <;> (try split) <;> rfl
@[simp] theorem probeTest_div (i : Instr) (exit again : Nat) :
    (probeTest i exit again s).div = s.div :=
  by unfold probeTest; split <;> (try split) <;> rfl
@[simp] theorem probeTest_ctrl (i : Instr) (exit again : Nat) :
    (probeTest i exit again s).ctrl = s.ctrl :=
  by unfold probeTest; split <;> (try split) <;> rfl
@[simp] theorem probeTest_data (i : Instr) (exit again : Nat) :
    (probeTest i exit again s).data = s.data :=
  by unfold probeTest; split <;> (try split) <;> rfl
@[simp] theorem probeTest_status (i : Instr) (exit again : Nat) :
    (probeTest i exit again s).status = s.status :=
  by unfold probeTest; split <;> (try split) <;> rfl
@[simp] theorem probeTest_opA (i : Instr) (exit again : Nat) :
    (probeTest i exit again s).opA = s.opA :=
  by unfold probeTest; split <;> (try split) <;> rfl
@[simp] theorem probeTest_opB (i : Instr) (exit again : Nat) :
    (probeTest i exit again s).opB = s.opB :=
  by unfold probeTest; split <;> (try split) <;> rfl
@[simp] theorem probeTest_res (i : Instr) (exit again : Nat) :
    (probeTest i exit again s).res = s.res :=
  by unfold probeTest; split <;> (try split) <;> rfl
@[simp] theorem probeTest_eng (i : Instr) (exit again : Nat) :
    (probeTest i exit again s).eng = s.eng :=
  by unfold probeTest; split <;> (try split) <;> rfl
@[simp] theorem probeTest_phase (i : Instr) (exit again : Nat) :
    (probeTest i exit again s).phase = s.phase :=
  by unfold probeTest; split <;> (try split) <;> rfl
@[simp] theorem probeTest_inflight (i : Instr) (exit again : Nat) :
    (probeTest i exit again s).inflight = s.inflight :=
  by unfold probeTest; split <;> (try split) <;> rfl
@[simp] theorem probeTest_faults (i : Instr) (exit again : Nat) :
    (probeTest i exit again s).faults = s.faults :=
  by unfold probeTest; split <;> (try split) <;> rfl
@[simp] theorem probeTest_inited (i : Instr) (exit again : Nat) :
    (probeTest i exit again s).inited = s.inited :=
  by unfold probeTest; split <;> (try split) <;> rfl
@[simp] theorem probeTest_probes (i : Instr) (exit again : Nat) :
    (probeTest i exit again s).probes = s.probes + 1 :=
  by unfold probeTest; split <;> (try split) <;> rfl
@[simp] theorem probeTest_trace (i : Instr) (exit again : Nat) :
    (probeTest i exit again s).trace = s.trace :=
  by unfold probeTest; split <;> (try split) <;> rfl
@[simp] theorem probeTest_regLog (i : Instr) (exit again : Nat) :
    (probeTest i exit again s).regLog = s.regLog :=
  by unfold probeTest; split <;> (try split) <;> rfl
@[simp] theorem probeTest_port (i : Instr) (exit again : Nat) :
    (probeTest i exit again s).port = s.port :=
  by unfold probeTest; split <;> (try split) <;> rfl
@[simp] theorem probeTest_returns (i : Instr) (exit again : Nat) :
    (probeTest i exit again s).returns = s.returns :=
  by unfold probeTest; split <;> (try split) <;> rfl
@[simp] theorem probeTest_lostCalls (i : Instr) (exit again : Nat) :
    (probeTest i exit again s).lostCalls = s.lostCalls :=
  by unfold probeTest; split <;> (try split) <;> rfl
@[simp] theorem probeTest_diags (i : Instr) (exit again : Nat) :
    (probeTest i exit again s).diags = s.diags :=
  by unfold probeTest; split <;> (try split) <;> rfl
@[simp] theorem probeTest_env (i : Instr) (exit again : Nat) :
    (probeTest i exit again s).env = s.env :=
  by unfold probeTest; split <;> (try split) <;> rfl
@[simp] theorem probeTest_dev (i : Instr) (exit again : Nat) :
    (probeTest i exit again s).dev = s.dev :=
  by unfold probeTest; split <;> (try split) <;> rfl
@[simp] theorem probeTest_moves (i : Instr) (exit again : Nat) :
    (probeTest i exit again s).moves = s.moves :=
  by unfold probeTest; split <;> (try split) <;> rfl
@[simp] theorem probeTest_powerCycles (i : Instr) (exit again : Nat) :
    (probeTest i exit again s).powerCycles = s.powerCycles :=
  by unfold probeTest; split <;> (try split) <;> rfl
@[simp] theorem probeTest_tick (i : Instr) (exit again : Nat) :
    (probeTest i exit again s).tick = s.tick :=
  by unfold probeTest; split <;> (try split) <;> rfl
@[simp] theorem probeTest_cfg (i : Instr) (exit again : Nat) :
    (probeTest i exit again s).cfg = s.cfg :=
  by unfold probeTest; split <;> (try split) <;> rfl

/-! ### `clearProbes` (R153) -/

@[simp] theorem clearProbes_presc : (clearProbes s).presc = s.presc := rfl
@[simp] theorem clearProbes_div : (clearProbes s).div = s.div := rfl
@[simp] theorem clearProbes_ctrl : (clearProbes s).ctrl = s.ctrl := rfl
@[simp] theorem clearProbes_data : (clearProbes s).data = s.data := rfl
@[simp] theorem clearProbes_status : (clearProbes s).status = s.status := rfl
@[simp] theorem clearProbes_opA : (clearProbes s).opA = s.opA := rfl
@[simp] theorem clearProbes_opB : (clearProbes s).opB = s.opB := rfl
@[simp] theorem clearProbes_res : (clearProbes s).res = s.res := rfl
@[simp] theorem clearProbes_waitAcked : (clearProbes s).waitAcked = false := rfl
@[simp] theorem clearProbes_txn : (clearProbes s).txn = s.txn := rfl
@[simp] theorem clearProbes_eng : (clearProbes s).eng = s.eng := rfl
@[simp] theorem clearProbes_phase : (clearProbes s).phase = s.phase := rfl
@[simp] theorem clearProbes_inflight : (clearProbes s).inflight = s.inflight := rfl
@[simp] theorem clearProbes_faults : (clearProbes s).faults = s.faults := rfl
@[simp] theorem clearProbes_inited : (clearProbes s).inited = s.inited := rfl
@[simp] theorem clearProbes_probes : (clearProbes s).probes = 0 := rfl
@[simp] theorem clearProbes_trace : (clearProbes s).trace = s.trace := rfl
@[simp] theorem clearProbes_regLog : (clearProbes s).regLog = s.regLog := rfl
@[simp] theorem clearProbes_port : (clearProbes s).port = s.port := rfl
@[simp] theorem clearProbes_returns : (clearProbes s).returns = s.returns := rfl
@[simp] theorem clearProbes_lostCalls : (clearProbes s).lostCalls = s.lostCalls := rfl
@[simp] theorem clearProbes_diags : (clearProbes s).diags = s.diags := rfl
@[simp] theorem clearProbes_env : (clearProbes s).env = s.env := rfl
@[simp] theorem clearProbes_dev : (clearProbes s).dev = s.dev := rfl
@[simp] theorem clearProbes_moves : (clearProbes s).moves = s.moves := rfl
@[simp] theorem clearProbes_powerCycles : (clearProbes s).powerCycles = s.powerCycles := rfl
@[simp] theorem clearProbes_tick : (clearProbes s).tick = s.tick := rfl
@[simp] theorem clearProbes_cfg : (clearProbes s).cfg = s.cfg := rfl

end

end Sys2Proof.Machine
end

