-- ==== Sys2Proof/Laws/Memory.lean ====
section
/-!
SUPPORT. The laws of the EEPROM offset space (spec 20_memory.md R76): a read after a write, and the canonical form that
every memory operation keeps.
-/

namespace Sys2Proof.Machine

/-- An offset below everything listed reads as blank. -/
theorem Memory.read_below {m : Memory} {lo a : Nat} (h : Memory.wfFrom lo m = true) (ha : a < lo) :
    m.read a = Memory.blank := by
  induction m generalizing lo with
  | nil => rfl
  | cons e rest ih =>
    obtain ⟨k, v⟩ := e
    simp only [Memory.wfFrom, Bool.and_eq_true, decide_eq_true_eq] at h
    have hk : k ≠ a := by omega
    simpa [Memory.read, hk] using ih h.2 (by omega)

/-- Weakening the lower bound of the canonical form. -/
theorem Memory.wfFrom_mono {m : Memory} {lo lo' : Nat} (h : Memory.wfFrom lo m = true) (hl : lo' ≤ lo) :
    Memory.wfFrom lo' m = true := by
  cases m with
  | nil => rfl
  | cons e rest =>
    obtain ⟨k, v⟩ := e
    simp only [Memory.wfFrom, Bool.and_eq_true, decide_eq_true_eq] at h ⊢
    exact ⟨⟨⟨by omega, h.1.1.2⟩, h.1.2⟩, h.2⟩

/-- A read after a write to the same offset gives the byte written. -/
theorem Memory.read_write_same {m : Memory} {lo : Nat} (h : Memory.wfFrom lo m = true) (a : Nat) (b : Byte) :
    (m.write a b).read a = b := by
  induction m generalizing lo with
  | nil => by_cases hb : b = Memory.blank <;> simp [Memory.write, Memory.read, hb]
  | cons e rest ih =>
    obtain ⟨k, v⟩ := e
    simp only [Memory.wfFrom, Bool.and_eq_true, decide_eq_true_eq] at h
    rcases Nat.lt_trichotomy a k with hk | rfl | hk
    · by_cases hb : b = Memory.blank
      · have hrest := Memory.read_below h.2 (show a < k + 1 by omega)
        simp [Memory.write, Memory.read, hk, hb, hrest, show k ≠ a by omega]
      · simp [Memory.write, Memory.read, hk, hb]
    · by_cases hb : b = Memory.blank
      · simpa [Memory.write, hb] using Memory.read_below h.2 (Nat.lt_succ_self a)
      · simp [Memory.write, Memory.read, hb]
    · simp [Memory.write, Memory.read, show ¬a < k by omega, show a ≠ k by omega, show k ≠ a by omega, ih h.2]

/-- A write leaves every other offset alone. -/
theorem Memory.read_write_other {m : Memory} {a c : Nat} (b : Byte) (h : c ≠ a) :
    (m.write a b).read c = m.read c := by
  induction m with
  | nil => by_cases hb : b = Memory.blank <;> simp [Memory.write, Memory.read, hb, Ne.symm h]
  | cons e rest ih =>
    obtain ⟨k, v⟩ := e
    rcases Nat.lt_trichotomy a k with hk | rfl | hk
    · by_cases hb : b = Memory.blank <;> simp [Memory.write, Memory.read, hk, hb, Ne.symm h]
    · by_cases hb : b = Memory.blank <;> simp [Memory.write, Memory.read, hb, Ne.symm h]
    · simp [Memory.write, Memory.read, show ¬a < k by omega, show a ≠ k by omega, ih]

/-- A write keeps the canonical form above a bound that it respects. -/
theorem Memory.wfFrom_write {m : Memory} {lo a : Nat} (h : Memory.wfFrom lo m = true) (b : Byte) (hlo : lo ≤ a)
    (ha : a < 256) : Memory.wfFrom lo (m.write a b) = true := by
  induction m generalizing lo with
  | nil => by_cases hb : b = Memory.blank <;> simp [Memory.write, Memory.wfFrom, hb, hlo, ha]
  | cons e rest ih =>
    obtain ⟨k, v⟩ := e
    have hw := h
    simp only [Memory.wfFrom, Bool.and_eq_true, decide_eq_true_eq] at h
    rcases Nat.lt_trichotomy a k with hk | rfl | hk
    · by_cases hb : b = Memory.blank
      · simpa [Memory.write, hk, hb] using hw
      · simp [Memory.write, Memory.wfFrom, hk, hb, hlo, ha, h.1.1.2, h.1.2, h.2, show a + 1 ≤ k by omega]
    · by_cases hb : b = Memory.blank
      · simpa [Memory.write, hb] using Memory.wfFrom_mono h.2 (show lo ≤ a + 1 by omega)
      · simp [Memory.write, Memory.wfFrom, hb, hlo, ha, h.2]
    · simp [Memory.write, Memory.wfFrom, show ¬a < k by omega, show a ≠ k by omega, h.1.1.1, h.1.1.2, h.1.2,
        ih h.2 (show k + 1 ≤ a by omega)]

/-- Every write at a byte offset keeps the canonical form. -/
theorem Memory.wf_write {m : Memory} (h : m.wf = true) (a b : Byte) : (m.write a.toNat b).wf = true :=
  Memory.wfFrom_write h b (Nat.zero_le _) a.isLt

/-- The empty memory, which reset leaves the device with, is canonical. -/
theorem Memory.wf_nil : Memory.wf [] = true := rfl

end Sys2Proof.Machine
end

