-- ==== Sys2Proof/Laws/Exec.lean ====
section
/-!
SUPPORT. What each shared operation can do, said once: the register operations, a micro-step, a command's step (`exec`)
and a step of the whole machine. Later proofs cite these and do not unfold the definitions.
-/

namespace Sys2Proof.Machine

theorem next_inj {s t : State} (h : (Host.Outcome.next s : Result) = .next t) : s = t := by
  injection h

theorem andThen_next {o : Result} {f : State → Result} {t : State} :
    andThen o f = .next t ↔ ∃ s, o = .next s ∧ f s = .next t := by
  cases o <;> simp [andThen]

/-! ### Register operations -/

theorem writeData_next {b : Byte} {s t : State} :
    writeData b s = .next t ↔ s.inflight = none ∧ t = dataWritten b s := by
  unfold writeData
  cases h : s.inflight <;> simp [eq_comm]

theorem trigger_next {p : Prim} {sta sto ea : Bool} {s t : State} :
    trigger p sta sto ea s = .next t ↔
      ∃ op, kindOf p (dataValue s) = some op ∧ s.inflight = none ∧ (sta && sto) = false ∧
        t = triggered op sta sto ea s := by
  unfold trigger
  cases kindOf p (dataValue s) with
  | none => simp
  | some op => cases h : s.inflight <;> cases hs : (sta && sto) <;> simp [eq_comm]

theorem readDataThen_next {s t : State} {k : Byte → Result} :
    readDataThen s k = .next t ↔ s.inflight = none ∧ k (dataValue s) = .next t := by
  unfold readDataThen
  cases h : s.inflight <;> simp

/-! ### A micro-step -/

/-- Everything that a micro-step can do when it answers a next state. -/
theorem runMicro_cases {m : Micro} {p : Prim} {u : Nat} {leave : State → State} {s t : State}
    (h : runMicro m p u leave s = .next t) :
    (m = .contract ∧ t = advance p u (contractStep p s)) ∨
    (m = .setClock ∧ t = advance p u (setClock s.cfg.div s)) ∨
    (m = .markInited ∧ t = leave (setInited s)) ∨
    (m = .writeAddr ∧ s.inflight = none ∧ t = advance p u (dataWritten (addrByte (opAddr7 s) (opDir s)) s)) ∨
    (m = .writeData ∧ s.inflight = none ∧ t = advance p u (dataWritten (opAValue s) s)) ∨
    (∃ sta sto ea op, m = .trigger sta sto ea ∧ kindOf p (dataValue s) = some op ∧ s.inflight = none ∧
      t = advance p u (triggered op sta sto ea s)) ∨
    (m = .spinTC ∧ s.ctrl.tc = true ∧ t = advance p u s) ∨
    (m = .spinTC ∧ s.ctrl.tc = false ∧ t = s) ∨
    (m = .spinStop ∧ s.ctrl.sto = false ∧ t = advance p u s) ∨
    (m = .spinStop ∧ s.ctrl.sto = true ∧ t = s) ∨
    (m = .readData ∧ s.inflight = none ∧ t = advance p u (setRes (dataValue s) s)) ∨
    (m = .decode ∧ t = leave (emitDiag (decodeStatus (opAValue s)) s)) ∨
    (m = .ret ∧ t = leave (setPhase (endPhase p (opDir s)) s)) := by
  cases m with
  | contract =>
    obtain rfl := next_inj h
    simp
  | setClock =>
    obtain rfl := next_inj h
    simp
  | markInited =>
    obtain rfl := next_inj h
    simp
  | writeAddr =>
    obtain ⟨s1, h1, h2⟩ := andThen_next.1 h
    obtain ⟨hi, rfl⟩ := writeData_next.1 h1
    obtain rfl := next_inj h2
    simp [hi]
  | writeData =>
    obtain ⟨s1, h1, h2⟩ := andThen_next.1 h
    obtain ⟨hi, rfl⟩ := writeData_next.1 h1
    obtain rfl := next_inj h2
    simp [hi]
  | trigger sta sto ea =>
    obtain ⟨s1, h1, h2⟩ := andThen_next.1 h
    obtain ⟨op, hk, hi, -, rfl⟩ := trigger_next.1 h1
    obtain rfl := next_inj h2
    exact .inr (.inr (.inr (.inr (.inr (.inl ⟨sta, sto, ea, op, rfl, hk, hi, rfl⟩)))))
  | spinTC =>
    obtain rfl := next_inj h
    cases hc : s.ctrl.tc <;> simp [readTC, hc]
  | spinStop =>
    obtain rfl := next_inj h
    cases hc : s.ctrl.sto <;> simp [readStopPending, hc]
  | readData =>
    simp only [runMicro] at h
    obtain ⟨hi, h2⟩ := readDataThen_next.1 h
    obtain rfl := next_inj h2
    simp [hi]
  | decode =>
    obtain rfl := next_inj h
    simp
  | ret =>
    obtain rfl := next_inj h
    simp

/-! ### A command -/

/-- What a command does on its acceptance beyond the latches: `EE_WAIT` clears its counters (R153). -/
def onAccept (i : Instr) (s : State) : State :=
  if i = .eeWait then clearProbes s else s

/-- Offered to an idle block, a command is accepted. -/
theorem exec_idle {i : Instr} {s : State} (h : s.txn = .idle) : exec i s = .next (accept i (onAccept i s)) := by
  cases i <;>
    simp [exec, execInit, execStart, execStop, execTxAddr, execTxByte, execRxAck, execRxNak, execDecode, execEeWrite,
      execEeRead, execEeWait, runCommand, onAccept, h]

/-- While a command runs, `exec` is a step of `runCommand` on the command's table. -/
theorem exec_run {i j : Instr} {k : Nat} {s : State} (h : s.txn = .run j k) :
    exec i s = runCommand i (tableOf s.cfg i) s := by
  cases i <;>
    simp [exec, execInit, execStart, execStop, execTxAddr, execTxByte, execRxAck, execRxNak, execDecode, execEeWrite,
      execEeRead, execEeWait, tableOf, h]

/-- A command offered while another runs is not accepted. -/
theorem exec_busy {i j : Instr} {k : Nat} {s : State} (h : s.txn = .run j k) (hne : j ≠ i) : exec i s = .next s := by
  simp [exec_run h, runCommand, h, hne]

/-- A running command between two primitives starts its table's action. -/
theorem exec_action {i : Instr} {k : Nat} {s : State} {act : Action} (h : s.txn = .run i k)
    (ha : tableOf s.cfg i k = some act) (he : s.eng = .idle) : exec i s = .next (startAction i act s) := by
  simp [exec_run h, runCommand, h, ha, he]

/-- A running command inside a primitive takes the primitive's micro-step. -/
theorem exec_micro {i : Instr} {k u : Nat} {s : State} {p : Prim} {a b : Option Byte} {next : Option Nat} {m : Micro}
    (h : s.txn = .run i k) (ha : tableOf s.cfg i k = some (.call p a b next)) (he : s.eng = .exec p u)
    (hm : (microSteps p)[u]? = some m) : exec i s = runMicro m p u (leaveTo i next) s := by
  simp [exec_run h, runCommand, h, ha, he, engineStep, hm]

/-- Everything that `exec` can do when it answers a next state. -/
theorem exec_cases {i : Instr} {s t : State} (h : exec i s = .next t) :
    (s.txn = .idle ∧ t = accept i (onAccept i s)) ∨
    (∃ j k, s.txn = .run j k ∧ j ≠ i ∧ t = s) ∨
    (∃ k act, s.txn = .run i k ∧ tableOf s.cfg i k = some act ∧ s.eng = .idle ∧ t = startAction i act s) ∨
    (∃ k p a b next u m, s.txn = .run i k ∧ tableOf s.cfg i k = some (.call p a b next) ∧ s.eng = .exec p u ∧
      (microSteps p)[u]? = some m ∧ runMicro m p u (leaveTo i next) s = .next t) := by
  cases ht : s.txn with
  | idle =>
    rw [exec_idle ht] at h
    simp_all
  | run j k =>
    by_cases hj : j = i
    · subst hj
      rw [exec_run ht] at h
      simp only [runCommand, ht, if_true] at h
      cases ha : tableOf s.cfg j k with
      | none => simp [ha] at h
      | some act =>
        rw [ha] at h
        cases he : s.eng with
        | idle => simp_all
        | exec p u =>
          simp only [he] at h
          cases act with
          | call q a b next =>
            simp only [engineStep] at h
            split at h
            · rename_i hq
              subst hq
              split at h
              · rename_i m hm
                exact .inr (.inr (.inr ⟨k, p, a, b, next, u, m, rfl, ha, rfl, hm, h⟩))
              · simp at h
            · simp at h
          | test x y => simp [engineStep] at h
          | jump x => simp [engineStep] at h
          | ret => simp [engineStep] at h
    · rw [exec_busy ht hj] at h
      simp_all

/-! ### A step of the whole machine -/

/-- Everything that the block's step can do when it answers a next state. -/
theorem blockTurn_cases {s t : State} (h : blockTurn exec s = .next t) :
    (∃ i k, s.txn = .run i k ∧ exec i s = .next t) ∨
    (s.txn = .idle ∧ s.port = [] ∧ t = s) ∨
    (∃ w rest i, s.txn = .idle ∧ s.port = w :: rest ∧ portDecode s.cfg w = .ok i ∧
      t = accept i (onAccept i (setPort rest s))) := by
  unfold blockTurn at h
  split at h
  · rename_i i k ht
    exact .inl ⟨i, k, ht, h⟩
  · rename_i ht
    split at h
    · rename_i hp
      exact .inr (.inl ⟨ht, hp, by simpa [eq_comm] using h⟩)
    · rename_i w rest hp
      split at h
      · rename_i i hd
        rw [exec_idle (by exact ht)] at h
        exact .inr (.inr ⟨w, rest, i, ht, hp, hd, by simpa [eq_comm] using h⟩)
      · simp at h

/-- Everything that a turn can do when it answers a next state: a completion, the end of the device's write cycle, or a
step of the block. -/
theorem turn_cases {s t : State} (h : turn exec s = .next t) :
    (∃ op st d, s.inflight = some op ∧ (atSpin s || waiting s) = true ∧ nextMove s = .answer st d ∧
      envAnswer op st d (dropMove s) = .next t) ∨
    (deviceBusy s = true ∧ (atSpin s || waiting s) = true ∧ nextMove s = .writeCycleDone ∧
      t = writeCycleDone (dropMove s)) ∨
    (∃ s', (s' = s ∨ s' = dropMove s) ∧ blockTurn exec s' = .next t) := by
  unfold turn at h
  split at h
  · rename_i ht
    have hsp : (atSpin s || waiting s) = true := by
      simp only [envTurn, Bool.and_eq_true] at ht
      exact ht.1
    split at h
    · rename_i o ho
      subst h
      cases hm : nextMove s with
      | quiet => simp [hm, envMove] at ho
      | answer st d =>
        rw [hm] at ho
        simp only [envMove, Option.map_eq_some_iff, dropMove_inflight] at ho
        obtain ⟨op, hop, hans⟩ := ho
        exact .inl ⟨op, st, d, hop, hsp, rfl, hans⟩
      | writeCycleDone =>
        rw [hm] at ho
        simp only [envMove] at ho
        split at ho
        · rename_i hb
          obtain rfl := next_inj (Option.some.inj ho)
          exact .inr (.inl ⟨hb, hsp, rfl, rfl⟩)
        · simp at ho
    · exact .inr (.inr ⟨_, .inr rfl, h⟩)
  · exact .inr (.inr ⟨_, .inl rfl, h⟩)

/-- Everything that a step can do when it answers a next state: a power cycle, or a turn taken in the state with the
step counted. -/
theorem step_cases {s t : State} (h : step s = .next t) :
    (∃ rest, s.powerCycles = 0 :: rest ∧ t = powerCycle (setPowerCycles rest (ticked s))) ∨
    (∃ pcs, (∀ rest, s.powerCycles ≠ 0 :: rest) ∧ (s.powerCycles = [] → pcs = []) ∧
      turn exec (setPowerCycles pcs (ticked s)) = .next t) := by
  unfold step stepWith at h
  split at h
  · rename_i hp
    have e : setPowerCycles [] (ticked s) = ticked s := by
      rw [← hp]
      rfl
    exact .inr ⟨[], by simp [hp], fun _ => rfl, by rw [e]; exact h⟩
  · rename_i rest hp
    exact .inl ⟨rest, hp, by simpa [eq_comm] using h⟩
  · rename_i n rest hp
    exact .inr ⟨n :: rest, by simp [hp], by simp [hp], h⟩

/-! ### Runs -/

theorem runs_zero (s : State) : Host.Core.run Sys2Proof.core 0 s = .next s := rfl

/-- A run of `m + n` steps is a run of `n` steps from where the first `m` lead. -/
theorem run_add {m n : Nat} {s t : State} (h : Host.Core.run Sys2Proof.core m s = .next t) :
    Host.Core.run Sys2Proof.core (m + n) s = Host.Core.run Sys2Proof.core n t := by
  induction m generalizing s with
  | zero =>
    have hs : s = t := next_inj h
    rw [Nat.zero_add, hs]
  | succ m ih =>
    rw [Nat.succ_add]
    simp only [Host.Core.run] at h ⊢
    cases hs : Sys2Proof.core.step s with
    | next s' =>
      simp only [hs] at h ⊢
      exact ih h
    | fault e => simp [hs] at h
    | refused r => simp [hs] at h

end Sys2Proof.Machine
end

