-- ==== Sys2Proof/Laws/Turn.lean ====
section
/-!
SUPPORT. A step of the whole machine in the situations that a running command meets: the block's own step, the start of
a table's action, a micro-step, and an answer of the environment.
-/

namespace Sys2Proof.Machine

/-- Where no step of the environment is possible, a step of a busy block is its command's. -/
theorem step_block {s : State} {i : Instr} {k : Nat} (hp : s.powerCycles = []) (ht : s.txn = .run i k)
    (he : envTurn s = false) : step s = exec i (ticked s) := by
  have e : envTurn (ticked s) = false := he
  simp [step, stepWith, hp, turn, e, blockTurn, ht]

/-- Between two primitives the environment has no turn. -/
theorem envTurn_between {s : State} {i : Instr} {k : Nat} (ht : s.txn = .run i k) (he : s.eng = .idle) :
    envTurn s = false := by
  simp [envTurn, atSpin, waiting, ht, he]

/-- Inside a primitive, off its spin, the environment has no turn. -/
theorem envTurn_offSpin {s : State} {i : Instr} {k u : Nat} {p : Prim} {m : Micro} (ht : s.txn = .run i k)
    (he : s.eng = .exec p u) (hm : (microSteps p)[u]? = some m) (hs : m ≠ .spinTC ∧ m ≠ .spinStop) :
    envTurn s = false := by
  simp [envTurn, atSpin, waiting, ht, he, hm, hs]

/-- With nothing in flight and no write cycle running the environment has no turn. -/
theorem envTurn_settled {s : State} (hi : s.inflight = none) (hb : deviceBusy s = false) : envTurn s = false := by
  simp [envTurn, envEnabled, hi, hb]

/-- A step that starts the action of the running command's table. -/
theorem step_action {s : State} {i : Instr} {k : Nat} {act : Action} (hp : s.powerCycles = [])
    (ht : s.txn = .run i k) (ha : tableOf s.cfg i k = some act) (he : s.eng = .idle) :
    step s = .next (startAction i act (ticked s)) := by
  rw [step_block hp ht (envTurn_between ht he)]
  exact exec_action (s := ticked s) ht ha he

/-- A step that takes a micro-step of the primitive that the running command's table calls. -/
theorem step_micro {s : State} {i : Instr} {k u : Nat} {p : Prim} {a b : Option Byte} {next : Option Nat} {m : Micro}
    (hp : s.powerCycles = []) (ht : s.txn = .run i k) (ha : tableOf s.cfg i k = some (.call p a b next))
    (he : s.eng = .exec p u) (hm : (microSteps p)[u]? = some m) (hq : envTurn s = false) :
    step s = runMicro m p u (leaveTo i next) (ticked s) := by
  rw [step_block hp ht hq]
  exact exec_micro (s := ticked s) ht ha he hm

/-- A step in which the environment answers the operation in flight. -/
theorem step_answer {s : State} {op : BusOp} {st d : Byte} {ms : List EnvMove} (hp : s.powerCycles = [])
    (hi : s.inflight = some op) (hs : atSpin s = true) (hm : s.moves = .answer st d :: ms) :
    step s = envAnswer op st d (dropMove (ticked s)) := by
  have h1 : envTurn (ticked s) = true := by
    have : atSpin (ticked s) = true := hs
    simp [envTurn, this, envEnabled, hi]
  have h2 : nextMove (ticked s) = .answer st d := by simp [nextMove, hm]
  simp [step, stepWith, hp, turn, h1, h2, envMove, hi]

/-- Where the reference environment owes an answer and no move is listed, it answers or ends its write cycle (R82). -/
theorem unlistedMove_cases {s : State} (h : owesAnswer s = true) :
    (∃ st d, unlistedMove s = .answer st d) ∨ (s.dev.busy = true ∧ unlistedMove s = .writeCycleDone) := by
  unfold unlistedMove
  split
  · exact .inl ⟨_, _, rfl⟩
  · simp_all

/-- What an answer of the environment does when it leads to a next state: it completes the operation, with the draws
themselves or, in contract, with the reference device's answer; out of contract the environment becomes free. -/
theorem envAnswer_cases {op : BusOp} {st d : Byte} {s t : State} (h : envAnswer op st d s = .next t) :
    ((s.env = .arbitrary ∨ s.phase = .undefined) ∧ t = finishOp op st d (freeEnv s)) ∨
    ∃ st' d' dev', t = finishOp op st' d' (setDev dev' s) ∧ s.env = .reference ∧ s.phase ≠ .undefined ∧
      deviceAnswer s.cfg.device s.phase op st d (Config.freeByte s.tick .ptr) s.dev = .ok (st', d', dev') := by
  unfold envAnswer at h
  split at h
  · rename_i he
    obtain rfl := next_inj h
    refine .inl ⟨.inl he, ?_⟩
    rw [show freeEnv s = s by rw [freeEnv, ← he]]
  · split at h
    · obtain rfl := next_inj h
      exact .inl ⟨.inr ‹_›, rfl⟩
    · split at h
      · simp at h
      · rename_i st' d' dev' hh
        obtain rfl := next_inj h
        exact .inr ⟨st', d', dev', rfl, ‹_›, ‹_›, hh⟩

/-- The device's answer keeps the canonical form of its memory. -/
theorem deviceAnswer_wf {a : Addr7} {ph : Phase} {op : BusOp} {st d p st' d' : Byte} {dev dev' : Device}
    (hm : dev.mem.wf = true) (h : deviceAnswer a ph op st d p dev = .ok (st', d', dev')) : dev'.mem.wf = true := by
  cases op <;> simp only [deviceAnswer] at h <;> (try split at h) <;> (try split at h) <;> simp at h <;>
    obtain ⟨-, -, rfl⟩ := h <;> simp [hm]
  exact Memory.wf_write hm _ _

/-- `s` and `t` agree in everything that only the host's port, the environment, a power cycle or the step counter
changes. -/
def SameOutside (s t : State) : Prop :=
  t.port = s.port ∧ t.status = s.status ∧ t.env = s.env ∧ t.dev = s.dev ∧ t.moves = s.moves ∧
    t.powerCycles = s.powerCycles ∧ t.tick = s.tick ∧ t.cfg = s.cfg ∧ t.lostCalls = s.lostCalls

/-- No micro-step reaches outside the block, whatever follows the primitive's return. -/
theorem runMicro_frame {m : Micro} {p : Prim} {u : Nat} {i : Instr} {next : Option Nat} {s t : State}
    (h : runMicro m p u (leaveTo i next) s = .next t) : SameOutside s t := by
  unfold SameOutside
  cases m with
  | contract | setClock | markInited | decode | ret =>
    obtain rfl := next_inj h
    simp
  | spinTC | spinStop =>
    obtain rfl := next_inj h
    split <;> simp
  | writeAddr | writeData =>
    obtain ⟨s1, h1, h2⟩ := andThen_next.1 h
    obtain rfl := (writeData_next.1 h1).2
    obtain rfl := next_inj h2
    simp
  | trigger sta sto ea =>
    obtain ⟨s1, h1, h2⟩ := andThen_next.1 h
    obtain ⟨op, -, -, -, rfl⟩ := trigger_next.1 h1
    obtain rfl := next_inj h2
    simp
  | readData =>
    simp only [runMicro] at h
    obtain rfl := next_inj (readDataThen_next.1 h).2
    simp

/-- No command's step reaches outside the block (R42). -/
theorem exec_frame {i : Instr} {s t : State} (h : exec i s = .next t) : SameOutside s t := by
  rcases exec_cases h with ⟨-, rfl⟩ | ⟨j, k, -, -, rfl⟩ | ⟨k, act, -, -, -, rfl⟩ | hm
  · unfold SameOutside onAccept
    split <;> simp
  · simp [SameOutside]
  · cases act <;> simp [SameOutside, startAction]
  · obtain ⟨k, p, a, b, next, u, m, -, -, -, -, h'⟩ := hm
    exact runMicro_frame h'

end Sys2Proof.Machine
end

