-- ==== Sys2Proof/Laws/Live.lean ====
section
/-!
SUPPORT. Runs and the named premises about them (spec 20_memory.md R63): cutting a run in two, carrying a premise along a
run, a block that rests, and the premises of a run that comes to rest.
-/

namespace Sys2Proof.Machine

/-! ### Cutting a run -/

theorem runs_next {n : Nat} {s u : State} (h : step s = .next u) : runs (n + 1) s = runs n u := by
  have hc : Sys2Proof.core.step s = .next u := h
  simp only [runs, Host.Core.run, hc]
  rfl

/-- A run of one step more begins with a step. -/
theorem runs_succ {n : Nat} {s t : State} : runs (n + 1) s = .next t ↔ ∃ u, step s = .next u ∧ runs n u = .next t := by
  constructor
  · intro h
    cases hs : step s with
    | next u => exact ⟨u, rfl, (runs_next hs).symm.trans h⟩
    | fault e =>
      have hc : Sys2Proof.core.step s = .fault e := hs
      simp [runs, Host.Core.run, hc] at h
    | refused r =>
      have hc : Sys2Proof.core.step s = .refused r := hs
      simp [runs, Host.Core.run, hc] at h
  · rintro ⟨u, hs, h⟩
    rw [runs_next hs, h]

/-- A run goes on from where its first part leads. -/
theorem runs_add {m n : Nat} {s u : State} (h : runs m s = .next u) : runs (m + n) s = runs n u :=
  run_add h

/-- A run that answers a next state does so after each of its first parts. -/
theorem runs_prefix {m n : Nat} {s t : State} (h : runs n s = .next t) (hm : m ≤ n) :
    ∃ u, runs m s = .next u ∧ runs (n - m) u = .next t := by
  induction m generalizing n s with
  | zero => exact ⟨s, rfl, h⟩
  | succ m ih =>
    obtain ⟨n, rfl⟩ := Nat.exists_eq_add_of_lt hm
    obtain ⟨v, hv, h⟩ := runs_succ.1 h
    obtain ⟨u, hu, h'⟩ := ih h (by omega)
    exact ⟨u, runs_succ.2 ⟨v, hv, hu⟩, by simpa [show 0 + m + n + 1 - (m + 1) = m + n - m by omega] using h'⟩

/-! ### A premise holds of the rest of a run -/

theorem EnvLive_of_runs {n : Nat} {s u : State} (hl : EnvLive s) (h : runs n s = .next u) : EnvLive u :=
  fun k v op hv => hl (n + k) v op ((runs_add h).trans hv)

theorem DevWriteCycleEnds_of_runs {n : Nat} {s u : State} (hd : DevWriteCycleEnds s) (h : runs n s = .next u) :
    DevWriteCycleEnds u := by
  refine ⟨fun k v hv => hd.1 (n + k) v ((runs_add h).trans hv), fun hi k => ?_⟩
  obtain ⟨m, v, t, hm, hv, ha⟩ := hd.2
    (fun k => by
      obtain ⟨m, v, t, hm, hv, ha⟩ := hi k
      exact ⟨n + m, v, t, by omega, (runs_add h).trans hv, ha⟩)
    (n + k)
  obtain ⟨j, rfl⟩ := Nat.exists_eq_add_of_le hm
  exact ⟨k + j, v, t, by omega, by rw [← runs_add h, ← Nat.add_assoc, hv], ha⟩

/-! ### A block at rest -/

/-- The block waits, the host has no word left, and the environment has nothing to do. -/
structure Rests (s : State) : Prop where
  txn : s.txn = .idle
  port : s.port = []
  inflight : s.inflight = none
  busy : deviceBusy s = false
  powerCycles : s.powerCycles = []

/-- A block at rest only counts its steps. -/
theorem step_rests {s : State} (h : Rests s) : step s = .next (ticked s) := by
  have he : envTurn (ticked s) = false := envTurn_settled h.inflight h.busy
  simp [step, stepWith, h.powerCycles, turn, he, blockTurn, h.txn, h.port]

theorem runs_rests {n : Nat} {s t : State} (h : Rests s) (hn : runs n s = .next t) : Rests t := by
  induction n generalizing s with
  | zero => exact next_inj hn ▸ h
  | succ n ih =>
    have hr : Rests (ticked s) := ⟨h.txn, h.port, h.inflight, h.busy, h.powerCycles⟩
    exact ih hr ((runs_next (step_rests h)).symm.trans hn)

/-- With no power cycle to come, none is due later. -/
theorem step_powerCycles {s t : State} (hp : s.powerCycles = []) (h : step s = .next t) : t.powerCycles = [] := by
  rcases step_cases h with ⟨rest, h0, -⟩ | ⟨pcs, -, hpcs, h⟩
  · simp [hp] at h0
  · obtain rfl := hpcs hp
    rcases turn_cases h with ⟨op, st, d, -, -, -, ha⟩ | ⟨-, -, -, rfl⟩ | ⟨s', hs', hb⟩
    · rcases envAnswer_cases ha with ⟨-, rfl⟩ | ⟨st', d', dev', rfl, -, -, -⟩ <;> simp
    · simp
    · have hs : s'.powerCycles = [] := by rcases hs' with rfl | rfl <;> simp
      rcases blockTurn_cases hb with ⟨i, k, -, he⟩ | ⟨-, -, rfl⟩ | ⟨w, rest, i, -, -, -, rfl⟩
      · exact ((exec_frame he).2.2.2.2.2.1).trans hs
      · exact hs
      · unfold onAccept
        split <;> simp [hs]

theorem runs_powerCycles {n : Nat} {s t : State} (hp : s.powerCycles = []) (h : runs n s = .next t) :
    t.powerCycles = [] := by
  induction n generalizing s with
  | zero => exact next_inj h ▸ hp
  | succ n ih =>
    obtain ⟨u, hu, h⟩ := runs_succ.1 h
    exact ih (step_powerCycles hp hu) h

/-- A micro-step leaves the operation in flight alone unless it triggers one, which it does only with nothing in
flight. -/
theorem runMicro_inflight {m : Micro} {p : Prim} {u : Nat} {i : Instr} {next : Option Nat} {s t : State} {op : BusOp}
    (hs : s.inflight = some op) (h : runMicro m p u (leaveTo i next) s = .next t) : t.inflight = some op := by
  cases m with
  | contract | setClock | markInited | decode | ret =>
    obtain rfl := next_inj h
    simp [hs]
  | spinTC | spinStop =>
    obtain rfl := next_inj h
    split <;> simp [hs]
  | writeAddr | writeData =>
    obtain ⟨s1, h1, -⟩ := andThen_next.1 h
    simp [writeData_next, hs] at h1
  | trigger sta sto ea =>
    obtain ⟨s1, h1, -⟩ := andThen_next.1 h
    simp [trigger_next, hs] at h1
  | readData =>
    simp only [runMicro] at h
    simp [readDataThen_next, hs] at h

/-- A step either leaves the operation in flight alone or ends it. -/
theorem step_inflight {s t : State} {op : BusOp} (hs : s.inflight = some op) (h : step s = .next t) :
    t.inflight = some op ∨ t.inflight = none := by
  rcases step_cases h with ⟨rest, -, rfl⟩ | ⟨pcs, -, -, h⟩
  · exact .inr rfl
  · rcases turn_cases h with ⟨op', st, d, -, -, -, ha⟩ | ⟨-, -, -, rfl⟩ | ⟨s', hs', hb⟩
    · rcases envAnswer_cases ha with ⟨-, rfl⟩ | ⟨st', d', dev', rfl, -, -, -⟩ <;> simp
    · simp [hs]
    · have hs : s'.inflight = some op := by rcases hs' with rfl | rfl <;> simp [hs]
      refine .inl ?_
      rcases blockTurn_cases hb with ⟨i, k, -, he⟩ | ⟨-, -, rfl⟩ | ⟨w, rest, i, -, -, -, rfl⟩
      · rcases exec_cases he with ⟨-, rfl⟩ | ⟨j, k, -, -, rfl⟩ | ⟨k, act, -, -, -, rfl⟩ | hm
        · unfold onAccept
          split <;> simp [hs]
        · exact hs
        · cases act <;> simp [startAction, hs]
        · obtain ⟨k, p, a, b, next, u, m, -, -, -, -, h'⟩ := hm
          exact runMicro_inflight hs h'
      · exact hs
      · unfold onAccept
        split <;> simp [hs]

/-- An operation that is in flight and is not at the end of a run is completed within it, provided that no power cycle is
due. -/
theorem completes_within {n : Nat} {u t : State} {op : BusOp} (hp : u.powerCycles = []) (h : runs n u = .next t)
    (hu : u.inflight = some op) (ht : t.inflight = none) :
    ∃ m v w, runs m u = .next v ∧ (∀ j x, j ≤ m → runs j u = .next x → x.inflight = some op) ∧ Completes v w op := by
  induction n generalizing u with
  | zero =>
    obtain rfl := next_inj h
    simp [hu] at ht
  | succ n ih =>
    obtain ⟨x, hx, h⟩ := runs_succ.1 h
    rcases step_inflight hu hx with hi | hi
    · obtain ⟨m, v, w, hv, hj, hc⟩ := ih (step_powerCycles hp hx) h hi
      refine ⟨m + 1, v, w, (runs_next hx).trans hv, fun j y hjm hy => ?_, hc⟩
      cases j with
      | zero => exact next_inj hy ▸ hu
      | succ j => exact hj j y (by omega) ((runs_next hx).symm.trans hy)
    · refine ⟨0, u, x, rfl, fun j y hj hy => ?_, hx, hu, hi, by simp [hp]⟩
      obtain rfl : j = 0 := by omega
      exact next_inj hy ▸ hu

/-- A run that comes to rest, with no power cycle in it, meets `ENV_LIVE` and `DEV_WRITE_CYCLE_ENDS`. -/
theorem live_of_rests {n : Nat} {s t : State} (hp : s.powerCycles = []) (h : runs n s = .next t) (ht : Rests t) :
    EnvLive s ∧ DevWriteCycleEnds s := by
  have after : ∀ m u, n ≤ m → runs m s = .next u → Rests u := fun m u hm hu => by
    obtain ⟨k, rfl⟩ := Nat.exists_eq_add_of_le hm
    exact runs_rests ht ((runs_add h).symm.trans hu)
  have before : ∀ m u, m ≤ n → runs m s = .next u → runs (n - m) u = .next t := fun m u hm hu => by
    obtain ⟨v, hv, hr⟩ := runs_prefix h hm
    exact next_inj (hv.symm.trans hu) ▸ hr
  refine ⟨fun m u op hu hi => ?_, fun m u hu hb => ?_, fun hi => ?_⟩
  · rcases Nat.le_total m n with hm | hm
    · exact completes_within (runs_powerCycles hp hu) (before m u hm hu) hi ht.inflight
    · simp [(after m u hm hu).inflight] at hi
  · rcases Nat.le_total m n with hm | hm
    · exact ⟨n - m, t, before m u hm hu, ht.busy⟩
    · simp [(after m u hm hu).busy] at hb
  · obtain ⟨m, u, w, hm, hu, b, hc, -⟩ := hi n
    have := (after m u hm hu).inflight
    simp [this, Completes] at hc

end Sys2Proof.Machine
end

