-- ==== Sys2Proof/Laws/PerInstr.lean ====
section
/-!
SUPPORT. One law per command: the word of a command is legal on the port exactly when the command is well-formed there,
so no command's own word has an unassigned opcode or a set unused bit (spec 30_encoding.md R93, R100).
-/

namespace Sys2Proof.Laws.LegalWord

open Sys2Proof Sys2Proof.Machine

/-- The word of the command is illegal on a port exactly where the command is not well-formed. -/
def Statement (i : Instr) : Prop :=
  ∀ cfg : Config, illegalWord cfg (encode i) = !i.wellFormed cfg

/-- No command's opcode is unassigned. -/
theorem unassigned_encode (i : Instr) : unassigned (encode i) = false := by
  rw [unassigned, opField_encode]
  cases i <;> simp [Instr.opcode, assignedOpcodes]

/-- A command's opcode is kept from the port exactly where the command is not well-formed. -/
theorem notExposed_encode (cfg : Config) (i : Instr) : notExposed cfg (encode i) = !i.wellFormed cfg := by
  rw [notExposed, opField_encode]
  cases i <;> simp [Instr.opcode, Instr.wellFormed, Instr.isPublic]

/-- The law follows for a command whose word has no unused bit set. -/
theorem of_unusedBit {i : Instr} (h : unusedBit (encode i) = false) : Statement i := by
  intro cfg
  simp [illegalWord, unassigned_encode, notExposed_encode, h]

theorem init : Statement .init :=
  of_unusedBit (by
    simp [unusedBit, opField_encode, aField_encode, bField_encode, Instr.opcode, Instr.byteA, Instr.byteB])

theorem start : Statement .start :=
  of_unusedBit (by
    simp [unusedBit, opField_encode, aField_encode, bField_encode, Instr.opcode, Instr.byteA, Instr.byteB])

theorem stop : Statement .stop :=
  of_unusedBit (by
    simp [unusedBit, opField_encode, aField_encode, bField_encode, Instr.opcode, Instr.byteA, Instr.byteB])

theorem txAddr (addr : Addr7) (dir : Dir) : Statement (.txAddr addr dir) := by
  have ha := (bit7_eq (addr.setWidth 8)).1 (addr7_in_byteA addr).1
  have hb := (dir_in_byteB dir).1
  apply of_unusedBit
  simp only [unusedBit, opField_encode, aField_encode, bField_encode, Instr.opcode, Instr.byteA, Instr.byteB, ha, hb]
  simp

theorem txByte (data : Byte) : Statement (.txByte data) :=
  of_unusedBit (by
    simp [unusedBit, opField_encode, bField_encode, Instr.opcode, Instr.byteB])

theorem rxAck : Statement .rxAck :=
  of_unusedBit (by
    simp [unusedBit, opField_encode, aField_encode, bField_encode, Instr.opcode, Instr.byteA, Instr.byteB])

theorem rxNak : Statement .rxNak :=
  of_unusedBit (by
    simp [unusedBit, opField_encode, aField_encode, bField_encode, Instr.opcode, Instr.byteA, Instr.byteB])

theorem decode (raw : Byte) : Statement (.decode raw) :=
  of_unusedBit (by
    simp [unusedBit, opField_encode, bField_encode, Instr.opcode, Instr.byteB])

theorem eeWrite (offset value : Byte) : Statement (.eeWrite offset value) :=
  of_unusedBit (by
    simp [unusedBit, opField_encode, Instr.opcode])

theorem eeRead (offset : Byte) : Statement (.eeRead offset) :=
  of_unusedBit (by
    simp [unusedBit, opField_encode, bField_encode, Instr.opcode, Instr.byteB])

theorem eeWait : Statement .eeWait :=
  of_unusedBit (by
    simp [unusedBit, opField_encode, aField_encode, bField_encode, Instr.opcode, Instr.byteA, Instr.byteB])

end Sys2Proof.Laws.LegalWord
end

