-- ==== Sys2Proof/Tests/Slice0.lean ====
section
/-!
SUPPORT. Tests on fixed values, each expected result taken from the spec (95_test_vectors.md and the rules' own
examples), and a witness for the hypotheses of every statement of Obligations.lean that has any.
-/

namespace Sys2Proof.Tests

open Sys2Proof Sys2Proof.Machine

/-! ### Helpers -/

/-- The outcome is a next state that passes the check. -/
def nextIs (o : Result) (check : State → Bool) : Bool :=
  match o with
  | .next t => check t
  | .fault _ => false
  | .refused _ => false

/-- The outcome is this refusal. -/
def refusedWith (o : Result) (r : Refusal) : Bool :=
  match o with
  | .next _ => false
  | .fault _ => false
  | .refused q => q = r

/-- The decoder's answer, in a comparable form. -/
def decodesTo (w : CmdWord) (i : Instr) : Bool :=
  match decodeWord w with
  | .ok j => j = i
  | .error _ => false

/-- The decoder refuses the word for this reason. -/
def rejects (w : CmdWord) (e : DecodeError) : Bool :=
  match decodeWord w with
  | .ok _ => false
  | .error d => d = e

/-- The block after `INIT`, idle, with the bus free. -/
def base : State :=
  { State.reset with inited := true }

/-- The block at step `k` of the command `i`, between two primitives. -/
def between (i : Instr) (k : Nat) : State :=
  { base with txn := .run i k }

/-- The block at micro-step `u` of the primitive `p` in step `k` of the command `i`, in the phase `ph`. -/
def inside (i : Instr) (k : Nat) (p : Prim) (u : Nat) (ph : Phase) : State :=
  { base with txn := .run i k, eng := .exec p u, phase := ph }

/-- The block idle, offering the host's word of `i` and then `rest`, the environment's moves listed. -/
def offering (i : Instr) (rest : List CmdWord) (ms : List EnvMove) : State :=
  { base with port := encode i :: rest, moves := ms }

/-- The same against the reference device, holding `0x77` at `0x10`. -/
def offeringRef (i : Instr) (rest : List CmdWord) (busy : Bool) (ms : List EnvMove) : State :=
  { offering i rest ms with env := .reference, dev := ⟨[(0x10, 0x77)], 0, busy, .none⟩ }

/-- A reply at the spin's first iteration, its byte 0. -/
def now (st : Byte) : Reply :=
  ⟨0, st, 0⟩

/-- A reply after two more iterations. -/
def late (st d : Byte) : Reply :=
  ⟨2, st, d⟩

/-- The replies to a probe. -/
def probed (st addr : Byte) : ProbeReply :=
  ⟨now st, late addr 0, now 0xF8⟩

/-- `START` spinning, its operation in flight. -/
def spinning : State :=
  { inside .start 0 .start 2 .idle with
    ctrl := ⟨false, false, true, false⟩
    inflight := some .opStart
    trace := [.start]
    regLog := [.setClock 1 72, .trigger true false false]
    div := .put 72 }

/-! ### Encoding: the vectors V-ENC -/

theorem test_decode_busEngine :
    decodesTo 0x010000 .init ∧ decodesTo 0x020000 .start ∧ decodesTo 0x030000 .stop ∧
    decodesTo 0x045000 (.txAddr 0x50 .write) ∧ decodesTo 0x045001 (.txAddr 0x50 .read) ∧
    decodesTo 0x040000 (.txAddr 0x00 .write) ∧ decodesTo 0x047F01 (.txAddr 0x7F .read) ∧
    decodesTo 0x051000 (.txByte 0x10) ∧ decodesTo 0x056400 (.txByte 0x64) ∧
    decodesTo 0x060000 .rxAck ∧ decodesTo 0x070000 .rxNak ∧ decodesTo 0x081800 (.decode 0x18) := by
  decide

theorem test_decode_eepromClient :
    decodesTo 0x101064 (.eeWrite 0x10 0x64) ∧ decodesTo 0x111000 (.eeRead 0x10) ∧ decodesTo 0x120000 .eeWait := by
  decide

theorem test_encode_words :
    encode (.txAddr 0x7F .read) = 0x047F01 ∧ encode (.eeWrite 0x10 0x64) = 0x101064 ∧
    encode (.txByte 0x64) = 0x056400 ∧ encode .eeWait = 0x120000 := by
  decide

theorem test_decode_rejects_unassigned :
    rejects 0x000000 (.unassignedOpcode 0x00) ∧ rejects 0x090000 (.unassignedOpcode 0x09) ∧
    rejects 0x130000 (.unassignedOpcode 0x13) ∧ rejects 0xFF0000 (.unassignedOpcode 0xFF) := by
  decide

theorem test_decode_rejects_unusedBits :
    rejects 0x010001 (.unusedBitSet 0x01) ∧ rejects 0x048000 (.unusedBitSet 0x04) ∧
    rejects 0x045002 (.unusedBitSet 0x04) ∧ rejects 0x051001 (.unusedBitSet 0x05) ∧
    rejects 0x111001 (.unusedBitSet 0x11) ∧ rejects 0x120100 (.unusedBitSet 0x12) := by
  decide

theorem test_tableWord_is_the_command_word :
    decodeTableWord 24 0x101064 = some (.eeWrite 0x10 0x64) ∧ decodeTableWord 24 0x000000 = none := by
  decide

/-- R103: both spellings, numerals, a character and the symbols (V-ENC, P1, P2). -/
theorem test_assemble_both_spellings :
    assemble Config.sample "EE_WRITE" [.num 0x10, .chr 'd'] = some (.eeWrite 0x10 0x64) ∧
    assemble Config.sample "write_byte" [.num 0x10, .chr 'd'] = some (.eeWrite 0x10 0x64) ∧
    assemble Config.sample "TXADDR" [.device, .read] = some (.txAddr 0x50 .read) ∧
    assemble Config.sample "TXADDR" [.num 0x80, .read] = none ∧
    assemble Config.sample "wait_until_write_complete" [] = some .eeWait ∧
    assemble Config.sample "EE_READ" [] = none := by
  decide

/-! ### Well-formedness: one ill-formed term for each check -/

theorem test_wellFormed_sample :
    Config.build Config.defaultDivisor Config.defaultBusFreq Params.sample = some Config.sample := by
  decide

/-- R7: the clock rates are positive, whatever the OPEN functions answer. -/
theorem test_illFormed_clocks :
    Config.build (fun _ _ => some 1) (fun _ _ _ => ⟨0, 1⟩) { Params.sample with fScl := 0 } = none ∧
    Config.build (fun _ _ => some 1) (fun _ _ _ => ⟨100000, 1⟩) { Params.sample with fCpu := 0 } = none ∧
    Config.build (fun _ _ => some 1) (fun _ _ _ => ⟨1, 1⟩) { Params.sample with fCpu := 1, fScl := 1 } ≠ none := by
  decide

/-- R8 (a): a prescaler multiplier other than 1. -/
theorem test_illFormed_multiplier :
    Config.build Config.defaultDivisor Config.defaultBusFreq { Params.sample with prescMult := 4 } = none := by
  decide

/-- R8 (b), V-INIT: 10 kHz needs the divisor 792; 2 MHz has none. -/
theorem test_illFormed_divisor :
    Config.build Config.defaultDivisor Config.defaultBusFreq { Params.sample with fScl := 10000 } = none ∧
    Config.build Config.defaultDivisor Config.defaultBusFreq { Params.sample with fScl := 2000000 } = none := by
  decide

/-- R8 (c), V-INIT: 300 kHz is off by 2.56 %, so it needs a tolerance of at least 0.0257. -/
theorem test_illFormed_tolerance :
    Config.build Config.defaultDivisor Config.defaultBusFreq { Params.sample with fScl := 300000 } = none ∧
    (Config.build Config.defaultDivisor Config.defaultBusFreq
      { Params.sample with fScl := 300000, tol := ⟨257, 10000⟩ }).map Config.div = some 18 ∧
    Config.build Config.defaultDivisor Config.defaultBusFreq
      { Params.sample with fScl := 300000, tol := ⟨256, 10000⟩ } = none := by
  decide

/-- R8 (d): an identifier of eight bits. -/
theorem test_illFormed_device :
    Config.build Config.defaultDivisor Config.defaultBusFreq { Params.sample with device := 128 } = none := by
  decide

/-- R93: a primitive on a port that does not expose them. -/
theorem test_illFormed_primitive_on_the_public_port :
    Instr.start.wellFormed { Config.sample with exposePrimitives := false } = false ∧
    (Instr.decode 0).wellFormed { Config.sample with exposePrimitives := false } = false ∧
    Instr.eeWait.wellFormed { Config.sample with exposePrimitives := false } = true := by
  decide

/-- V-INIT: the fastest and the slowest reachable frequency. -/
theorem test_divisor_ends :
    Config.defaultDivisor 16000000 1000000 = some 0 ∧ Config.defaultDivisor 16000000 30418 = some 255 ∧
    Config.defaultDivisor 16000000 400000 = some 12 ∧ Config.defaultDivisor 8000000 100000 = some 32 := by
  decide

/-! ### Operands and flags -/

/-- V-ADDR. -/
theorem test_addrByte :
    addrByte 0x00 .write = 0x00 ∧ addrByte 0x00 .read = 0x01 ∧ addrByte 0x50 .write = 0xA0 ∧
    addrByte 0x50 .read = 0xA1 ∧ addrByte 0x7F .write = 0xFE ∧ addrByte 0x7F .read = 0xFF ∧
    addrByte 0x40 .write = 0x80 ∧ addrByte 0x01 .read = 0x03 := by
  decide

/-- V-DEC, named outcomes. -/
theorem test_outcomeWord_named :
    outcomeWord 0x08 = 0x008 ∧ outcomeWord 0x10 = 0x110 ∧ outcomeWord 0x38 = 0x238 ∧ outcomeWord 0x18 = 0x318 ∧
    outcomeWord 0x20 = 0x420 ∧ outcomeWord 0x28 = 0x528 ∧ outcomeWord 0x30 = 0x630 ∧ outcomeWord 0x40 = 0x740 ∧
    outcomeWord 0x48 = 0x848 ∧ outcomeWord 0x50 = 0x950 ∧ outcomeWord 0x58 = 0xA58 := by
  decide

/-- V-DEC, the catch-all. -/
theorem test_outcomeWord_unrecognized :
    outcomeWord 0x00 = 0xB00 ∧ outcomeWord 0xFF = 0xBFF ∧ outcomeWord 0x19 = 0xB19 ∧ outcomeWord 0x1F = 0xB1F ∧
    outcomeWord 0x09 = 0xB09 ∧ outcomeWord 0x60 = 0xB60 ∧ outcomeWord 0xF8 = 0xBF8 := by
  decide

/-- The trigger images of R53 as 95_test_vectors.md lists them. -/
theorem test_triggerImage :
    triggerImage true false false = 0xA0 ∧ triggerImage false true false = 0x90 ∧
    triggerImage false false false = 0x80 ∧ triggerImage false false true = 0xC0 := by
  decide

/-! ### One command at a time: V-INIT, V-PRIM, V-CONTRACT, V-EE -/

/-- V-INIT, first row: `DIV = 72`, one `SetClock` in `REGLOG`. -/
theorem test_init_programs_72 :
    nextIs (exec .init (inside .init 0 .init 0 .idle)) fun t =>
      t.div = ⟨72, true⟩ ∧ t.presc = 0 ∧ t.regLog = [.setClock 1 72] ∧ t.trace = [] := by
  decide

/-- V-PRIM, row 1: the `CTRL` read image is `0x20` while the START is in flight. -/
theorem test_start_trigger_image :
    nextIs (exec .start (inside .start 0 .start 1 .idle)) fun t =>
      ctrlImage t.ctrl = 0x20 ∧ t.trace = [.start] ∧ t.inflight = some .opStart := by
  decide

/-- V-CONTRACT, row 4: START straight after START. -/
theorem test_start_from_addressPhase :
    nextIs (exec .start (inside .start 0 .start 0 .addressPhase)) fun t =>
      t.faults = [.badPhase .start .addressPhase] ∧ t.phase = .undefined ∧ t.eng = .exec .start 1 := by
  decide

/-- V-PRIM, row 12: image `0x10` in flight. -/
theorem test_stop_trigger_image :
    nextIs (exec .stop (inside .stop 0 .stop 1 .dataWrite)) fun t =>
      ctrlImage t.ctrl = 0x10 ∧ t.trace = [.stop] ∧ t.inflight = some .opStop := by
  decide

/-- R125: STOP polls `STO`, never `TC`. -/
theorem test_stop_polls_sto :
    nextIs (exec .stop { inside .stop 0 .stop 2 .dataWrite with ctrl := ⟨true, false, false, true⟩ })
      (fun t => t.eng = .exec .stop 2) ∧
    nextIs (exec .stop { inside .stop 0 .stop 2 .dataWrite with ctrl := ⟨false, false, false, false⟩ })
      (fun t => t.eng = .exec .stop 3) := by
  decide

/-- R126: `TXADDR 0x50, R` writes `0xA1`. -/
theorem test_txAddr_writes_A1 :
    nextIs (exec (.txAddr 0x50 .read)
      { inside (.txAddr 0x50 .read) 0 .txAddr 1 .addressPhase with opA := .put 0x50, opB := .put 0x01 })
      fun t => t.data = ⟨0xA1, true⟩ ∧ t.regLog = [.writeData 0xA1] ∧ t.trace = [] := by
  decide

/-- V-PRIM, row 6: the phase after `TXADDR _, R`. -/
theorem test_txAddr_ends_in_dataRead :
    nextIs (exec (.txAddr 0x50 .read)
      { inside (.txAddr 0x50 .read) 0 .txAddr 4 .addressPhase with opA := .put 0x50, opB := .put 0x01 })
      fun t => t.phase = .dataRead ∧ t.txn = .idle ∧ t.returns = [.nothing] := by
  decide

/-- V-PRIM, row 8: `TXBYTE 0xFF`. -/
theorem test_txByte_writes_FF :
    nextIs (exec (.txByte 0xFF) { inside (.txByte 0xFF) 0 .txByte 1 .dataWrite with opA := .put 0xFF })
      fun t => t.data = ⟨0xFF, true⟩ ∧ t.regLog = [.writeData 0xFF] := by
  decide

/-- V-CONTRACT, row 1, and P4: the mark is set and the data is still written. -/
theorem test_txByte_from_idle :
    nextIs (exec (.txByte 0x10) { inside (.txByte 0x10) 0 .txByte 0 .idle with opA := .put 0x10 })
      fun t => t.faults = [.badPhase .txByte .idle] ∧ t.phase = .undefined ∧
        nextIs (exec (.txByte 0x10) t) fun t' => t'.data = ⟨0x10, true⟩ := by
  decide

/-- V-PRIM, row 9: `RXACK` sets `EA`; the image in flight is `0x40`. -/
theorem test_rxAck_trigger_image :
    nextIs (exec .rxAck (inside .rxAck 0 .rxAck 1 .dataRead)) fun t =>
      ctrlImage t.ctrl = 0x40 ∧ t.trace = [.rxAck] ∧ t.inflight = some .opRxAck := by
  decide

/-- V-PRIM, row 9: the byte received is `0x2A`; the phase stays. -/
theorem test_rxAck_returns_2A :
    nextIs (exec .rxAck { inside .rxAck 0 .rxAck 3 .dataRead with data := .put 0x2A }) fun t =>
      nextIs (exec .rxAck t) fun t' => t'.returns = [.byte 0x2A] ∧ t'.phase = .dataRead := by
  decide

/-- V-PRIM, row 10: `RXNAK` returns `0x64` and ends the read phase. -/
theorem test_rxNak_returns_64 :
    nextIs (exec .rxNak { inside .rxNak 0 .rxNak 3 .dataRead with data := .put 0x64 }) fun t =>
      nextIs (exec .rxNak t) fun t' => t'.returns = [.byte 0x64] ∧ t'.phase = .dataReadDone := by
  decide

/-- V-CONTRACT, row 6: `RXNAK` in the write phase. -/
theorem test_rxNak_from_dataWrite :
    nextIs (exec .rxNak (inside .rxNak 0 .rxNak 0 .dataWrite)) fun t =>
      t.faults = [.badPhase .rxNak .dataWrite] := by
  decide

/-- V-DEC and R142: `DECODE 0x18` before `INIT`. -/
theorem test_decode_0x18 :
    nextIs (exec (.decode 0x18) { State.reset with
      txn := .run (.decode 0x18) 0, eng := .exec .decode 0, opA := .put 0x18 }) fun t =>
        t.returns = [.outcome 0x318] ∧ t.diags = [.addrWriteAcked] ∧ t.faults = [] ∧ t.trace = [] := by
  decide

/-- R151: step 3 of `EE_WRITE` sends the value, and step 5 returns nothing. -/
theorem test_eeWrite_value_step :
    nextIs (exec (.eeWrite 0x10 0x64) (between (.eeWrite 0x10 0x64) 3))
      (fun t => t.opA = ⟨0x64, true⟩ ∧ t.eng = .exec .txByte 0) ∧
    nextIs (exec (.eeWrite 0x10 0x64) (between (.eeWrite 0x10 0x64) 5))
      (fun t => t.returns = [.nothing] ∧ t.txn = .idle) := by
  decide

/-- R152: step 4 of `EE_READ` addresses for read. -/
theorem test_eeRead_second_address :
    nextIs (exec (.eeRead 0x10) (between (.eeRead 0x10) 4)) fun t =>
      t.opA = ⟨0x50, true⟩ ∧ t.opB = ⟨0x01, true⟩ ∧ t.eng = .exec .txAddr 0 := by
  decide

/-- V-EE: `0x19` is not `0x18` and retries; so does `0x38`; `0x18` ends the loop. -/
theorem test_eeWait_status_test :
    nextIs (exec .eeWait { between .eeWait 2 with status := .put 0x19 })
      (fun t => t.txn = .run .eeWait 3 ∧ t.probes = 1 ∧ t.waitAcked = false) ∧
    nextIs (exec .eeWait { between .eeWait 2 with status := .put 0x38 }) (fun t => t.txn = .run .eeWait 3) ∧
    nextIs (exec .eeWait { between .eeWait 2 with status := .put 0x18 })
      (fun t => t.txn = .run .eeWait 4 ∧ t.probes = 1 ∧ t.waitAcked = true) := by
  decide

/-- V-EE: `POLL_BOUND = 2` is used up by the second probe, not by the first. -/
theorem test_eeWait_bound :
    nextIs (exec .eeWait { between .eeWait 2 with
      status := .put 0x20, cfg := { Config.sample with pollBound := some 2 } })
      (fun t => t.txn = .run .eeWait 3) ∧
    nextIs (exec .eeWait { between .eeWait 2 with
      status := .put 0x20, probes := 1, cfg := { Config.sample with pollBound := some 2 } })
      (fun t => t.txn = .run .eeWait 4 ∧ t.waitAcked = false) := by
  decide

/-! ### The whole step -/

/-- R93, R100 (b): a primitive's word on the public port is refused. -/
theorem test_step_refuses_hidden_primitive :
    refusedWith (step { State.reset with
      port := [0x020000], cfg := { Config.sample with exposePrimitives := false } }) (.primitiveNotExposed "START") := by
  decide

/-- The first step after reset with a word placed accepts it (R91). -/
theorem test_step_accepts_the_placed_word :
    nextIs (step (State.reset.withFetchWord 24 0x101064)) fun t =>
      t.txn = .run (.eeWrite 0x10 0x64) 0 ∧ t.opA = ⟨0x10, true⟩ ∧ t.opB = ⟨0x64, true⟩ ∧ t.port = [] := by
  decide

/-- V-PRIM, row 1: the answer `0x08`; the image becomes `0xA0`. -/
theorem test_step_answer :
    nextIs (step { spinning with moves := [.answer 0x08 0] }) fun t =>
      t.status = ⟨0x08, true⟩ ∧ ctrlImage t.ctrl = 0xA0 ∧ t.inflight = none ∧ t.data.written = false := by
  decide

/-- V-RESET: a power cycle while spinning; the environment is unconstrained afterwards. -/
theorem test_step_powerCycle_while_spinning :
    nextIs (step { spinning with env := .reference, powerCycles := [0] }) fun t =>
      ctrlImage t.ctrl = 0x00 ∧ t.txn = .idle ∧ t.eng = .idle ∧ t.inflight = none ∧ t.inited = false ∧
        t.trace = [] ∧ t.regLog = [] ∧ t.div.written = false ∧ t.env = .arbitrary := by
  decide

/-- R201, R223: the call that a power cycle takes never returns, so its run is never final; a power cycle of an idle block
takes none. -/
theorem test_step_powerCycle_loses_the_call :
    nextIs (step { spinning with powerCycles := [0] }) (fun t => t.lostCalls = 1 ∧ t.final = false) ∧
    nextIs (step { base with powerCycles := [0] }) (fun t => t.lostCalls = 0 ∧ t.final = true) := by
  decide

/-- R82: with no move listed the reference environment answers a START from a free bus, with R77's `0x08`. -/
theorem test_step_reference_always_completes :
    nextIs (step { spinning with env := .reference }) fun t => t.status = ⟨0x08, true⟩ ∧ t.inflight = none := by
  decide

/-! ### The reference device: the statuses of V-EE -/

/-- The status of the device's answer, and the device after it. -/
def answerOf (ph : Phase) (op : BusOp) (dev : Device) : Option (Byte × Device) :=
  match deviceAnswer 0x50 ph op 0xEE 0xEE 0xEE dev with
  | .ok (st, _, dev') => some (st, dev')
  | .error _ => none

/-- R77, R78: START, then addressing, of a device that is free, busy, or another one. -/
theorem test_device_addressing :
    answerOf .idle .opStart ⟨[], 0, false, .wPending 1⟩ = some (0x08, ⟨[], 0, false, .none⟩) ∧
    answerOf .dataWrite .opStart ⟨[], 0, false, .none⟩ = some (0x10, ⟨[], 0, false, .none⟩) ∧
    answerOf .addressPhase (.opAddr 0xA0) ⟨[], 0, false, .none⟩ = some (0x18, ⟨[], 0, false, .wAddr⟩) ∧
    answerOf .addressPhase (.opAddr 0xA1) ⟨[], 0, false, .none⟩ = some (0x40, ⟨[], 0, false, .reading⟩) ∧
    answerOf .addressPhase (.opAddr 0xA0) ⟨[], 0, true, .none⟩ = some (0x20, ⟨[], 0, true, .none⟩) ∧
    answerOf .addressPhase (.opAddr 0xA1) ⟨[], 0, true, .none⟩ = some (0x48, ⟨[], 0, true, .none⟩) ∧
    answerOf .addressPhase (.opAddr 0xA2) ⟨[], 0, false, .none⟩ = some (0x20, ⟨[], 0, false, .none⟩) := by
  decide

/-- R79, R81: the offset, the value, and the store at the STOP; a third data byte is refused. -/
theorem test_device_write :
    answerOf .dataWrite (.opData 0x10) ⟨[], 0, false, .wAddr⟩ = some (0x28, ⟨[], 0x10, false, .wData⟩) ∧
    answerOf .dataWrite (.opData 0x64) ⟨[], 0x10, false, .wData⟩ =
      some (0x28, ⟨[], 0x10, false, .wPending 0x64⟩) ∧
    answerOf .dataWrite .opStop ⟨[], 0x10, false, .wPending 0x64⟩ =
      some (0xEE, ⟨[(0x10, 0x64)], 0x10, true, .none⟩) ∧
    answerOf .dataWrite (.opData 0x00) ⟨[], 0, true, .none⟩ = some (0x30, ⟨[], 0, true, .none⟩) ∧
    answerOf .dataWrite (.opData 0x00) ⟨[], 0, false, .wPending 0x64⟩ = none := by
  decide

/-! ### Witnesses: the hypotheses of the statements can be met -/

theorem witness_DecodedWordIsTheEncoding : decodesTo 0x047F01 (.txAddr 0x7F .read) := by decide

/-- Both the port's side and the step's side. -/
theorem witness_IllegalWordsAreRefused :
    let s := { base with port := [0x045002], powerCycles := [1] }
    s.powerCycles = [1] ∧ s.txn = .idle ∧ s.eng = .idle ∧ s.port = [0x045002] ∧ illegalWord s.cfg 0x045002 = true := by
  decide

theorem witness_StepRunsTheOfferedCommand :
    let s := offering .eeWait [0x010000] []
    s.powerCycles = [] ∧ s.txn = .idle ∧ s.eng = .idle ∧ s.port = [0x120000, 0x010000] ∧
      portDecode s.cfg 0x120000 = .ok .eeWait :=
  ⟨rfl, rfl, rfl, rfl, rfl⟩

theorem witness_StepRunsTheRunningCommand :
    let s := inside .start 0 .start 1 .idle
    let s' := { spinning with moves := [.quiet] }
    (s.powerCycles = [] ∧ s.txn = .run .start 0 ∧ envTurn s = false) ∧
    (s'.powerCycles = [] ∧ s'.txn = .run .start 0 ∧ envTurn s' = true ∧ s'.moves = [.quiet]) := by
  decide

theorem witness_AcceptanceLoadsTheLatches :
    base.txn = .idle ∧ decodesTo 0x120000 .eeWait ∧ decodesTo 0x10FFFF (.eeWrite 0xFF 0xFF) := by
  decide

theorem witness_BusyBlockAcceptsNothing :
    spinning.txn = .run .start 0 ∧ Instr.start ≠ .stop ∧
      nextIs (step { spinning with moves := [.quiet] }) (fun _ => true) ∧ spinning.txn ≠ .idle := by
  decide

theorem witness_IdleBlockWaits :
    base.powerCycles = [] ∧ base.txn = .idle ∧ base.port = [] ∧ envEnabled base = false := by
  decide

theorem witness_PowerCycleResetsTheBlock :
    (({ base with powerCycles := [0, 3] } : State).powerCycles = 0 :: [3] ∧ base.phase = .idle ∧
      base.inflight = none) ∧
    ({ spinning with powerCycles := [0] } : State).powerCycles = 0 :: [] ∧ spinning.inflight ≠ none ∧
    spinning.txn ≠ .idle ∧ ({ base with powerCycles := [0], phase := .dataWrite } : State).phase ≠ .idle := by
  decide

theorem witness_InitProgramsTheDivisor :
    (between .init 0).txn = .run .init 0 ∧ (between .init 0).eng = .idle ∧
    (inside .init 0 .init 0 .idle).eng = .exec .init 0 ∧ (inside .init 0 .init 1 .undefined).eng = .exec .init 1 := by
  decide

/-- A state for each clause of the statement about `START`. -/
theorem witness_StartMicroSteps :
    let s (u : Nat) (ph : Phase) := inside .start 0 .start u ph
    (between .start 0).txn = .run .start 0 ∧ (between .start 0).eng = .idle ∧ (s 0 .idle).txn = .run .start 0 ∧
    ((s 0 .dataReadDone).eng = .exec .start 0 ∧ (s 0 .dataReadDone).inited = true ∧
      (s 0 .dataReadDone).phase = .dataReadDone) ∧
    ((s 1 .idle).eng = .exec .start 1 ∧ (s 1 .idle).inflight = none) ∧
    (spinning.eng = .exec .start 2 ∧ spinning.ctrl.tc = false) ∧
    ({ spinning with ctrl := ⟨true, false, true, false⟩ } : State).ctrl.tc = true ∧
    ((s 3 .dataWrite).eng = .exec .start 3 ∧ (s 3 .dataWrite).phase ≠ .undefined) ∧
    ((s 3 .undefined).eng = .exec .start 3 ∧ (s 3 .undefined).phase = .undefined) := by
  decide

/-- A state for each clause of the statement about `STOP`. -/
theorem witness_StopMicroSteps :
    let s (u : Nat) (ph : Phase) := inside .stop 0 .stop u ph
    (between .stop 0).txn = .run .stop 0 ∧ (between .stop 0).eng = .idle ∧ (s 0 .dataWrite).txn = .run .stop 0 ∧
    ((s 0 .dataReadDone).eng = .exec .stop 0 ∧ (s 0 .dataReadDone).inited = true ∧
      (s 0 .dataReadDone).phase = .dataReadDone) ∧
    ((s 1 .dataWrite).eng = .exec .stop 1 ∧ (s 1 .dataWrite).inflight = none) ∧
    (({ s 2 .dataWrite with ctrl := ⟨false, false, false, true⟩ } : State).eng = .exec .stop 2 ∧
      ({ s 2 .dataWrite with ctrl := ⟨false, false, false, true⟩ } : State).ctrl.sto = true) ∧
    ((s 2 .dataWrite).eng = .exec .stop 2 ∧ (s 2 .dataWrite).ctrl.sto = false) ∧
    ((s 3 .dataWrite).eng = .exec .stop 3 ∧ (s 3 .dataWrite).phase ≠ .undefined) ∧
    (s 3 .undefined).phase = .undefined := by
  decide

/-- A state for each clause of the statement about `TXADDR`, at the ends of its operands' ranges. -/
theorem witness_TxAddrMicroSteps :
    let i : Instr := .txAddr 0x7F .read
    let s (u : Nat) (ph : Phase) : State :=
      { inside i 0 .txAddr u ph with opA := ⟨(0x7F : Addr7).setWidth 8, true⟩, opB := ⟨Dir.read.toBit.setWidth 8, true⟩ }
    (s 0 .addressPhase).txn = .run i 0 ∧ (s 0 .addressPhase).opA = ⟨0x7F, true⟩ ∧
      (s 0 .addressPhase).opB = ⟨0x01, true⟩ ∧ ({ s 0 .addressPhase with eng := .idle } : State).eng = .idle ∧
    ((s 0 .addressPhase).eng = .exec .txAddr 0 ∧ (s 0 .addressPhase).inited = true ∧
      (s 0 .addressPhase).phase = .addressPhase) ∧
    ((s 1 .addressPhase).eng = .exec .txAddr 1 ∧ (s 1 .addressPhase).inflight = none) ∧
    ((s 2 .addressPhase).eng = .exec .txAddr 2 ∧ (s 2 .addressPhase).inflight = none) ∧
    ((s 3 .addressPhase).eng = .exec .txAddr 3 ∧ (s 3 .addressPhase).ctrl.tc = false) ∧
    ({ s 3 .addressPhase with ctrl := ⟨true, false, false, false⟩ } : State).ctrl.tc = true ∧
    ((s 4 .addressPhase).eng = .exec .txAddr 4 ∧ (s 4 .addressPhase).phase ≠ .undefined) ∧
    (s 4 .undefined).phase = .undefined := by
  decide

/-- A state for each clause of the statement about `TXBYTE`. -/
theorem witness_TxByteMicroSteps :
    let s (u : Nat) : State := { inside (.txByte 0xFF) 0 .txByte u .dataWrite with opA := ⟨0xFF, true⟩ }
    (s 0).txn = .run (.txByte 0xFF) 0 ∧ (s 0).opA = ⟨0xFF, true⟩ ∧ ({ s 0 with eng := .idle } : State).eng = .idle ∧
    ((s 0).eng = .exec .txByte 0 ∧ (s 0).inited = true ∧ (s 0).phase = .dataWrite) ∧
    ((s 1).eng = .exec .txByte 1 ∧ (s 1).inflight = none) ∧ ((s 2).eng = .exec .txByte 2 ∧ (s 2).inflight = none) ∧
    ((s 3).eng = .exec .txByte 3 ∧ (s 3).ctrl.tc = false) ∧
    ({ s 3 with ctrl := ⟨true, false, false, false⟩ } : State).ctrl.tc = true ∧ (s 4).eng = .exec .txByte 4 := by
  decide

/-- A state for each clause of the statement about `RXACK`. -/
theorem witness_RxAckMicroSteps :
    let s (u : Nat) : State := inside .rxAck 0 .rxAck u .dataRead
    (between .rxAck 0).txn = .run .rxAck 0 ∧ (between .rxAck 0).eng = .idle ∧ (s 0).txn = .run .rxAck 0 ∧
    ((s 0).eng = .exec .rxAck 0 ∧ (s 0).inited = true ∧ (s 0).phase = .dataRead) ∧
    ((s 1).eng = .exec .rxAck 1 ∧ (s 1).inflight = none) ∧ ((s 2).eng = .exec .rxAck 2 ∧ (s 2).ctrl.tc = false) ∧
    ({ s 2 with ctrl := ⟨true, true, false, false⟩ } : State).ctrl.tc = true ∧
    ((s 3).eng = .exec .rxAck 3 ∧ (s 3).inflight = none) ∧ (s 4).eng = .exec .rxAck 4 := by
  decide

/-- A state for each clause of the statement about `RXNAK`. -/
theorem witness_RxNakMicroSteps :
    let s (u : Nat) : State := inside .rxNak 0 .rxNak u .dataRead
    (between .rxNak 0).txn = .run .rxNak 0 ∧ (between .rxNak 0).eng = .idle ∧ (s 0).txn = .run .rxNak 0 ∧
    ((s 0).eng = .exec .rxNak 0 ∧ (s 0).inited = true ∧ (s 0).phase = .dataRead) ∧
    ((s 1).eng = .exec .rxNak 1 ∧ (s 1).inflight = none) ∧ ((s 2).eng = .exec .rxNak 2 ∧ (s 2).ctrl.tc = false) ∧
    ({ s 2 with ctrl := ⟨true, false, false, false⟩ } : State).ctrl.tc = true ∧
    ((s 3).eng = .exec .rxNak 3 ∧ (s 3).inflight = none) ∧
    ((s 4).eng = .exec .rxNak 4 ∧ (s 4).phase ≠ .undefined) ∧
    ({ s 4 with phase := .undefined } : State).phase = .undefined := by
  decide

theorem witness_DecodeReturnsTheOutcome :
    let s : State := { State.reset with txn := .run (.decode 0xFF) 0, opA := ⟨0xFF, true⟩ }
    s.txn = .run (.decode 0xFF) 0 ∧ s.opA = ⟨0xFF, true⟩ ∧ s.eng = .idle ∧
      ({ s with eng := .exec .decode 0 } : State).eng = .exec .decode 0 := by
  decide

theorem witness_DecoderIsTotalAndInjective :
    (0x19 : Byte) ∉ ([0x08, 0x10, 0x38, 0x18, 0x20, 0x28, 0x30, 0x40, 0x48, 0x50, 0x58] : List Byte) ∧
    (0x00 : Byte) ∉ ([0x08, 0x10, 0x38, 0x18, 0x20, 0x28, 0x30, 0x40, 0x48, 0x50, 0x58] : List Byte) ∧
    decodeStatus 0xFF = decodeStatus 0xFF := by
  decide

/-- A state for each of the three clauses. -/
theorem witness_ContractStepMarksAndGoesOn :
    let s (ph : Phase) := inside .stop 0 .stop 0 ph
    busPrim .stop = some (.stop, .write) ∧ (s .dataRead).txn = .run .stop 0 ∧ (s .dataRead).eng = .exec .stop 0 ∧
    ({ s .idle with inited := false } : State).inited = false ∧
    ((s .dataRead).inited = true ∧ phaseTable .stop .write (s .dataRead).phase = none) ∧
    phaseTable .stop .write (s .dataReadDone).phase ≠ none := by
  decide

/-- The idle block offers the host's command and nothing else stands in its way. -/
theorem offers_offering (i : Instr) (rest : List CmdWord) (ms : List EnvMove) : Offers (offering i rest ms) i rest :=
  ⟨rfl, rfl, rfl, rfl, rfl, rfl⟩

theorem offers_offeringRef (i : Instr) (rest : List CmdWord) (busy : Bool) (ms : List EnvMove) :
    Offers (offeringRef i rest busy ms) i rest :=
  ⟨rfl, rfl, rfl, rfl, rfl, rfl⟩

/-- `EE_WAIT` is offered under every configuration. -/
theorem offers_wait (c : Config) (ms : List EnvMove) : Offers { offering .eeWait [] ms with cfg := c } .eeWait [] where
  txn := rfl
  eng := rfl
  inflight := rfl
  powerCycles := rfl
  port := rfl
  legal := by simp [Instr.wellFormed, Instr.isPublic]

/-- `RXNAK` in the read phase, the spin lasting two iterations, the byte `0x64` received. -/
theorem witness_BusPrimitivesRunToReturn :
    let s : State := { offering .rxNak [] [.quiet, .quiet, .answer 0x58 0x64] with phase := .dataRead }
    busPrim .rxNak = some (.rxNak, .write) ∧ phaseTable .rxNak .write s.phase = some .dataReadDone ∧
      Offers s .rxNak [] ∧ s.inited = true ∧ s.env = .arbitrary ∧
      s.moves = List.replicate 2 EnvMove.quiet ++ (EnvMove.answer 0x58 0x64 :: []) :=
  ⟨rfl, rfl, ⟨rfl, rfl, rfl, rfl, rfl, rfl⟩, rfl, rfl, rfl⟩

theorem witness_EeWriteSteps :
    ∀ k ∈ [0, 1, 2, 3, 4, 5], (between (.eeWrite 0x10 0x64) k).txn = .run (.eeWrite 0x10 0x64) k ∧
      (between (.eeWrite 0x10 0x64) k).eng = .idle := by
  decide

theorem witness_EeReadSteps :
    ∀ k ∈ [0, 1, 2, 3, 4, 5, 6, 7], (between (.eeRead 0x10) k).txn = .run (.eeRead 0x10) k ∧
      (between (.eeRead 0x10) k).eng = .idle := by
  decide

/-- A state for each clause: the statuses at the test, and both values of each switch. -/
theorem witness_EeWaitSteps :
    let s (k : Nat) : State := between .eeWait k
    let c (b : Option Nat) : Config := { Config.sample with pollBound := b }
    (∀ k ∈ [0, 1, 2, 3, 4], (s k).txn = .run .eeWait k ∧ (s k).eng = .idle) ∧
    readStatus { s 2 with status := .put 0x18 } = 0x18 ∧
    (readStatus { s 2 with status := .put 0x19 } ≠ 0x18 ∧ (c (some 1)).pollBound = some 1 ∧ 1 ≤ (s 2).probes + 1) ∧
    (c none).pollBound = none ∧ ((c (some 2)).pollBound = some 2 ∧ (s 2).probes + 1 < 2) ∧
    (s 3).cfg.probeStop = false ∧ ({ Config.sample with probeStop := true } : Config).probeStop = true ∧
    (s 4).cfg.waitFinalStop = false ∧ ({ Config.sample with waitFinalStop := true } : Config).waitFinalStop = true := by
  decide

/-- Step 2 of `EE_WRITE`, in the trigger of its `TXBYTE`, beside the command `TXBYTE`; the last micro-steps of its `START`,
in the undefined phase, and of the STOP with which an `EE_WAIT` returns. -/
theorem witness_TransactionsRunTheirPrimitives :
    let s := inside (.eeWrite 0x10 0x64) 2 .txByte 2 .dataWrite
    let s' := inside (.eeWrite 0x10 0x64) 0 .start 3 .undefined
    let s'' : State := { inside .eeWait 4 .stop 3 .dataWrite with cfg := { Config.sample with waitFinalStop := true } }
    (s.txn = .run (.eeWrite 0x10 0x64) 2 ∧
      tableOf s.cfg (.eeWrite 0x10 0x64) 2 = some (.call .txByte (some 0x10) none (some 3)) ∧
      s.eng = .exec .txByte 2 ∧ (microSteps .txByte)[2]? = some (.trigger false false false) ∧
      tableOf s.cfg (.txByte 0) 0 = some (.call .txByte none none none)) ∧
    (s'.txn = .run (.eeWrite 0x10 0x64) 0 ∧
      tableOf s'.cfg (.eeWrite 0x10 0x64) 0 = some (.call .start none none (some 1)) ∧
      (microSteps .start)[3]? = some .ret ∧ s'.phase = .undefined) ∧
    (s''.txn = .run .eeWait 4 ∧ tableOf s''.cfg .eeWait 4 = some (.call .stop none none none) ∧
      (microSteps .stop)[3]? = some .ret ∧ phaseTable .stop .write s''.phase = some .idle) := by
  decide

theorem witness_TransactionsAreTheirExpansion :
    ((Instr.eeRead 0x10).expansion Config.sample).map (fun prims => prims[4]?) =
      some (some (.txAddr 0x50 .read)) ∧
    (Instr.eeWrite 0x10 0x64).expansion Config.sample ≠ none := by
  decide

theorem witness_EeWriteIssuesItsFiveOperations :
    let rs := [now 0x08, late 0x20 0, now 0x30, late 0x30 0xFF, late 0xF8 0]
    let s := offering (.eeWrite 0xFF 0x00) [] (answers rs ++ [])
    Offers s (.eeWrite 0xFF 0x00) [] ∧ s.inited = true ∧ (s.phase = .idle ∨ s.phase = .dataWrite) ∧
      s.env = .arbitrary ∧ rs.length = 5 ∧ s.moves = answers rs ++ [] :=
  ⟨offers_offering _ _ _, rfl, .inl rfl, rfl, rfl, rfl⟩

theorem witness_EeReadReturnsTheReceivedByte :
    let rs := [now 0x08, now 0x18, now 0x28, now 0x10, late 0x40 0, late 0x58 0x64, now 0x00]
    let s := offering (.eeRead 0x10) [] (answers rs ++ [])
    Offers s (.eeRead 0x10) [] ∧ s.inited = true ∧ (s.phase = .idle ∨ s.phase = .dataWrite) ∧ s.env = .arbitrary ∧
      rs.length = 7 ∧ rs[5]?.map Reply.d = some 0x64 ∧ s.moves = answers rs ++ [] :=
  ⟨offers_offering _ _ _, rfl, .inl rfl, rfl, rfl, rfl, rfl⟩

/-- S4: three probes answered `0x20` and the fourth `0x18`; the reference switches, and both STOPs with a bound that is
not used up. -/
theorem witness_EeWaitProbesUntilAcknowledged :
    let fails := [probed 0x08 0x20, probed 0x10 0x20, probed 0x10 0x20]
    let c : Config := { Config.sample with probeStop := true, waitFinalStop := true, pollBound := some 4 }
    let s := offering .eeWait [] (waitMoves Config.sample fails (probed 0x10 0x18) ++ [])
    let s' : State := { offering .eeWait [] (waitMoves c fails (probed 0x08 0x18) ++ []) with cfg := c }
    (∀ f ∈ fails, f.addr.st ≠ 0x18) ∧ (probed 0x10 0x18).addr.st = 0x18 ∧
    (Offers s .eeWait [] ∧ s.inited = true ∧ (s.phase = .idle ∨ s.phase = .dataWrite) ∧ s.env = .arbitrary ∧
      (∀ b, s.cfg.pollBound = some b → fails.length < b) ∧
      s.moves = waitMoves s.cfg fails (probed 0x10 0x18) ++ []) ∧
    (Offers s' .eeWait [] ∧ s'.env = .arbitrary ∧ (∀ b, s'.cfg.pollBound = some b → fails.length < b) ∧
      s'.moves = waitMoves s'.cfg fails (probed 0x08 0x18) ++ []) :=
  ⟨by decide, rfl, ⟨offers_offering _ _ _, rfl, .inl rfl, rfl, fun b h => absurd h (Option.some_ne_none b).symm, rfl⟩,
    ⟨offers_wait _ _, rfl, fun b h => by obtain rfl := Option.some.inj h; decide, rfl⟩⟩

/-- V-EE: `POLL_BOUND = 2`, with and without the STOPs. -/
theorem witness_EeWaitStopsAtItsBound :
    let c : Config := { Config.sample with pollBound := some 2 }
    let c' : Config := { c with probeStop := true, waitFinalStop := true }
    let fails := [probed 0x08 0x20]
    let s (c : Config) : State :=
      { offering .eeWait [] (waitMoves c fails (probed 0x10 0x38) ++ []) with cfg := c }
    (∀ f ∈ fails, f.addr.st ≠ 0x18) ∧ (probed 0x10 0x38).addr.st ≠ 0x18 ∧
    (Offers (s c) .eeWait [] ∧ (s c).inited = true ∧ ((s c).phase = .idle ∨ (s c).phase = .dataWrite) ∧
      (s c).env = .arbitrary ∧ (s c).cfg.pollBound = some (fails.length + 1) ∧
      (s c).moves = waitMoves (s c).cfg fails (probed 0x10 0x38) ++ []) ∧
    (Offers (s c') .eeWait [] ∧ (s c').cfg.pollBound = some (fails.length + 1) ∧
      (s c').moves = waitMoves (s c').cfg fails (probed 0x10 0x38) ++ []) :=
  ⟨by decide, by decide, ⟨offers_wait _ _, rfl, .inl rfl, rfl, rfl, rfl⟩, offers_wait _ _, rfl, rfl⟩

/-- The arbitrary environment, and the reference device in contract, to a receive. -/
theorem witness_AnswerCompletesTheOperation :
    let s : State := { spinning with moves := [.answer 0x08 0] }
    let s' : State := { inside .rxNak 0 .rxNak 2 .dataRead with
      inflight := some .opRxNak, env := .reference, dev := ⟨[(0x10, 0x64)], 0x10, false, .reading⟩
      moves := [.answer 0 0] }
    (s.powerCycles = [] ∧ s.inflight = some .opStart ∧ BusOp.opStart ≠ .opStop ∧ atSpin s = true ∧
      s.moves = [.answer 0x08 0] ∧ s.env = .arbitrary) ∧
    (s'.powerCycles = [] ∧ s'.inflight = some .opRxNak ∧ atSpin s' = true ∧ s'.moves = [.answer 0 0] ∧
      s'.env = .reference ∧ s'.phase ≠ .undefined ∧
      answerOf s'.phase .opRxNak s'.dev = some (0x58, ⟨[(0x10, 0x64)], 0x10, false, .none⟩)) := by
  decide

/-- Both environments; a device with a value pending, and one without. -/
theorem witness_AnswerReportsTheStopSent :
    let s : State := { inside .stop 0 .stop 2 .dataWrite with
      ctrl := ⟨false, false, false, true⟩, inflight := some .opStop, moves := [.answer 0xF8 0] }
    let s' : State := { s with env := .reference, dev := ⟨[], 0xFF, false, .wPending 0x64⟩ }
    s.powerCycles = [] ∧ s.env = .arbitrary ∧ s.inflight = some .opStop ∧ atSpin s = true ∧
      s.moves = [.answer 0xF8 0] ∧ s'.env = .reference ∧ s'.phase ≠ .undefined ∧ s'.dev.sel = .wPending 0x64 ∧
      ({ s' with dev := ⟨[], 0, true, .none⟩ } : State).dev.sel = .none := by
  decide

/-- The reference device out of contract. -/
theorem witness_OutOfContractAnswersAreFree :
    let s : State := { spinning with env := .reference, phase := .undefined, moves := [.answer 0x58 0x01] }
    s.powerCycles = [] ∧ s.phase = .undefined ∧ s.inflight = some .opStart ∧ atSpin s = true ∧
      s.moves = [.answer 0x58 0x01] := by
  decide

/-- The invariant holds of a block that is spinning, with an operation in flight. -/
theorem witness_inv_spinning : MachineInv spinning where
  seq := ⟨rfl, ⟨none, none, none, rfl⟩, by decide⟩
  flight := by
    refine ⟨fun op h => ?_, by decide, fun p u _ _ h => by simp [spinning] at h⟩
    obtain rfl : BusOp.opStart = op := by simpa [spinning] using h
    exact ⟨rfl, rfl, .start, 2, rfl, rfl⟩
  marks := ⟨List.nodup_nil, by decide⟩
  clock := ⟨rfl, fun _ => rfl⟩
  mem := rfl

/-- A spin of three iterations and then no more moves. -/
theorem witness_SpinHangsWithoutAnAnswer :
    let s : State := { spinning with moves := [.quiet, .quiet, .quiet] }
    MachineInv s ∧ s.powerCycles = [] ∧ s.inflight ≠ none ∧ s.moves = List.replicate 3 EnvMove.quiet ++ [] :=
  ⟨⟨witness_inv_spinning.seq, witness_inv_spinning.flight, witness_inv_spinning.marks, witness_inv_spinning.clock, rfl⟩,
    rfl, by decide, rfl⟩

/-- An answer of each kind: a page write that is refused, and one that is given. -/
theorem witness_ReferenceDeviceConforms :
    (opFits .txByte (.opData 1) = true ∧ phaseTable .txByte .write .dataWrite = some .dataWrite ∧
      answerOf .dataWrite (.opData 1) ⟨[], 0, false, .wPending 0⟩ = none) ∧
    (opFits .txAddr (.opAddr 0xFF) = true ∧ phaseTable .txAddr .read .addressPhase = some .dataRead ∧
      answerOf .addressPhase (.opAddr 0xFF) ⟨[], 0, false, .none⟩ ≠ none) ∧
    (answerOf .dataWrite (.opData 0xFF) ⟨[], 0, true, .none⟩ ≠ none ∧ Sel.none ≠ .reading) := by
  decide

/-- Five replies of the reference environment, whose statuses are the device's but for the STOP's. -/
def fiveReplies : List Reply :=
  [now 0, late 0 0, now 0, late 0 0, late 0xF8 0]

/-- Seven replies, the byte `0xC3` drawn for the receive. -/
def sevenReplies : List Reply :=
  [now 0, late 0 0, now 0, now 0, late 0 0, late 0 0xC3, now 0xF8]

theorem witness_EeWriteStoresInTheDevice :
    let ms := answers fiveReplies ++ (EnvMove.quiet :: [])
    let s := offeringRef (.eeWrite 0xFF 0xFF) [] false ms
    Offers s (.eeWrite 0xFF 0xFF) [] ∧ s.inited = true ∧ (s.phase = .idle ∨ s.phase = .dataWrite) ∧
      s.env = .reference ∧ s.dev.busy = false ∧ Memory.wf s.dev.mem = true ∧ fiveReplies.length = 5 ∧ s.moves = ms :=
  ⟨offers_offeringRef _ _ _ _, rfl, .inl rfl, rfl, rfl, rfl, rfl, rfl⟩

theorem witness_EeWriteToABusyDeviceIsLost :
    let s := offeringRef (.eeWrite 0x10 0x00) [] true (answersWhileBusy fiveReplies ++ [])
    Offers s (.eeWrite 0x10 0x00) [] ∧ s.inited = true ∧ (s.phase = .idle ∨ s.phase = .dataWrite) ∧
      s.env = .reference ∧ s.dev.busy = true ∧ fiveReplies.length = 5 ∧
      s.moves = answersWhileBusy fiveReplies ++ [] :=
  ⟨offers_offeringRef _ _ _ _, rfl, .inl rfl, rfl, rfl, rfl, rfl⟩

theorem witness_EeReadFromABusyDeviceIsADraw :
    let s := offeringRef (.eeRead 0x10) [] true (answersWhileBusy sevenReplies ++ [])
    Offers s (.eeRead 0x10) [] ∧ s.inited = true ∧ (s.phase = .idle ∨ s.phase = .dataWrite) ∧ s.env = .reference ∧
      s.dev.busy = true ∧ sevenReplies.length = 7 ∧ sevenReplies[5]?.map Reply.d = some 0xC3 ∧
      s.moves = answersWhileBusy sevenReplies ++ [] :=
  ⟨offers_offeringRef _ _ _ _, rfl, .inl rfl, rfl, rfl, rfl, rfl, rfl⟩

/-- No move is listed. -/
theorem witness_EeReadReturnsTheDevicesByte :
    let s := offeringRef (.eeRead 0x10) [] false []
    Offers s (.eeRead 0x10) [] ∧ s.inited = true ∧ (s.phase = .idle ∨ s.phase = .dataWrite) ∧ s.env = .reference ∧
      s.dev.busy = false :=
  ⟨offers_offeringRef _ _ _ _, rfl, .inl rfl, rfl, rfl⟩

/-- `RXACK` and `RXNAK` are told apart by `EA`, a START by `STA`, at both ends of the data. -/
theorem witness_TriggerKindFollowsFromFlagsAndPhase :
    isBusPrim .rxAck = true ∧ phaseTable .rxAck .write .dataRead = some .dataRead ∧
      Micro.trigger false false true ∈ microSteps .rxAck ∧
    isBusPrim .stop = true ∧ phaseTable .stop .read .dataReadDone = some .idle ∧
      Micro.trigger false true false ∈ microSteps .stop := by
  decide

/-- The accesses at the ends of the ranges, and an image of each reserved kind. -/
theorem witness_RegisterOperationsAreByteAccesses :
    (true && false) = false ∧ base.inflight = none ∧ (0x7F : Byte).getLsbD 7 = false ∧
    ((0xB0 : Byte).getLsbD 5 = true ∧ (0xB0 : Byte).getLsbD 4 = true) ∧ (0x81 : Byte).extractLsb' 0 4 ≠ 0 ∧
    (0x01 : Byte) ≠ 0 ∧ (1 < 2 ∨ 5 ≤ 1) ∧ (5 < 2 ∨ 5 ≤ 5) := by
  decide

theorem witness_OnlyWellFormedConfigurationsAreBuilt :
    Config.build Config.defaultDivisor Config.defaultBusFreq Params.sample ≠ none ∧
    Config.build Config.defaultDivisor Config.defaultBusFreq Params.sample = some Config.sample := by
  decide

theorem witness_InvIsKeptByEveryStep :
    MachineInv spinning ∧ nextIs (step { spinning with moves := [.answer 0x08 0] }) (fun _ => true) :=
  ⟨witness_inv_spinning, by decide⟩

/-- The two ways to be refused: an illegal word, and a page write to the reference device. -/
theorem witness_InvStatesNeverFault :
    refusedWith (step { base with port := [0x000000] }) (.unassignedOpcode 0) ∧
    refusedWith (step { inside (.txByte 1) 0 .txByte 3 .dataWrite with
      inflight := some (.opData 1), env := .reference, dev := ⟨[], 0, false, .wPending 0⟩, moves := [.answer 0 0] })
      .pageWrite := by
  decide

/-- The public block, its first `START` of `EE_WAIT` spinning. -/
def publicSpin : State :=
  { spinning with
    txn := .run .eeWait 0
    cfg := { Config.sample with exposePrimitives := false }
    moves := [.answer 0x08 0] }

theorem witness_PublicCommandsKeepTheContract :
    publicSpin.cfg.exposePrimitives = false ∧ PublicInv publicSpin ∧ (∀ rest, publicSpin.powerCycles ≠ 0 :: rest) ∧
      nextIs (step publicSpin) (fun _ => true) := by
  refine ⟨rfl, ⟨rfl, rfl, ⟨_, rfl, by decide⟩, fun i k u _ h => ?_⟩, fun _ => by simp [publicSpin, spinning, inside, base, State.reset, State.resetWith], by decide⟩
  simp [publicSpin, spinning, inside] at h

/-- A step that keeps a mark, in the undefined phase. -/
theorem witness_MarksAreSticky :
    let s : State := { inside .start 0 .start 0 .undefined with faults := [.badPhase .stop .idle] }
    nextIs (step s) (fun t => t.faults = [.badPhase .stop .idle, .badPhase .start .undefined]) ∧
      s.powerCycles = [] ∧ s.phase = .undefined := by
  decide

theorem witness_TracesOnlyGrow :
    nextIs (step (inside .start 0 .start 1 .idle)) (fun t => t.trace.length = 1 ∧ t.regLog.length = 1) ∧
    nextIs (step (between (.eeWrite 0 0) 5)) (fun t => t.returns.length = 1) ∧
    base.powerCycles = [] := by
  decide

theorem witness_ConfigurationNeverChanges : nextIs (step base) (fun t => t.cfg = base.cfg) := by decide

/-- The bound's last probe. -/
theorem witness_ProbesStayWithinTheBound :
    let s : State := { between .eeWait 2 with
      cfg := { Config.sample with pollBound := some 2 }, probes := 1, status := .put 0x20 }
    s.cfg.pollBound = some 2 ∧ 1 ≤ 2 ∧ s.probes ≤ 2 ∧ (∀ k, s.txn = .run .eeWait k → k ≤ 3 → s.probes < 2) ∧
      nextIs (step s) (fun t => t.probes = 2) :=
  ⟨rfl, by decide, by decide, fun _ _ _ => by decide, by decide⟩

/-- A next state of `exec` for `INIT`, for `DECODE` and for a bus primitive. -/
theorem witness_CommandsLeaveTheRestUnchanged :
    nextIs (exec .init (inside .init 0 .init 0 .idle)) (fun _ => true) ∧
    nextIs (exec (.decode 0) (inside (.decode 0) 0 .decode 0 .idle)) (fun _ => true) ∧
    nextIs (exec .stop (inside .stop 0 .stop 1 .dataWrite)) (fun _ => true) ∧
    (inside .stop 0 .stop 1 .dataWrite).txn ≠ .idle := by
  decide

/-- The completion of a STOP with a value pending changes one byte. -/
theorem witness_OnlyAStopStoresInTheDevice :
    let s : State := { inside .stop 0 .stop 2 .dataWrite with
      inflight := some .opStop, ctrl := ⟨false, false, false, true⟩, env := .reference,
      dev := ⟨[(0x10, 0x77)], 0x10, false, .wPending 0x64⟩, moves := [.answer 0xF8 0] }
    Memory.wf s.dev.mem = true ∧ nextIs (step s) (fun t => t.dev.mem.read 0x10 ≠ s.dev.mem.read 0x10) := by
  decide

/-! ### Runs that come to rest, and the premises `ENV_LIVE` and `DEV_WRITE_CYCLE_ENDS` -/

/-- A check that a next state passes is passed by some next state. -/
theorem exists_of_nextIs {o : Result} {check : State → Bool} (h : nextIs o check = true) :
    ∃ t, o = .next t ∧ check t = true := by
  cases o with
  | next t => exact ⟨t, rfl, h⟩
  | fault e => simp [nextIs] at h
  | refused r => simp [nextIs] at h

/-- The block is at rest, in a form that can be computed. -/
def atRest (t : State) : Bool :=
  t.txn = .idle && t.port = [] && t.inflight = none && !deviceBusy t && t.powerCycles = []

/-- A run that is seen to come to rest meets both premises. -/
theorem live_of_atRest {n : Nat} {s : State} (hp : s.powerCycles = []) (h : nextIs (runs n s) atRest = true) :
    EnvLive s ∧ DevWriteCycleEnds s := by
  obtain ⟨t, ht, hr⟩ := exists_of_nextIs h
  simp only [atRest, Bool.and_eq_true, decide_eq_true_eq, Bool.not_eq_true'] at hr
  exact live_of_rests hp ht ⟨hr.1.1.1.1, hr.1.1.1.2, hr.1.1.2, hr.1.2, hr.2⟩

/-- `START` offered to an environment that answers it. -/
def liveStart : State :=
  offering .start [] [.answer 0x08 0]

theorem liveStart_rests : nextIs (runs 7 liveStart) atRest = true := by decide

theorem witness_LivePrimitivesReturn :
    busPrim .start = some (.start, .write) ∧ Offers liveStart .start [] ∧ EnvLive liveStart :=
  ⟨rfl, offers_offering _ _ _, (live_of_atRest rfl liveStart_rests).1⟩

/-- Each transaction offered to an environment that answers it, the probe of `EE_WAIT` acknowledged. -/
def liveWrite : State :=
  offering (.eeWrite 0x10 0x64) [] (answers (List.replicate 5 (now 0)))

def liveRead : State :=
  offering (.eeRead 0x10) [] (answers (List.replicate 7 (now 0)))

def liveWait : State :=
  offering .eeWait [] (answers [now 0x08, now 0x18])

/-- A state for each clause; a block at rest for the last. -/
theorem witness_LiveTransactionsReturn :
    (Offers liveWrite (.eeWrite 0x10 0x64) [] ∧ EnvLive liveWrite) ∧
    (Offers liveRead (.eeRead 0x10) [] ∧ EnvLive liveRead) ∧
    (Offers liveWait .eeWait [] ∧ EnvLive liveWait ∧ DevWriteCycleEnds liveWait ∧ liveWait.cfg.pollBound = none) ∧
    (MachineInv State.reset ∧ EnvLive State.reset ∧ DevWriteCycleEnds State.reset) :=
  ⟨⟨offers_offering _ _ _, (live_of_atRest (n := 35) rfl (by decide)).1⟩,
    ⟨offers_offering _ _ _, (live_of_atRest (n := 48) rfl (by decide)).1⟩,
    ⟨offers_offering _ _ _, (live_of_atRest (n := 16) rfl (by decide)).1,
      (live_of_atRest (n := 16) rfl (by decide)).2, rfl⟩,
    ⟨⟨rfl, by simp [FlightInv, State.reset, State.resetWith], by simp [MarkInv, State.reset, State.resetWith],
      by simp [ClockInv, State.reset, State.resetWith], rfl⟩, live_of_atRest (n := 0) rfl (by decide)⟩⟩

/-- The three commands of R157 against the reference device, whose write cycle ends at once and whose later answers are
not listed. -/
def roundTrip : State :=
  offeringRef (.eeWrite 0x10 0x64) (encode .eeWait :: encode (.eeRead 0x10) :: []) false
    (answers fiveReplies ++ [.writeCycleDone])

theorem roundTrip_rests : nextIs (runs 110 roundTrip) atRest = true := by decide

theorem witness_RoundTripReturnsTheByte :
    Offers roundTrip (.eeWrite 0x10 0x64) (encode .eeWait :: encode (.eeRead 0x10) :: []) ∧ roundTrip.inited = true ∧
      (roundTrip.phase = .idle ∨ roundTrip.phase = .dataWrite) ∧ roundTrip.env = .reference ∧
      roundTrip.dev.busy = false ∧ Memory.wf roundTrip.dev.mem = true ∧ roundTrip.cfg.pollBound = none ∧
      DevWriteCycleEnds roundTrip :=
  ⟨offers_offeringRef _ _ _ _, rfl, .inl rfl, rfl, rfl, rfl, rfl, (live_of_atRest rfl roundTrip_rests).2⟩

/-- The public block with the reference device, before its first command and in the spin of its first `START`. -/
theorem witness_ReferenceEnvironmentConformsAndIsLive :
    let s : State := { publicSpin with env := .reference }
    let s' : State := { s with txn := .idle, eng := .idle, inflight := none, ctrl := ⟨false, false, false, false⟩ }
    (MachineInv s ∧ s.env = .reference ∧ s.phase ≠ .undefined ∧ s.powerCycles = [] ∧ s.inflight = some .opStart) ∧
    (s'.cfg.exposePrimitives = false ∧ MachineInv s' ∧ PublicInv s' ∧ s'.env = .reference ∧ s'.txn = .idle ∧
      s'.powerCycles = []) := by
  refine ⟨⟨⟨⟨rfl, ⟨none, none, some 1, rfl⟩, by decide⟩, ?_, witness_inv_spinning.marks, witness_inv_spinning.clock, rfl⟩,
    rfl, by decide, rfl, rfl⟩, rfl, ⟨rfl, ⟨by simp, by decide, by simp⟩, witness_inv_spinning.marks,
      ⟨rfl, fun _ => rfl⟩, rfl⟩, ⟨rfl, rfl, ⟨rfl, .inl rfl⟩, fun i k u h => nomatch h⟩, rfl, rfl, rfl⟩
  exact witness_inv_spinning.flight

end Sys2Proof.Tests
end

section
/-!
PROOFS. The build of a configuration (spec 00_scope.md R7, R8): each check of `Params.wellFormed` said once as a proposition,
R8 (c) over the rationals, and what the built configuration holds.
-/

namespace Sys2Proof

/-- The two truncated differences of `Params.freqOk` add up to the distance. -/
theorem cast_sub_add_sub_eq_abs (m n : Nat) : ((m - n + (n - m) : Nat) : ℚ) = |(m : ℚ) - n| := by
  rcases Nat.le_total m n with h | h
  · rw [Nat.sub_eq_zero_of_le h, Nat.zero_add, Nat.cast_sub h, abs_sub_comm,
      abs_of_nonneg (sub_nonneg.mpr (Nat.cast_le.mpr h))]
  · rw [Nat.sub_eq_zero_of_le h, Nat.add_zero, Nat.cast_sub h,
      abs_of_nonneg (sub_nonneg.mpr (Nat.cast_le.mpr h))]

/-- R8 (c) with both fractions multiplied out. -/
theorem Ratio.abs_sub_le_mul_iff_cleared {f tol : Ratio} (hf : 0 < f.den) (ht : 0 < tol.den) (want : Nat) :
    |(f.num : ℚ) / f.den - want| ≤ (tol.num : ℚ) / tol.den * want ↔
      (f.num - want * f.den + (want * f.den - f.num)) * tol.den ≤ tol.num * (want * f.den) := by
  have hf' : (0 : ℚ) < f.den := Nat.cast_pos.mpr hf
  have ht' : (0 : ℚ) < tol.den := Nat.cast_pos.mpr ht
  have hquot : |(f.num : ℚ) / f.den - want| = |(f.num : ℚ) - (want * f.den : Nat)| / f.den := by
    rw [Nat.cast_mul, div_sub' hf'.ne', abs_div, abs_of_pos hf', mul_comm (f.den : ℚ)]
  rw [← Nat.cast_le (α := ℚ), Nat.cast_mul, cast_sub_add_sub_eq_abs, hquot, div_mul_eq_mul_div,
    div_le_div_iff₀ hf' ht']
  simp only [Nat.cast_mul, mul_assoc]

theorem Params.clocksOk_iff (p : Params) : p.clocksOk = true ↔ 0 < p.fCpu ∧ 0 < p.fScl := by
  simp [Params.clocksOk]

theorem Params.divisorOk_iff (dv : Nat → Nat → Option Nat) (p : Params) :
    p.divisorOk dv = true ↔ ∃ d, dv p.fCpu p.fScl = some d ∧ d < 256 := by
  unfold Params.divisorOk
  cases dv p.fCpu p.fScl <;> simp

/-- R8 (c), once the divisor is defined, as the rule writes it. -/
theorem Params.freqOk_iff {dv : Nat → Nat → Option Nat} {p : Params} {d : Nat} (hd : dv p.fCpu p.fScl = some d)
    (bf : Nat → Nat → Nat → Ratio) :
    p.freqOk dv bf = true ↔
      0 < (bf p.fCpu 1 d).den ∧ 0 < p.tol.den ∧
        |((bf p.fCpu 1 d).num : ℚ) / (bf p.fCpu 1 d).den - p.fScl| ≤ (p.tol.num : ℚ) / p.tol.den * p.fScl := by
  simp only [Params.freqOk, hd, Bool.and_eq_true, decide_eq_true_eq, and_assoc]
  exact and_congr_right fun hf => and_congr_right fun ht => (Ratio.abs_sub_le_mul_iff_cleared hf ht p.fScl).symm

/-- R7 and R8 (a) to (d), the divisor of (b) being the one that (c) speaks of. -/
theorem Params.wellFormed_iff (dv : Nat → Nat → Option Nat) (bf : Nat → Nat → Nat → Ratio) (p : Params) :
    p.wellFormed dv bf = true ↔
      0 < p.fCpu ∧ 0 < p.fScl ∧ p.prescMult = 1 ∧ p.device ≤ 127 ∧ ∃ d, dv p.fCpu p.fScl = some d ∧ d < 256 ∧
        0 < (bf p.fCpu 1 d).den ∧ 0 < p.tol.den ∧
        |((bf p.fCpu 1 d).num : ℚ) / (bf p.fCpu 1 d).den - p.fScl| ≤ (p.tol.num : ℚ) / p.tol.den * p.fScl := by
  simp only [Params.wellFormed, Bool.and_eq_true, Params.clocksOk_iff, Params.multOk, Params.divisorOk_iff,
    Params.deviceOk, decide_eq_true_eq]
  constructor
  · rintro ⟨⟨⟨⟨⟨hcpu, hscl⟩, hmult⟩, d, hd, hlt⟩, hfreq⟩, hdev⟩
    exact ⟨hcpu, hscl, hmult, hdev, d, hd, hlt, (Params.freqOk_iff hd bf).mp hfreq⟩
  · rintro ⟨hcpu, hscl, hmult, hdev, d, hd, hlt, hfreq⟩
    exact ⟨⟨⟨⟨⟨hcpu, hscl⟩, hmult⟩, d, hd, hlt⟩, (Params.freqOk_iff hd bf).mpr hfreq⟩, hdev⟩

theorem Config.build_ne_none_iff (dv : Nat → Nat → Option Nat) (bf : Nat → Nat → Nat → Ratio) (p : Params) :
    Config.build dv bf p ≠ none ↔ p.wellFormed dv bf = true := by
  simp [Config.build]

/-- The two narrowed fields lose nothing, as R8 (b) and (d) bound the divisor and `DEVICE`. -/
theorem Config.build_fields {dv : Nat → Nat → Option Nat} {bf : Nat → Nat → Nat → Ratio} {p : Params} {c : Config}
    (h : Config.build dv bf p = some c) :
    dv p.fCpu p.fScl = some c.div.toNat ∧ c.device.toNat = p.device ∧ c.fCpu = p.fCpu ∧ c.fScl = p.fScl ∧
      c.regBase = p.regBase ∧ c.exposePrimitives = p.exposePrimitives ∧ c.probeStop = p.probeStop ∧
      c.waitFinalStop = p.waitFinalStop ∧ c.pollBound = p.pollBound := by
  have hwf : p.wellFormed dv bf = true := (Config.build_ne_none_iff dv bf p).mp (by simp [h])
  obtain ⟨-, -, -, hdev, d, hd, hlt, -⟩ := (Params.wellFormed_iff dv bf p).mp hwf
  rw [Config.build, if_pos hwf, Option.some.injEq] at h
  subst h
  refine ⟨?_, ?_, rfl, rfl, rfl, rfl, rfl, rfl, rfl⟩
  · simp only [hd, Option.getD_some, BitVec.toNat_ofNat, Nat.mod_eq_of_lt hlt]
  · simp only [BitVec.toNat_ofNat]
    omega

/-- Settles O46: the build tests `Params.wellFormed`, which says R7 and R8, and copies the parameters. -/
theorem onlyWellFormedConfigurationsAreBuilt : Obligations.OnlyWellFormedConfigurationsAreBuilt := by
  intro dv bf p
  exact ⟨(Config.build_ne_none_iff dv bf p).trans (Params.wellFormed_iff dv bf p), fun _ => Config.build_fields⟩

end Sys2Proof
end

section
/-!
PROOFS. A step of the whole machine, said once (spec 00_scope.md R11, 20_memory.md R59): a power cycle, or an act of the
environment or of the block in a state that differs from the one before only outside the block.
-/

namespace Sys2Proof.Machine

/-- `s` with the step counted, but for the host's words, the listed moves and the power cycles to come. -/
def counted (ws : List CmdWord) (ms : List EnvMove) (pcs : List Nat) (s : State) : State :=
  { s with port := ws, moves := ms, powerCycles := pcs, tick := s.tick + 1 }

/-- A move of the environment that is a step is an answer to the operation in flight or the end of the write cycle. -/
theorem envMove_cases (m : EnvMove) (s : State) :
    envMove m s = none ∨ envMove m s = some (.next (writeCycleDone s)) ∨
    ∃ op st d, s.inflight = some op ∧ envMove m s = some (envAnswer op st d s) := by
  cases m with
  | quiet => exact .inl rfl
  | answer st d =>
    cases h : s.inflight with
    | none => exact .inl (by simp [envMove, h])
    | some op => exact .inr (.inr ⟨op, st, d, rfl, by simp [envMove, h]⟩)
  | writeCycleDone => cases h : deviceBusy s <;> simp [envMove, h]

/-- A turn is an answer to the operation in flight, the end of the write cycle, or the block's step. -/
theorem turn_eq (s : State) : ∃ ms,
    (∃ op st d, s.inflight = some op ∧ turn exec s = envAnswer op st d { s with moves := ms }) ∨
    turn exec s = .next (writeCycleDone { s with moves := ms }) ∨
    turn exec s = blockTurn exec { s with moves := ms } := by
  unfold turn
  split
  · refine ⟨s.moves.tail, ?_⟩
    rcases envMove_cases (nextMove s) (dropMove s) with h | h | ⟨op, st, d, hop, h⟩ <;> rw [h]
    · exact .inr (.inr rfl)
    · exact .inr (.inl rfl)
    · exact .inl ⟨op, st, d, hop, rfl⟩
  · exact ⟨s.moves, .inr (.inr rfl)⟩

/-- A step is a power cycle that is due, or a turn. -/
theorem step_eq (s : State) :
    (∃ rest, s.powerCycles = 0 :: rest ∧ step s = .next (powerCycle (setPowerCycles rest (ticked s)))) ∨
    ∃ ms pcs,
      (∃ op st d, s.inflight = some op ∧ step s = envAnswer op st d (counted s.port ms pcs s)) ∨
      step s = .next (writeCycleDone (counted s.port ms pcs s)) ∨
      step s = blockTurn exec (counted s.port ms pcs s) := by
  have of_turn : ∀ pcs, step s = turn exec (setPowerCycles pcs (ticked s)) → ∃ ms pcs,
      (∃ op st d, s.inflight = some op ∧ step s = envAnswer op st d (counted s.port ms pcs s)) ∨
      step s = .next (writeCycleDone (counted s.port ms pcs s)) ∨
      step s = blockTurn exec (counted s.port ms pcs s) := fun pcs h => by
    obtain ⟨ms, ht⟩ := turn_eq (setPowerCycles pcs (ticked s))
    exact ⟨ms, pcs, h ▸ ht⟩
  cases hp : s.powerCycles with
  | nil => exact .inr (of_turn [] (by simp only [step, stepWith, hp]; rw [← hp]; rfl))
  | cons n rest =>
    cases n with
    | zero => exact .inl ⟨rest, rfl, by simp only [step, stepWith, hp]⟩
    | succ n => exact .inr (of_turn (n :: rest) (by simp only [step, stepWith, hp]))

/-- A word that the port accepts is a command that the configuration admits (R93, R100). -/
theorem wellFormed_of_portDecode {cfg : Config} {w : CmdWord} {i : Instr} (h : portDecode cfg w = .ok i) :
    i.wellFormed cfg = true := by
  unfold portDecode at h
  split at h
  · cases h
  · cases h
  · split at h
    · obtain rfl := Except.ok.inj h
      assumption
    · cases h

/-- What a step that answers a next state does. The command of the last case is the running one, or one that the port
has just accepted. -/
theorem step_next_cases {s t : State} (h : step s = .next t) :
    (∃ rest, s.powerCycles = 0 :: rest ∧ t = powerCycle (setPowerCycles rest (ticked s))) ∨
    ∃ ws ms pcs,
      (∃ op st d, s.inflight = some op ∧ envAnswer op st d (counted ws ms pcs s) = .next t) ∨
      t = writeCycleDone (counted ws ms pcs s) ∨
      t = counted ws ms pcs s ∨
      ∃ i, ((∃ k, s.txn = .run i k) ∨ i.wellFormed s.cfg = true) ∧ exec i (counted ws ms pcs s) = .next t := by
  rcases step_eq s with ⟨rest, hp, he⟩ | ⟨ms, pcs, ⟨op, st, d, hop, he⟩ | he | he⟩ <;> rw [he] at h
  · exact .inl ⟨rest, hp, (next_inj h).symm⟩
  · exact .inr ⟨s.port, ms, pcs, .inl ⟨op, st, d, hop, h⟩⟩
  · exact .inr ⟨s.port, ms, pcs, .inr (.inl (next_inj h).symm)⟩
  · rcases blockTurn_cases h with ⟨i, k, hk, hx⟩ | ⟨-, -, rfl⟩ | ⟨w, rest, i, hidle, -, hd, rfl⟩
    · exact .inr ⟨s.port, ms, pcs, .inr (.inr (.inr ⟨i, .inl ⟨k, hk⟩, hx⟩))⟩
    · exact .inr ⟨s.port, ms, pcs, .inr (.inr (.inl rfl))⟩
    · exact .inr ⟨rest, ms, pcs, .inr (.inr (.inr ⟨i, .inr (wellFormed_of_portDecode hd), exec_idle hidle⟩))⟩

end Sys2Proof.Machine
end

section
/-!
PROOFS. The sequencers (spec 10_state.md R32, R33, 40_bus_engine.md R121 to R129): what the lists of micro-steps and
the step tables have in common, and where a micro-step leaves the two sequencers, the flags and the operation in flight.
-/

namespace Sys2Proof.Machine

/-! ### The lists of micro-steps -/

/-- A primitive's last micro-step is the one it returns from: `INITED <- 1`, the decoder's, or `ret`. -/
theorem microSteps_succ_lt {p : Prim} {u : Nat} {m : Micro} (hm : (microSteps p)[u]? = some m)
    (hlast : m ≠ .markInited ∧ m ≠ .decode ∧ m ≠ .ret) : u + 1 < (microSteps p).length := by
  obtain ⟨h1, h2, h3⟩ := hlast
  cases p <;> rcases u with _ | _ | _ | _ | _ | u <;> simp_all [microSteps]

/-- A trigger belongs to a bus primitive, requests a STOP only for `STOP` and then no START, and a spin follows it. -/
theorem microSteps_trigger {p : Prim} {u : Nat} {sta sto ea : Bool}
    (hm : (microSteps p)[u]? = some (.trigger sta sto ea)) :
    isBusPrim p = true ∧ (sta && sto) = false ∧ (sto = true ↔ p = .stop) ∧
      ((microSteps p)[u + 1]? = some .spinTC ∨ (microSteps p)[u + 1]? = some .spinStop) := by
  cases p <;> rcases u with _ | _ | _ | _ | _ | u <;> simp_all [microSteps, isBusPrim]

/-- The first micro-step is no spin for `TC`, and only a trigger is followed by one. -/
theorem microSteps_spinTC {p : Prim} {u : Nat} (hm : (microSteps p)[u]? = some .spinTC) :
    p ≠ .stop ∧ ∃ v sta sto ea, u = v + 1 ∧ (microSteps p)[v]? = some (.trigger sta sto ea) := by
  cases p <;> rcases u with _ | _ | _ | _ | _ | u <;> simp_all [microSteps]

/-- Only `STOP` spins for the stop pending flag. -/
theorem microSteps_spinStop {p : Prim} {u : Nat} (hm : (microSteps p)[u]? = some .spinStop) : p = .stop := by
  cases p <;> rcases u with _ | _ | _ | _ | _ | u <;> simp_all [microSteps]

/-- The clock registers are written by the first micro-step of `INIT`. -/
theorem microSteps_init {u : Nat} {m : Micro} (hm : (microSteps .init)[u]? = some m) :
    (u = 0 ∧ m = .setClock) ∨ (u = 1 ∧ m = .markInited) := by
  rcases u with _ | _ | u <;> simp_all [microSteps]

theorem microSteps_markInited {p : Prim} {u : Nat} (hm : (microSteps p)[u]? = some .markInited) :
    p = .init ∧ u = 1 := by
  cases p <;> rcases u with _ | _ | _ | _ | _ | u <;> simp_all [microSteps]

/-- The operation that a primitive triggers is one of its own. -/
theorem opFits_of_kindOf {p : Prim} {b : Byte} {op : BusOp} (h : kindOf p b = some op) : opFits p op = true := by
  cases p <;> simp [kindOf] at h <;> subst h <;> rfl

theorem kindOf_of_isBusPrim {p : Prim} (b : Byte) (h : isBusPrim p = true) : ∃ op, kindOf p b = some op := by
  cases p <;> simp [isBusPrim, kindOf] at h ⊢

/-- Of an operation in flight, only `STOP`'s is a STOP. -/
theorem opFits_stop {p : Prim} {op : BusOp} (h : opFits p op = true) : op = .opStop ↔ p = .stop := by
  cases p <;> cases op <;> simp [opFits] at h ⊢

/-! ### The step tables -/

/-- The steps that an action of a table leads to within the table. -/
def Action.targets : Action → List Nat
  | .call _ _ _ (some k) => [k]
  | .call _ _ _ none => []
  | .test exit again => [exit, again]
  | .jump k => [k]
  | .ret => []

/-- How many steps a command's table has (R32, R151 to R153). -/
def tableLength : Instr → Nat
  | .init | .start | .stop | .txAddr _ _ | .txByte _ | .rxAck | .rxNak | .decode _ => 1
  | .eeWrite _ _ => 6
  | .eeRead _ => 8
  | .eeWait => 5

theorem tableOf_ne_none_iff {cfg : Config} {i : Instr} {k : Nat} : tableOf cfg i k ≠ none ↔ k < tableLength i := by
  cases i with
  | init | start | stop | txAddr _ _ | txByte _ | rxAck | rxNak | decode _ =>
    cases k <;> simp [tableOf, primTable, tableLength]
  | eeWrite _ _ => rcases k with _ | _ | _ | _ | _ | _ | k <;> simp [tableOf, eeWriteTable, tableLength]
  | eeRead _ =>
    rcases k with _ | _ | _ | _ | _ | _ | _ | _ | k <;> simp [tableOf, eeReadTable, tableLength]
  | eeWait => rcases k with _ | _ | _ | _ | _ | k <;> simp [tableOf, eeWaitTable, tableLength]

/-- Every command has a first step. -/
theorem tableOf_zero (cfg : Config) (i : Instr) : tableOf cfg i 0 ≠ none :=
  tableOf_ne_none_iff.2 (by cases i <;> simp [tableLength])

/-- A table leads only to steps of its own (R32). -/
theorem tableOf_targets {cfg : Config} {i : Instr} {k n : Nat} {act : Action} (h : tableOf cfg i k = some act)
    (hn : n ∈ act.targets) : tableOf cfg i n ≠ none := by
  rw [tableOf_ne_none_iff]
  have hk : k < tableLength i := (tableOf_ne_none_iff (cfg := cfg)).1 (by simp [h])
  cases i with
  | init | start | stop | txAddr _ _ | txByte _ | rxAck | rxNak | decode _ =>
    obtain rfl : k = 0 := by simpa [tableLength] using hk
    obtain rfl := Option.some.inj h
    simp [Action.targets] at hn
  | eeWrite _ _ =>
    simp only [tableLength] at hk ⊢
    interval_cases k <;> obtain rfl := Option.some.inj h <;> simp [Action.targets, callAddr] at hn <;> omega
  | eeRead _ =>
    simp only [tableLength] at hk ⊢
    interval_cases k <;> obtain rfl := Option.some.inj h <;> simp [Action.targets, callAddr] at hn <;> omega
  | eeWait =>
    simp only [tableLength] at hk ⊢
    interval_cases k <;> obtain rfl := Option.some.inj h <;> cases hp : cfg.probeStop <;>
      cases hw : cfg.waitFinalStop <;> simp [Action.targets, callAddr, hp, hw] at hn <;> omega

/-! ### A micro-step -/

/-- The micro-step at `u` is no spin that still waits for its flag (R121). -/
def SpinPast (p : Prim) (u : Nat) (s : State) : Prop :=
  ((microSteps p)[u]? = some .spinTC → s.ctrl.tc = true) ∧ ((microSteps p)[u]? = some .spinStop → s.ctrl.sto = false)

/-- Where the micro-step numbered `u` of `p` leaves the two sequencers, the flags and the operation in flight. -/
inductive MicroMove (p : Prim) (u : Nat) (i : Instr) (next : Option Nat) (s : State) : State → Prop
  /-- The spin repeats. -/
  | spins : MicroMove p u i next s s
  /-- A trigger starts an operation. -/
  | triggers {sta sto ea : Bool} {op : BusOp} (hm : (microSteps p)[u]? = some (.trigger sta sto ea))
      (hk : kindOf p (dataValue s) = some op) : MicroMove p u i next s (advance p u (triggered op sta sto ea s))
  /-- The primitive goes on to its next micro-step, which is no spin for `TC`. -/
  | goesOn {t : State} (past : SpinPast p u s) (inflight : t.inflight = s.inflight) (ctrl : t.ctrl = s.ctrl)
      (txn : t.txn = s.txn) (eng : t.eng = .exec p (u + 1)) (lt : u + 1 < (microSteps p).length)
      (noSpin : (microSteps p)[u + 1]? ≠ some .spinTC) : MicroMove p u i next s t
  /-- The primitive returns. -/
  | returns {t : State} (past : SpinPast p u s) (inflight : t.inflight = s.inflight) (ctrl : t.ctrl = s.ctrl)
      (txn : t.txn = (leaveTo i next s).txn) (eng : t.eng = .idle) : MicroMove p u i next s t

theorem runMicro_move {m : Micro} {p : Prim} {u : Nat} {i : Instr} {next : Option Nat} {s t : State}
    (hm : (microSteps p)[u]? = some m) (h : runMicro m p u (leaveTo i next) s = .next t) :
    MicroMove p u i next s t := by
  have past : (m = .spinTC → s.ctrl.tc = true) → (m = .spinStop → s.ctrl.sto = false) → SpinPast p u s :=
    fun hTC hStop => ⟨fun h => hTC (Option.some.inj (hm.symm.trans h)), fun h => hStop (Option.some.inj (hm.symm.trans h))⟩
  have noSpin : (∀ sta sto ea, m ≠ .trigger sta sto ea) → (microSteps p)[u + 1]? ≠ some .spinTC := fun hno hspin => by
    obtain ⟨-, v, sta, sto, ea, hv, htrig⟩ := microSteps_spinTC hspin
    obtain rfl : u = v := by omega
    exact hno sta sto ea (Option.some.inj (hm.symm.trans htrig))
  have hc := runMicro_cases h
  cases m with
  | markInited | decode | ret =>
    obtain rfl : t = _ := by simpa using hc
    exact .returns (past (by simp) (by simp)) (by simp) (by simp) (by simp) (by simp)
  | trigger sta sto ea =>
    obtain ⟨r, hr, hadv⟩ := andThen_next.1 h
    obtain ⟨op, hk, -, -, rfl⟩ := trigger_next.1 hr
    obtain rfl := next_inj hadv
    exact .triggers hm hk
  | contract | setClock =>
    obtain rfl : t = _ := by simpa using hc
    exact .goesOn (past (by simp) (by simp)) (by simp) (by simp) (by simp) (by simp)
      (microSteps_succ_lt hm (by simp)) (noSpin (by simp))
  | writeAddr | writeData | readData =>
    obtain ⟨-, rfl⟩ : _ ∧ t = _ := by simpa using hc
    exact .goesOn (past (by simp) (by simp)) (by simp) (by simp) (by simp) (by simp)
      (microSteps_succ_lt hm (by simp)) (noSpin (by simp))
  | spinTC | spinStop =>
    obtain ⟨hflag, rfl⟩ | ⟨-, rfl⟩ : (_ ∧ t = _) ∨ (_ ∧ t = s) := by simpa using hc
    · exact .goesOn (past (by simp [hflag]) (by simp [hflag])) (by simp) (by simp) (by simp) (by simp)
        (microSteps_succ_lt hm (by simp)) (noSpin (by simp))
    · exact .spins

end Sys2Proof.Machine
end

section
/-!
PROOFS. What every step of the machine does to the contract marks (spec 10_state.md R37, 40_bus_engine.md R132), to the
logs and the return values (R39, R99), and to the configuration (R21).
-/

namespace Sys2Proof.Machine

/-! ### Marks (R37, R132) -/

/-- What a step does to `FAULT` and to the phase: nothing that touches `Undefined`, or it raises a contract mark. -/
def MarksMove (s t : State) : Prop :=
  (t.faults = s.faults ∧ (t.phase = .undefined ↔ s.phase = .undefined)) ∨
  ∃ c, t.faults = (raiseContract c s).faults ∧ t.phase = .undefined

theorem MarksMove.of_same {s t : State} (hf : t.faults = s.faults) (hp : t.phase = s.phase) : MarksMove s t :=
  .inl ⟨hf, by rw [hp]⟩

theorem contractStep_marks (p : Prim) (s : State) : MarksMove s (contractStep p s) := by
  unfold contractStep
  split
  · exact .inr ⟨_, rfl, rfl⟩
  · split
    · exact .of_same rfl rfl
    · exact .inr ⟨_, rfl, rfl⟩

/-- No primitive's return leads into `Undefined`, nor out of it. -/
theorem setPhase_marks (p : Prim) (d : Dir) (s : State) : MarksMove s (setPhase (endPhase p d) s) := by
  refine .inl ⟨by simp, ?_⟩
  cases p <;> cases d <;> by_cases h : s.phase = .undefined <;> simp [endPhase, h]

theorem runMicro_marks {m : Micro} {p : Prim} {u : Nat} {i : Instr} {next : Option Nat} {s t : State}
    (h : runMicro m p u (leaveTo i next) s = .next t) : MarksMove s t := by
  have hc := runMicro_cases h
  cases m with
  | contract =>
    obtain rfl : t = _ := by simpa using hc
    exact contractStep_marks p s
  | ret =>
    obtain rfl : t = _ := by simpa using hc
    have hmarks := setPhase_marks p (opDir s) s
    simpa [MarksMove] using hmarks
  | setClock | markInited | decode =>
    obtain rfl : t = _ := by simpa using hc
    exact .of_same (by simp) (by simp)
  | writeAddr | writeData | readData =>
    obtain ⟨-, rfl⟩ : _ ∧ t = _ := by simpa using hc
    exact .of_same (by simp) (by simp)
  | trigger sta sto ea =>
    obtain ⟨r, hr, hadv⟩ := andThen_next.1 h
    obtain ⟨op, -, -, -, rfl⟩ := trigger_next.1 hr
    obtain rfl := next_inj hadv
    exact .of_same rfl rfl
  | spinTC | spinStop =>
    obtain ⟨-, rfl⟩ | ⟨-, rfl⟩ : (_ ∧ t = _) ∨ (_ ∧ t = s) := by simpa using hc
    · exact .of_same rfl rfl
    · exact .of_same rfl rfl

theorem exec_marks {i : Instr} {s t : State} (h : exec i s = .next t) : MarksMove s t := by
  rcases exec_cases h with ⟨-, rfl⟩ | ⟨j, k, -, -, rfl⟩ | ⟨k, act, -, -, -, rfl⟩ | hm
  · exact .of_same (by unfold onAccept; split <;> rfl) (by unfold onAccept; split <;> rfl)
  · exact .of_same rfl rfl
  · cases act <;> exact .of_same (by simp [startAction]) (by simp [startAction])
  · obtain ⟨k, p, a, b, next, u, m, -, -, -, -, h'⟩ := hm
    exact runMicro_marks h'

/-- An answer of the environment completes the operation, whatever becomes of the environment. -/
theorem envAnswer_finishOp {op : BusOp} {st d : Byte} {s t : State} (h : envAnswer op st d s = .next t) :
    ∃ st' d' s', t = finishOp op st' d' s' ∧
      (s' = freeEnv s ∨ ∃ dev', s' = setDev dev' s ∧ (s.dev.mem.wf = true → dev'.mem.wf = true)) := by
  rcases envAnswer_cases h with ⟨-, ht⟩ | ⟨st', d', dev', ht, -, -, hdev⟩
  · exact ⟨st, d, freeEnv s, ht, .inl rfl⟩
  · exact ⟨st', d', setDev dev' s, ht, .inr ⟨dev', rfl, fun hwf => deviceAnswer_wf hwf hdev⟩⟩

theorem step_marks {s t : State} (h : step s = .next t) (hp : ∀ rest, s.powerCycles ≠ 0 :: rest) : MarksMove s t := by
  rcases step_next_cases h with ⟨rest, h0, -⟩ | ⟨ws, ms, pcs, ⟨op, st, d, -, ha⟩ | rfl | rfl | ⟨i, -, hx⟩⟩
  · exact absurd h0 (hp rest)
  · obtain ⟨st', d', s', rfl, rfl | ⟨dev', rfl, -⟩⟩ := envAnswer_finishOp ha <;>
      exact .of_same (by simp [counted]) (by simp [counted])
  · exact .of_same rfl rfl
  · exact .of_same rfl rfl
  · exact exec_marks (s := counted ws ms pcs s) hx

/-- Settles O52: a step makes a `MarksMove`, and a raised mark stands at the end. -/
theorem marksAreSticky : Obligations.MarksAreSticky := by
  intro s t h hp
  obtain ⟨hf, hphase⟩ | ⟨c, hf, hphase⟩ := step_marks h hp
  · exact ⟨⟨[], by simp [hf]⟩, hphase.2⟩
  · refine ⟨?_, fun _ => hphase⟩
    rw [hf, raiseContract_faults]
    split
    · exact ⟨[], by simp⟩
    · exact ⟨[c], rfl⟩

/-! ### The logs (R39, R99) -/

/-- `l'` is `l` with at most one entry more, at the end. -/
def GrowsByOne {α : Type} (l l' : List α) : Prop :=
  ∃ new, l' = l ++ new ∧ new.length ≤ 1

@[simp] theorem GrowsByOne.refl {α : Type} (l : List α) : GrowsByOne l l := ⟨[], by simp⟩

@[simp] theorem GrowsByOne.append {α : Type} (l : List α) (x : α) : GrowsByOne l (l ++ [x]) := ⟨[x], by simp⟩

/-- The two logs and the host's return values. -/
def LogsGrow (s t : State) : Prop :=
  GrowsByOne s.returns t.returns ∧ GrowsByOne s.trace t.trace ∧ GrowsByOne s.regLog t.regLog

theorem runMicro_logs {m : Micro} {p : Prim} {u : Nat} {i : Instr} {next : Option Nat} {s t : State}
    (h : runMicro m p u (leaveTo i next) s = .next t) : LogsGrow s t := by
  have hc := runMicro_cases h
  cases m with
  | contract | setClock =>
    obtain rfl : t = _ := by simpa using hc
    simp [LogsGrow]
  | markInited | decode | ret =>
    obtain rfl : t = _ := by simpa using hc
    cases next <;> simp [LogsGrow]
  | writeAddr | writeData | readData =>
    obtain ⟨-, rfl⟩ : _ ∧ t = _ := by simpa using hc
    simp [LogsGrow]
  | trigger sta sto ea =>
    obtain ⟨r, hr, hadv⟩ := andThen_next.1 h
    obtain ⟨op, -, -, -, rfl⟩ := trigger_next.1 hr
    obtain rfl := next_inj hadv
    simp [LogsGrow]
  | spinTC | spinStop =>
    obtain ⟨-, rfl⟩ | ⟨-, rfl⟩ : (_ ∧ t = _) ∨ (_ ∧ t = s) := by simpa using hc
    · simp [LogsGrow]
    · simp [LogsGrow]

theorem exec_logs {i : Instr} {s t : State} (h : exec i s = .next t) : LogsGrow s t := by
  rcases exec_cases h with ⟨-, rfl⟩ | ⟨j, k, -, -, rfl⟩ | ⟨k, act, -, -, -, rfl⟩ |
    ⟨k, p, a, b, next, u, m, -, -, -, -, hrun⟩
  · unfold onAccept
    split <;> simp [LogsGrow]
  · simp [LogsGrow]
  · cases act <;> simp [LogsGrow, startAction]
  · exact runMicro_logs hrun

/-- Settles O53: but for a power cycle, only the block's own step writes the logs. -/
theorem tracesOnlyGrow : Obligations.TracesOnlyGrow := by
  intro s t h
  have ofLogs : LogsGrow s t → GrowsByOne s.returns t.returns ∧
      ((∀ rest, s.powerCycles ≠ 0 :: rest) → GrowsByOne s.trace t.trace ∧ GrowsByOne s.regLog t.regLog) :=
    fun hl => ⟨hl.1, fun _ => hl.2⟩
  rcases step_next_cases h with ⟨rest, h0, rfl⟩ | ⟨ws, ms, pcs, ⟨op, st, d, -, ha⟩ | rfl | rfl | ⟨i, -, hx⟩⟩
  · exact ⟨GrowsByOne.refl s.returns, fun hp => absurd h0 (hp rest)⟩
  · obtain ⟨st', d', s', rfl, rfl | ⟨dev', rfl, -⟩⟩ := envAnswer_finishOp ha <;>
      exact ofLogs (by simp [LogsGrow, counted])
  · exact ofLogs (by simp [LogsGrow, counted])
  · exact ofLogs (by simp [LogsGrow, counted])
  · exact ofLogs (exec_logs (s := counted ws ms pcs s) hx)

/-! ### The configuration (R21) -/

/-- Settles O54: no command reaches the configuration, and neither do the environment and a power cycle. -/
theorem configurationNeverChanges : Obligations.ConfigurationNeverChanges := by
  intro s t h
  rcases step_next_cases h with ⟨rest, -, rfl⟩ | ⟨ws, ms, pcs, ⟨op, st, d, -, ha⟩ | rfl | rfl | ⟨i, -, hx⟩⟩
  · rfl
  · obtain ⟨st', d', s', rfl, rfl | ⟨dev', rfl, -⟩⟩ := envAnswer_finishOp ha <;> simp [counted]
  · rfl
  · rfl
  · obtain ⟨-, -, -, -, -, -, -, hcfg, -⟩ := exec_frame hx
    exact hcfg

end Sys2Proof.Machine
end

section
/-!
PROOFS. The invariant of the machine, `MachineInv`: it holds at reset (spec 10_state.md R44), every step keeps it, and
from it no step faults (R32, R33, R36, R37, R73).
-/

namespace Sys2Proof.Machine

/-! ### The sequencers (R32, R33) -/

/-- The step after a probe is one of the two that the table names (R153). -/
theorem probeTest_txn (i : Instr) (exit again : Nat) (s : State) :
    ∃ n ∈ (Action.test exit again).targets, (probeTest i exit again s).txn = .run i n := by
  unfold probeTest
  split
  · exact ⟨exit, by simp [Action.targets], rfl⟩
  · split
    · exact ⟨exit, by simp [Action.targets], rfl⟩
    · exact ⟨again, by simp [Action.targets], rfl⟩

theorem SeqInv.of_idle {s : State} (ht : s.txn = .idle) (he : s.eng = .idle) : SeqInv s := by
  simp [SeqInv, ht, he]

theorem SeqInv.of_between {s : State} {i : Instr} {k : Nat} (hw : i.wellFormed s.cfg = true) (ht : s.txn = .run i k)
    (he : s.eng = .idle) (hk : tableOf s.cfg i k ≠ none) : SeqInv s := by
  simp [SeqInv, ht, he, hw, hk]

theorem SeqInv.of_within {s : State} {i : Instr} {k u : Nat} {p : Prim} {a b : Option Byte} {next : Option Nat}
    (hw : i.wellFormed s.cfg = true) (ht : s.txn = .run i k) (he : s.eng = .exec p u)
    (hk : tableOf s.cfg i k = some (.call p a b next)) (hu : u < (microSteps p).length) : SeqInv s := by
  simp [SeqInv, ht, he, hw, hk, hu]

theorem SeqInv.eng_of_idle {s : State} (h : SeqInv s) (ht : s.txn = .idle) : s.eng = .idle := by
  simpa [SeqInv, ht] using h

theorem SeqInv.wellFormed {s : State} {i : Instr} {k : Nat} (h : SeqInv s) (ht : s.txn = .run i k) :
    i.wellFormed s.cfg = true := by
  simp only [SeqInv, ht] at h
  exact h.1

/-- The start of a table's action leads to a step of the table, or into the primitive that the action calls. -/
theorem seqInv_startAction {s : State} {i : Instr} {k : Nat} {act : Action} (hw : i.wellFormed s.cfg = true)
    (ht : s.txn = .run i k) (ha : tableOf s.cfg i k = some act) (he : s.eng = .idle) :
    SeqInv (startAction i act s) := by
  cases act with
  | call p a b next => exact .of_within (u := 0) hw ht rfl ha (by cases p <;> decide)
  | test exit again =>
    obtain ⟨n, hn, htxn⟩ := probeTest_txn i exit again s
    exact .of_between (by simpa [startAction] using hw) htxn (by simpa [startAction] using he)
      (by simpa [startAction] using tableOf_targets ha hn)
  | jump n => exact .of_between hw rfl he (tableOf_targets ha (by simp [Action.targets]))
  | ret => exact .of_idle rfl rfl

/-! ### The operation in flight and the flags (R24, R25, R36) -/

theorem flightInv_of_none {s : State} (hi : s.inflight = none) (hsto : s.ctrl.sto = false)
    (he : ∀ p u, s.eng = .exec p u → (microSteps p)[u]? ≠ some .spinTC) : FlightInv s :=
  ⟨by simp [hi], by simp [hi, hsto], fun p u hpu hspin => absurd hspin (he p u hpu)⟩

theorem FlightInv.sto_of_none {s : State} (h : FlightInv s) (hi : s.inflight = none) : s.ctrl.sto = false := by
  simpa [hi] using h.2.1

/-- Between two primitives nothing is in flight. -/
theorem FlightInv.none_of_idle {s : State} (h : FlightInv s) (he : s.eng = .idle) : s.inflight = none := by
  cases hi : s.inflight with
  | none => rfl
  | some op => simpa [atSpin, he] using (h.1 op hi).1

/-- Inside a primitive nothing is in flight, but at a spin that waits. -/
theorem FlightInv.none_of_spinPast {s : State} {p : Prim} {u : Nat} (h : FlightInv s) (he : s.eng = .exec p u)
    (ho : SpinPast p u s) : s.inflight = none := by
  cases hi : s.inflight with
  | none => rfl
  | some op =>
    obtain ⟨hspin, htc, q, v, hq, hfits⟩ := h.1 op hi
    obtain ⟨rfl, rfl⟩ : p = q ∧ u = v := by simpa [he] using hq
    have hspin : (microSteps p)[u]? = some .spinTC ∨ (microSteps p)[u]? = some .spinStop := by
      simpa [atSpin, he] using hspin
    rcases hspin with hTC | hStop
    · simp [ho.1 hTC] at htc
    · have hop : op = .opStop := (opFits_stop hfits).2 (microSteps_spinStop hStop)
      have hsto : s.ctrl.sto = true := h.2.1.2 (by rw [hi, hop])
      simp [ho.2 hStop] at hsto

/-- A trigger starts an operation of its own primitive, at whose spin the engine then stands. -/
theorem flightInv_triggered {p : Prim} {u : Nat} {sta sto ea : Bool} {op : BusOp} {b : Byte} {s : State}
    (hm : (microSteps p)[u]? = some (.trigger sta sto ea)) (hk : kindOf p b = some op) :
    FlightInv (advance p u (triggered op sta sto ea s)) := by
  obtain ⟨-, -, hsto, hspin⟩ := microSteps_trigger hm
  have hfits := opFits_of_kindOf hk
  refine ⟨fun op' hop => ?_, ?_, by simp⟩
  · obtain rfl : op = op' := by simpa using hop
    exact ⟨by simpa [atSpin] using hspin, rfl, p, u + 1, rfl, hfits⟩
  · simp [triggeredCtrl, hsto, opFits_stop hfits]

theorem FlightInv.of_microMove {p : Prim} {u : Nat} {i : Instr} {next : Option Nat} {s t : State} (h : FlightInv s)
    (he : s.eng = .exec p u) (hmove : MicroMove p u i next s t) : FlightInv t := by
  cases hmove with
  | spins => exact h
  | triggers hm hk => exact flightInv_triggered hm hk
  | goesOn past inflight ctrl txn eng lt noSpin =>
    have hi := h.none_of_spinPast he past
    refine flightInv_of_none (inflight.trans hi) (ctrl ▸ h.sto_of_none hi) fun q v hq => ?_
    obtain ⟨rfl, rfl⟩ : p = q ∧ u + 1 = v := by simpa [eng] using hq
    exact noSpin
  | returns past inflight ctrl txn eng =>
    have hi := h.none_of_spinPast he past
    exact flightInv_of_none (inflight.trans hi) (ctrl ▸ h.sto_of_none hi) (by simp [eng])

/-- A completion clears the operation and sets the flag that its spin waits for (R61, R62). -/
theorem FlightInv.of_finishOp {op : BusOp} {s : State} (h : FlightInv s) (hop : s.inflight = some op) (st d : Byte) :
    FlightInv (finishOp op st d s) := by
  obtain ⟨hown, hsto, -⟩ := h
  obtain ⟨-, -, p, u, he, hfits⟩ := hown op hop
  by_cases hstop : op = .opStop
  · refine ⟨by simp, by simp [hstop], fun q v hq hspin => ?_⟩
    obtain ⟨rfl, rfl⟩ : p = q ∧ u = v := by simpa [he] using hq
    exact absurd ((opFits_stop hfits).1 hstop) (microSteps_spinTC hspin).1
  · exact ⟨by simp, by simpa [hstop, hop] using hsto, by simp [hstop]⟩

/-! ### Marks (R37, R132) and the clock registers (R22, R38, R122) -/

theorem MarkInv.of_marksMove {s t : State} (h : MarkInv s) (hm : MarksMove s t) : MarkInv t := by
  obtain ⟨hnodup, hundef⟩ := h
  obtain ⟨hf, hp⟩ | ⟨c, hf, hp⟩ := hm
  · exact ⟨hf ▸ hnodup, by rw [hp, hf, hundef]⟩
  · by_cases hc : c ∈ s.faults
    · have hf : t.faults = s.faults := by simpa [hc] using hf
      exact ⟨hf ▸ hnodup, by simp [hp, hf, List.ne_nil_of_mem hc]⟩
    · have hf : t.faults = s.faults ++ [c] := by simpa [hc] using hf
      exact ⟨by simpa [hf] using hnodup.concat hc, by simp [hp, hf]⟩

/-- Only `INIT`'s two micro-steps write the clock registers and `INITED`. -/
theorem runMicro_clock {m : Micro} {p : Prim} {u : Nat} {i : Instr} {next : Option Nat} {s t : State}
    (h : runMicro m p u (leaveTo i next) s = .next t) (hm : m ≠ .setClock ∧ m ≠ .markInited) :
    t.presc = s.presc ∧ t.div = s.div ∧ t.inited = s.inited := by
  rcases runMicro_cases h with ⟨-, rfl⟩ | ⟨hset, -⟩ | ⟨hmark, -⟩ | ⟨-, -, rfl⟩ | ⟨-, -, rfl⟩ |
    ⟨sta, sto, ea, op, -, -, -, rfl⟩ | ⟨-, -, rfl⟩ | ⟨-, -, rfl⟩ | ⟨-, -, rfl⟩ | ⟨-, -, rfl⟩ | ⟨-, -, rfl⟩ | ⟨-, rfl⟩ |
    ⟨-, rfl⟩
  case inr.inl => exact absurd hset hm.1
  case inr.inr.inl => exact absurd hmark hm.2
  all_goals simp

theorem ClockInv.of_same {s t : State} (h : ClockInv s)
    (hregs : t.presc = s.presc ∧ t.div = s.div ∧ t.inited = s.inited) (hcfg : t.cfg = s.cfg)
    (he : t.eng = .exec .init 1 → s.eng = .exec .init 1) : ClockInv t := by
  obtain ⟨hpresc, hdiv, hinited⟩ := hregs
  refine ⟨hpresc.trans h.1, fun hw => ?_⟩
  rw [hdiv, hcfg]
  exact h.2 (hw.imp (hinited ▸ ·) he)

theorem ClockInv.of_runMicro {m : Micro} {p : Prim} {u : Nat} {i : Instr} {next : Option Nat} {s t : State}
    (h : ClockInv s) (he : s.eng = .exec p u) (hm : (microSteps p)[u]? = some m)
    (hrun : runMicro m p u (leaveTo i next) s = .next t) : ClockInv t := by
  have hc := runMicro_cases hrun
  by_cases hset : m = .setClock
  · obtain rfl : t = _ := by simpa [hset] using hc
    exact ⟨rfl, fun _ => rfl⟩
  by_cases hmark : m = .markInited
  · obtain ⟨rfl, rfl⟩ := microSteps_markInited (hmark ▸ hm)
    obtain rfl : t = _ := by simpa [hmark] using hc
    exact ⟨by simpa using h.1, fun _ => by simpa using h.2 (.inr he)⟩
  obtain ⟨-, -, -, -, -, -, -, hcfg, -⟩ := runMicro_frame hrun
  refine h.of_same (runMicro_clock hrun ⟨hset, hmark⟩) hcfg fun ht => ?_
  have notFirst : ¬(p = .init ∧ u + 1 = 1) := by
    rintro ⟨rfl, hu⟩
    obtain ⟨-, rfl⟩ | ⟨rfl, -⟩ := microSteps_init hm
    · exact hset rfl
    · omega
  cases runMicro_move hm hrun with
  | spins => exact ht
  | triggers hm hk => exact absurd (by simpa using ht) notFirst
  | goesOn past inflight ctrl txn eng lt noSpin => exact absurd (by simpa [eng] using ht) notFirst
  | returns past inflight ctrl txn eng => simp [eng] at ht

/-! ### The whole invariant -/

/-- Offered or taken with the engine idle, a step of a command leaves flags, operation and clock registers alone. -/
theorem exec_of_eng_idle {i : Instr} {s t : State} (he : s.eng = .idle) (h : exec i s = .next t) :
    (t.inflight = s.inflight ∧ t.ctrl = s.ctrl) ∧ (t.presc = s.presc ∧ t.div = s.div ∧ t.inited = s.inited) ∧
      (t.eng = .idle ∨ ∃ p, t.eng = .exec p 0) := by
  rcases exec_cases h with ⟨-, rfl⟩ | ⟨j, k, -, -, rfl⟩ | ⟨k, act, -, -, -, rfl⟩ |
    ⟨k, p, a, b, next, u, m, -, -, he', -⟩
  · unfold onAccept
    split <;> simp [he]
  · simp [he]
  · cases act <;> simp [startAction, he]
  · simp [he] at he'

/-- A step of the running command, or the acceptance of a command that the port admits, keeps the sequencers in their
tables. -/
theorem SeqInv.of_exec {i : Instr} {s t : State} (h : SeqInv s)
    (hi : (∃ k, s.txn = .run i k) ∨ i.wellFormed s.cfg = true) (hx : exec i s = .next t) : SeqInv t := by
  have hw : i.wellFormed s.cfg = true := hi.elim (fun ⟨_, hk⟩ => h.wellFormed hk) id
  obtain ⟨-, -, -, -, -, -, -, hcfg, -⟩ := exec_frame hx
  have hw' : i.wellFormed t.cfg = true := hcfg ▸ hw
  rcases exec_cases hx with ⟨ht, rfl⟩ | ⟨j, k, -, -, rfl⟩ | ⟨k, act, ht, ha, he, rfl⟩ |
    ⟨k, p, a, b, next, u, m, ht, ha, he, hm, hrun⟩
  · have he : s.eng = .idle := h.eng_of_idle ht
    exact .of_between hw' rfl (by unfold onAccept; split <;> simp [he]) (tableOf_zero _ i)
  · exact h
  · exact seqInv_startAction hw ht ha he
  · cases runMicro_move hm hrun with
    | spins => exact h
    | triggers htrig hk => exact .of_within hw' ht rfl ha (microSteps_succ_lt htrig (by simp))
    | goesOn past inflight ctrl txn eng lt noSpin => exact .of_within hw' (txn.trans ht) eng (hcfg ▸ ha) lt
    | returns past inflight ctrl txn eng =>
      cases next with
      | none => exact .of_idle (by simpa using txn) eng
      | some n => exact .of_between hw' (by simpa using txn) eng (hcfg ▸ tableOf_targets ha (by simp [Action.targets]))

theorem MachineInv.of_exec {i : Instr} {s t : State} (h : MachineInv s)
    (hi : (∃ k, s.txn = .run i k) ∨ i.wellFormed s.cfg = true) (hx : exec i s = .next t) : MachineInv t := by
  obtain ⟨-, -, -, hdev, -, -, -, hcfg, -⟩ := exec_frame hx
  have fromIdle : s.eng = .idle → FlightInv t ∧ ClockInv t := fun he => by
    obtain ⟨⟨hinflight, hctrl⟩, hregs, heng⟩ := exec_of_eng_idle he hx
    have hnone := h.flight.none_of_idle he
    refine ⟨flightInv_of_none (hinflight.trans hnone) (hctrl ▸ h.flight.sto_of_none hnone) fun p u hpu hspin => ?_,
      h.clock.of_same hregs hcfg fun ht => ?_⟩
    · obtain ⟨-, v, sta, sto, ea, rfl, -⟩ := microSteps_spinTC hspin
      simp [hpu] at heng
    · simp [ht] at heng
  have hfc : FlightInv t ∧ ClockInv t := by
    rcases exec_cases hx with ⟨ht, -⟩ | ⟨j, k, -, -, rfl⟩ | ⟨k, act, -, -, he, -⟩ |
      ⟨k, p, a, b, next, u, m, -, -, he, hm, hrun⟩
    · exact fromIdle (h.seq.eng_of_idle ht)
    · exact ⟨h.flight, h.clock⟩
    · exact fromIdle he
    · exact ⟨h.flight.of_microMove he (runMicro_move hm hrun), h.clock.of_runMicro he hm hrun⟩
  exact ⟨h.seq.of_exec hi hx, hfc.1, h.marks.of_marksMove (exec_marks hx), hfc.2, hdev ▸ h.mem⟩

theorem MachineInv.of_finishOp {op : BusOp} {s : State} (h : MachineInv s) (hop : s.inflight = some op) (st d : Byte) :
    MachineInv (finishOp op st d s) where
  seq := by simpa [SeqInv] using h.seq
  flight := h.flight.of_finishOp hop st d
  marks := by simpa [MarkInv] using h.marks
  clock := by simpa [ClockInv] using h.clock
  mem := by simpa using h.mem

/-- The invariant does not look outside the block, but at the device's memory. -/
theorem MachineInv.of_setDev {s : State} (h : MachineInv s) {dev : Device} (hdev : dev.mem.wf = true) :
    MachineInv (setDev dev s) :=
  ⟨h.seq, h.flight, h.marks, h.clock, hdev⟩

theorem MachineInv.of_counted {s : State} (h : MachineInv s) (ws : List CmdWord) (ms : List EnvMove) (pcs : List Nat) :
    MachineInv (counted ws ms pcs s) :=
  ⟨h.seq, h.flight, h.marks, h.clock, h.mem⟩

theorem MachineInv.of_freeEnv {s : State} (h : MachineInv s) : MachineInv (freeEnv s) :=
  ⟨h.seq, h.flight, h.marks, h.clock, h.mem⟩

theorem MachineInv.of_envAnswer {op : BusOp} {st d : Byte} {s t : State} (h : MachineInv s) (hop : s.inflight = some op)
    (ha : envAnswer op st d s = .next t) : MachineInv t := by
  obtain ⟨st', d', s', rfl, rfl | ⟨dev', rfl, hdev⟩⟩ := envAnswer_finishOp ha
  · exact h.of_freeEnv.of_finishOp hop st' d'
  · exact (h.of_setDev (hdev h.mem)).of_finishOp hop st' d'

/-- Settles O47: at reset both sequencers are idle, nothing is in flight, no mark is set and `INIT` has not run. -/
theorem invHoldsAtReset : Obligations.InvHoldsAtReset := fun c =>
  { seq := .of_idle rfl rfl
    flight := flightInv_of_none rfl rfl (by simp [State.resetWith])
    marks := by simp [MarkInv, State.resetWith]
    clock := by simp [ClockInv, State.resetWith]
    mem := Memory.wf_nil }

/-- A power cycle leaves the block at its reset values and the device's bytes alone (R200 to R202). -/
theorem MachineInv.of_powerCycle {s : State} (h : MachineInv s) : MachineInv (powerCycle s) := by
  have hreset := invHoldsAtReset s.cfg
  refine ⟨hreset.seq, hreset.flight, hreset.marks, hreset.clock, ?_⟩
  simp only [powerCycle]
  split <;> exact h.mem

/-- Settles O48, by the cases of a step: the acts of the environment and of the block each keep the invariant, and a
power cycle restores it. -/
theorem invIsKeptByEveryStep : Obligations.InvIsKeptByEveryStep := by
  intro s t h hstep
  rcases step_next_cases hstep with ⟨rest, -, rfl⟩ | ⟨ws, ms, pcs, ⟨op, st, d, hop, ha⟩ | rfl | rfl | ⟨i, hi, hx⟩⟩
  · exact .of_powerCycle ⟨h.seq, h.flight, h.marks, h.clock, h.mem⟩
  · exact (h.of_counted ws ms pcs).of_envAnswer hop ha
  · exact (h.of_counted ws ms pcs).of_setDev h.mem
  · exact h.of_counted ws ms pcs
  · exact (h.of_counted ws ms pcs).of_exec hi hx

/-! ### No step of the invariant faults (R32, R53, R56, R219) -/

/-- A micro-step of the invariant always has a next state: the trigger and the data accesses find nothing in flight. -/
theorem FlightInv.runMicro_next {m : Micro} {p : Prim} {u : Nat} {leave : State → State} {s : State} (h : FlightInv s)
    (he : s.eng = .exec p u) (hm : (microSteps p)[u]? = some m) : ∃ t, runMicro m p u leave s = .next t := by
  have nothing : m ≠ .spinTC ∧ m ≠ .spinStop → s.inflight = none := fun ⟨hTC, hStop⟩ =>
    h.none_of_spinPast he ⟨fun hc => absurd (Option.some.inj (hm.symm.trans hc)) hTC,
      fun hc => absurd (Option.some.inj (hm.symm.trans hc)) hStop⟩
  cases m with
  | contract | setClock | markInited | spinTC | spinStop | decode | ret => exact ⟨_, rfl⟩
  | writeAddr | writeData => exact ⟨_, andThen_next.2 ⟨_, writeData_next.2 ⟨nothing (by simp), rfl⟩, rfl⟩⟩
  | readData =>
    refine ⟨advance p u (setRes (dataValue s) s), ?_⟩
    simp only [runMicro]
    exact readDataThen_next.2 ⟨nothing (by simp), rfl⟩
  | trigger sta sto ea =>
    obtain ⟨hbus, hflags, -, -⟩ := microSteps_trigger hm
    obtain ⟨op, hop⟩ := kindOf_of_isBusPrim (dataValue s) hbus
    exact ⟨_, andThen_next.2 ⟨_, trigger_next.2 ⟨op, hop, nothing (by simp), hflags, rfl⟩, rfl⟩⟩

/-- The running command always has a next state. -/
theorem MachineInv.exec_next {i : Instr} {k : Nat} {s : State} (h : MachineInv s) (ht : s.txn = .run i k) :
    ∃ t, exec i s = .next t := by
  have hseq := h.seq
  simp only [SeqInv, ht] at hseq
  cases he : s.eng with
  | idle =>
    obtain ⟨act, ha⟩ := Option.ne_none_iff_exists'.1 (by simpa [he] using hseq.2)
    exact ⟨_, exec_action ht ha he⟩
  | exec p u =>
    obtain ⟨-, ⟨a, b, next, ha⟩, hu⟩ : _ ∧ (∃ a b next, tableOf s.cfg i k = some (.call p a b next)) ∧ _ := by
      simpa only [he] using hseq
    have hm : (microSteps p)[u]? = some (microSteps p)[u] := List.getElem?_eq_getElem hu
    rw [exec_micro ht ha he hm]
    exact h.flight.runMicro_next he hm

/-- The reference device refuses nothing but a page write (R79). -/
theorem deviceAnswer_error {a : Addr7} {ph : Phase} {op : BusOp} {st d p : Byte} {dev : Device} {r : Refusal}
    (h : deviceAnswer a ph op st d p dev = .error r) : r = .pageWrite := by
  cases op with
  | opStart | opRxNak => cases h
  | opData b =>
    simp only [deviceAnswer] at h
    cases hsel : dev.sel with
    | wPending v => simpa [hsel, eq_comm] using h
    | none | wAddr | wData | reading => simp [hsel] at h
  | opAddr b =>
    simp only [deviceAnswer] at h
    split at h
    · cases h
    · split at h <;> cases h
  | opRxAck | opStop =>
    simp only [deviceAnswer] at h
    split at h <;> cases h

theorem envAnswer_next_or_pageWrite (op : BusOp) (st d : Byte) (s : State) :
    (∃ t, envAnswer op st d s = .next t) ∨ (s.env = .reference ∧ envAnswer op st d s = .refused .pageWrite) := by
  unfold envAnswer
  split
  · exact .inl ⟨_, rfl⟩
  · split
    · exact .inl ⟨_, rfl⟩
    · split
      · rename_i henv _ _ r hr
        exact .inr ⟨henv, by rw [deviceAnswer_error hr]⟩
      · exact .inl ⟨_, rfl⟩

theorem MachineInv.blockTurn_next_or_refused {s : State} (h : MachineInv s) :
    (∃ t, blockTurn exec s = .next t) ∨
    ∃ w rest r, s.txn = .idle ∧ s.port = w :: rest ∧ portDecode s.cfg w = .error r ∧ blockTurn exec s = .refused r := by
  unfold blockTurn
  cases ht : s.txn with
  | run i k => exact .inl (h.exec_next ht)
  | idle =>
    cases hp : s.port with
    | nil => exact .inl ⟨s, rfl⟩
    | cons w rest =>
      cases hd : portDecode s.cfg w with
      | ok i => exact .inl ⟨accept i (onAccept i (setPort rest s)), by simp only [hd]; exact exec_idle ht⟩
      | error r => exact .inr ⟨w, rest, r, rfl, rfl, hd, by simp only [hd]⟩

/-- From the invariant a step has a next state, or is one of the two refusals. -/
theorem MachineInv.step_next_or_refused {s : State} (h : MachineInv s) :
    (∃ t, step s = .next t) ∨
    (∃ w rest r, s.txn = .idle ∧ s.port = w :: rest ∧ portDecode s.cfg w = .error r ∧ step s = .refused r) ∨
    (s.env = .reference ∧ step s = .refused .pageWrite) := by
  rcases step_eq s with ⟨rest, -, he⟩ | ⟨ms, pcs, ⟨op, st, d, -, he⟩ | he | he⟩ <;> rw [he]
  · exact .inl ⟨_, rfl⟩
  · exact (envAnswer_next_or_pageWrite op st d (counted s.port ms pcs s)).imp_right .inr
  · exact .inl ⟨_, rfl⟩
  · exact (h.of_counted s.port ms pcs).blockTurn_next_or_refused.imp_right .inl

/-- Settles O49: of the three outcomes of `MachineInv.step_next_or_refused` none is a fault. -/
theorem invStatesNeverFault : Obligations.InvStatesNeverFault := by
  intro s h
  obtain ⟨t, hs⟩ | ⟨w, rest, r, ht, hp, hd, hs⟩ | ⟨henv, hs⟩ := h.step_next_or_refused <;> rw [hs]
  · exact ⟨by simp, by simp⟩
  · refine ⟨by simp, fun r' hr => .inl ⟨ht, w, rest, hp, ?_⟩⟩
    obtain rfl : r = r' := by injection hr
    exact hd
  · refine ⟨by simp, fun r' hr => .inr ⟨henv, ?_⟩⟩
    injection hr with hr
    exact hr.symm

end Sys2Proof.Machine
end

section
/-!
PROOFS. The step of a busy and of an idle block (spec 40_bus_engine.md R121, 70_reset_and_hazards.md R201), the reset
values and the reads of unwritten bytes (10_state.md R44, R45).
-/

namespace Sys2Proof.Machine

/-! ### The busy and the idle block -/

/-- A busy block whose environment has a turn and takes none goes on with its command. -/
theorem step_quiet {s : State} {i : Instr} {k : Nat} {ms : List EnvMove} (hp : s.powerCycles = [])
    (ht : s.txn = .run i k) (he : envTurn s = true) (hm : s.moves = .quiet :: ms) :
    step s = exec i (dropMove (ticked s)) := by
  have hturn : envTurn (ticked s) = true := he
  have hquiet : nextMove (ticked s) = .quiet := by simp [nextMove, hm]
  simp [step, stepWith, hp, turn, hturn, hquiet, envMove, blockTurn, ht]

/-- Settles O7: without a turn of the environment, and with one that it lets pass. -/
theorem stepRunsTheRunningCommand : Obligations.StepRunsTheRunningCommand :=
  fun _ _ _ hp ht => ⟨step_block hp ht, fun _ he hm => step_quiet hp ht he hm⟩

/-- Settles O10: with no step of the environment enabled, the block's turn finds an empty port. -/
theorem idleBlockWaits : Obligations.IdleBlockWaits := by
  intro s hp ht hport he
  have hturn : envTurn (ticked s) = false := by
    have he : envEnabled (ticked s) = false := he
    simp [envTurn, he]
  simp [step, stepWith, hp, turn, hturn, blockTurn, ht, hport]

/-! ### Reset and reads (R44, R45) -/

/-- Settles O12: each of the five reads is `Latch.get` with the draw of its own place. -/
theorem unwrittenReadsAreDraws : Obligations.UnwrittenReadsAreDraws :=
  fun _ => ⟨rfl, rfl, rfl, rfl, rfl⟩

/-- Settles O11: the fields are those of `State.resetWith`; no latch is written, so every read is a draw. -/
theorem resetValues : Obligations.ResetValues := by
  intro c
  exact ⟨rfl, rfl, rfl, rfl, rfl, rfl, rfl, rfl, rfl, rfl, rfl, rfl, rfl, rfl, rfl, rfl, rfl, rfl,
    unwrittenReadsAreDraws (State.resetWith c)⟩

end Sys2Proof.Machine
end

section
/-!
PROOFS. The command word (spec 30_encoding.md R91, R92): the decoder and the encoder undo each other, and the words that
the port refuses are those of R100. The address byte (R95).
-/

namespace Sys2Proof

/-! ### The decoder by formats (R92, R100) -/

/-- A command's own three fields decode to it. -/
theorem decodeFields_of_instr (i : Instr) : decodeFields i.opcode i.byteA i.byteB = .ok i := by
  cases i with
  | init | start | stop | txByte _ | rxAck | rxNak | decode _ | eeWrite _ _ | eeRead _ | eeWait => rfl
  | txAddr addr dir =>
    obtain ⟨haddr, haddr'⟩ := addr7_in_byteA addr
    obtain ⟨hdir, hdir'⟩ := dir_in_byteB dir
    have htx : decodeTxAddr 0x04 (addr.setWidth 8) (dir.toBit.setWidth 8) = .ok (.txAddr addr dir) := by
      rw [decodeTxAddr, if_pos ⟨haddr, hdir⟩, haddr', hdir']
    exact htx

/-- How the decoder reads the three fields: by one of the four operand formats of R92, or not at all. -/
inductive WordFormat (op a b : Byte) : Prop
  | noOperand (i : Instr) (hop : op ∈ ([0x01, 0x02, 0x03, 0x06, 0x07, 0x12] : List Byte))
      (hi : i.opcode = op ∧ i.byteA = 0 ∧ i.byteB = 0) (eq : decodeFields op a b = decodeNoOperand op a b i)
  | txAddr (hop : op = 0x04) (eq : decodeFields op a b = decodeTxAddr op a b)
  | oneOperand (i : Instr) (hop : op ∈ ([0x05, 0x08, 0x11] : List Byte))
      (hi : i.opcode = op ∧ i.byteA = a ∧ i.byteB = 0) (eq : decodeFields op a b = decodeOneOperand op b i)
  | twoOperands (hop : op = 0x10) (eq : decodeFields op a b = .ok (.eeWrite a b))
  | unassigned (hop : op ∉ Machine.assignedOpcodes) (eq : decodeFields op a b = .error (.unassignedOpcode op))

theorem wordFormat (op a b : Byte) : WordFormat op a b := by
  by_cases hop : op ∈ Machine.assignedOpcodes
  · simp only [Machine.assignedOpcodes, List.mem_cons, List.not_mem_nil, or_false] at hop
    rcases hop with rfl | rfl | rfl | rfl | rfl | rfl | rfl | rfl | rfl | rfl | rfl
    · exact .noOperand .init (by decide) ⟨rfl, rfl, rfl⟩ rfl
    · exact .noOperand .start (by decide) ⟨rfl, rfl, rfl⟩ rfl
    · exact .noOperand .stop (by decide) ⟨rfl, rfl, rfl⟩ rfl
    · exact .txAddr rfl rfl
    · exact .oneOperand (.txByte a) (by decide) ⟨rfl, rfl, rfl⟩ rfl
    · exact .noOperand .rxAck (by decide) ⟨rfl, rfl, rfl⟩ rfl
    · exact .noOperand .rxNak (by decide) ⟨rfl, rfl, rfl⟩ rfl
    · exact .oneOperand (.decode a) (by decide) ⟨rfl, rfl, rfl⟩ rfl
    · exact .twoOperands rfl rfl
    · exact .oneOperand (.eeRead a) (by decide) ⟨rfl, rfl, rfl⟩ rfl
    · exact .noOperand .eeWait (by decide) ⟨rfl, rfl, rfl⟩ rfl
  · refine .unassigned hop ?_
    simp only [Machine.assignedOpcodes, List.mem_cons, List.not_mem_nil, or_false, not_or] at hop
    simp only [decodeFields, hop, if_false]

theorem decodeTxAddr_ok {op a b : Byte} {i : Instr} (h : decodeTxAddr op a b = .ok i) :
    i.opcode = 0x04 ∧ i.byteA = a ∧ i.byteB = b := by
  unfold decodeTxAddr at h
  split at h
  · rename_i hzero
    obtain rfl := Except.ok.inj h
    exact ⟨rfl, byteA_of_addr7 a hzero.1, byteB_of_dir b hzero.2⟩
  · cases h

/-- Fields that decode are those of the command they decode to. -/
theorem fields_of_decodeFields {op a b : Byte} {i : Instr} (h : decodeFields op a b = .ok i) :
    i.opcode = op ∧ i.byteA = a ∧ i.byteB = b := by
  cases wordFormat op a b with
  | noOperand j hop hj eq =>
    rw [eq, decodeNoOperand] at h
    split at h
    · rename_i hzero
      obtain ⟨rfl, rfl⟩ := hzero
      obtain rfl := Except.ok.inj h
      exact hj
    · cases h
  | txAddr hop eq => exact hop ▸ decodeTxAddr_ok (eq ▸ h)
  | oneOperand j hop hj eq =>
    rw [eq, decodeOneOperand] at h
    split at h
    · rename_i hzero
      obtain rfl := hzero
      obtain rfl := Except.ok.inj h
      exact hj
    · cases h
  | twoOperands hop eq =>
    obtain rfl := Except.ok.inj (eq.symm.trans h)
    exact ⟨hop.symm, rfl, rfl⟩
  | unassigned hop eq => cases eq.symm.trans h

/-- Settles O1: the fields of the encoding are the command's, and these decode to it. -/
theorem decodeOfEncodeIsTheCommand : Obligations.DecodeOfEncodeIsTheCommand := by
  intro i
  rw [decodeWord, opField_encode, aField_encode, bField_encode]
  exact decodeFields_of_instr i

/-- Settles O2: the word and the encoding of its command have the same three fields. -/
theorem decodedWordIsTheEncoding : Obligations.DecodedWordIsTheEncoding := by
  intro w i h
  obtain ⟨hop, ha, hb⟩ := fields_of_decodeFields h
  rw [encode, hop, ha, hb]
  exact fields_append w

/-- Settles O4: each word is the encoding of its command. -/
theorem decodesWordsOfTheTable : Obligations.DecodesWordsOfTheTable :=
  ⟨decodeOfEncodeIsTheCommand .init, decodeOfEncodeIsTheCommand .start,
    decodeOfEncodeIsTheCommand (.txAddr 0x50 .read), decodeOfEncodeIsTheCommand (.txAddr 0x7F .read),
    decodeOfEncodeIsTheCommand (.txByte 0x64), decodeOfEncodeIsTheCommand (.decode 0x18),
    decodeOfEncodeIsTheCommand (.eeWrite 0x10 0x64), decodeOfEncodeIsTheCommand (.eeRead 0x10),
    decodeOfEncodeIsTheCommand .eeWait⟩

end Sys2Proof

namespace Sys2Proof.Machine

/-! ### The address byte (R95, R96) -/

/-- Settles O5: the two fields of the byte are the two parts of its append. -/
theorem addressBytePacksBoth : Obligations.AddressBytePacksBoth := by
  intro addr dir
  have hdir : (addrByte addr dir).extractLsb' 0 1 = dir.toBit := BitVec.extractLsb'_append_eq_right
  refine ⟨BitVec.extractLsb'_append_eq_left, ?_, ?_⟩
  · rw [byteDir, hdir]
    cases dir <;> rfl
  · rw [addrByte, BitVec.toNat_append, ← Nat.shiftLeft_add_eq_or_of_lt dir.toBit.isLt, Nat.shiftLeft_eq, pow_one]

/-! ### The illegal words (R100) -/

/-- The law of legal words, for every command. -/
theorem illegalWord_encode (cfg : Config) (i : Instr) : illegalWord cfg (encode i) = !i.wellFormed cfg := by
  revert cfg
  cases i with
  | init => exact Laws.LegalWord.init
  | start => exact Laws.LegalWord.start
  | stop => exact Laws.LegalWord.stop
  | txAddr addr dir => exact Laws.LegalWord.txAddr addr dir
  | txByte data => exact Laws.LegalWord.txByte data
  | rxAck => exact Laws.LegalWord.rxAck
  | rxNak => exact Laws.LegalWord.rxNak
  | decode raw => exact Laws.LegalWord.decode raw
  | eeWrite offset value => exact Laws.LegalWord.eeWrite offset value
  | eeRead offset => exact Laws.LegalWord.eeRead offset
  | eeWait => exact Laws.LegalWord.eeWait

/-- A word that does not decode has an unassigned opcode or a set unused bit. -/
theorem illegalWord_of_decodeWord_error {w : CmdWord} {e : DecodeError} (h : decodeWord w = .error e) (cfg : Config) :
    illegalWord cfg w = true := by
  suffices hw : unassigned w = true ∨ unusedBit w = true by
    rcases hw with hw | hw <;> simp [illegalWord, hw]
  cases wordFormat (opField w) (aField w) (bField w) with
  | noOperand j hop hj eq =>
    have hz : ¬(aField w = 0 ∧ bField w = 0) := fun hz => by
      cases (eq.trans (if_pos hz)).symm.trans h
    rw [not_and_or] at hz
    refine .inr ?_
    rw [unusedBit, if_pos hop]
    simpa using hz
  | txAddr hop eq =>
    have hz : ¬((aField w).extractLsb' 7 1 = 0 ∧ (bField w).extractLsb' 1 7 = 0) := fun hz => by
      cases (eq.trans (if_pos hz)).symm.trans h
    rw [bit7_eq, not_and_or] at hz
    exact .inr (by simpa [unusedBit, hop] using hz)
  | oneOperand j hop hj eq =>
    have hz : bField w ≠ 0 := fun hz => by
      cases (eq.trans (if_pos hz)).symm.trans h
    simp only [List.mem_cons, List.not_mem_nil, or_false] at hop
    rcases hop with hop | hop | hop <;> exact .inr (by simpa [unusedBit, hop] using hz)
  | twoOperands hop eq => cases eq.symm.trans h
  | unassigned hop eq => exact .inl (by simpa [unassigned] using hop)

/-- The port refuses exactly the illegal words. -/
theorem portDecode_error_iff (cfg : Config) (w : CmdWord) :
    (∃ r, portDecode cfg w = .error r) ↔ illegalWord cfg w = true := by
  cases hd : decodeWord w with
  | error e =>
    have hport : ∃ r, portDecode cfg w = .error r := by cases e <;> simp [portDecode, hd]
    exact iff_of_true hport (illegalWord_of_decodeWord_error hd cfg)
  | ok i =>
    rw [← decodedWordIsTheEncoding w i hd, illegalWord_encode, decodedWordIsTheEncoding w i hd]
    cases hw : i.wellFormed cfg <;> simp [portDecode, hd, hw]

end Sys2Proof.Machine
end

section
/-!
PROOFS. The command port (spec 30_encoding.md R90, R91, R100, 60_exceptions.md R177): what a step makes of the offered
word while the block is idle and while it is busy.
-/

namespace Sys2Proof.Machine

/-! ### A step of an idle block that is offered a word (R90) -/

/-- While a word is on offer the environment has no turn. -/
theorem envTurn_offered {s : State} {w : CmdWord} {rest : List CmdWord} (he : s.eng = .idle) (hp : s.port = w :: rest) :
    envTurn s = false := by
  simp [envTurn, atSpin, waiting, he, hp]

/-- With no turn of the environment and no power cycle due, a step is the block's. -/
theorem step_eq_blockTurn {s : State} (hp : ∀ ns, s.powerCycles ≠ 0 :: ns) (he : envTurn s = false) :
    ∃ pcs, (s.powerCycles = [] → pcs = []) ∧ step s = blockTurn exec (setPowerCycles pcs (ticked s)) := by
  have hturn (u : State) (hu : envTurn u = false) : turn exec u = blockTurn exec u := by simp [turn, hu]
  cases hs : s.powerCycles with
  | nil =>
    refine ⟨[], fun _ => rfl, ?_⟩
    have hsame : setPowerCycles [] (ticked s) = ticked s := by
      rw [← hs]
      rfl
    rw [hsame]
    simpa only [step, stepWith, hs] using hturn (ticked s) he
  | cons n rest =>
    cases n with
    | zero => exact absurd hs (hp rest)
    | succ n =>
      refine ⟨n :: rest, by simp, ?_⟩
      simpa only [step, stepWith, hs] using hturn (setPowerCycles (n :: rest) (ticked s)) he

theorem blockTurn_accepts {s : State} {w : CmdWord} {rest : List CmdWord} {i : Instr} (ht : s.txn = .idle)
    (hport : s.port = w :: rest) (hd : portDecode s.cfg w = .ok i) : blockTurn exec s = exec i (setPort rest s) := by
  simp [blockTurn, ht, hport, hd]

theorem blockTurn_refuses {s : State} {w : CmdWord} {rest : List CmdWord} {r : Refusal} (ht : s.txn = .idle)
    (hport : s.port = w :: rest) (hd : portDecode s.cfg w = .error r) : blockTurn exec s = .refused r := by
  simp [blockTurn, ht, hport, hd]

/-- Settles O3: the port refuses by `illegalWord`, and its answer is the step's, as the environment has no turn while a
word is on offer. -/
theorem illegalWordsAreRefused : Obligations.IllegalWordsAreRefused := by
  refine ⟨fun cfg w => (portDecode_error_iff cfg w).symm, fun s w rest hp ht he hport hw => ?_⟩
  obtain ⟨pcs, -, hstep⟩ := step_eq_blockTurn hp (envTurn_offered he hport)
  obtain ⟨r, hr⟩ := (portDecode_error_iff s.cfg w).2 hw
  exact ⟨r, hstep.trans (blockTurn_refuses ht hport hr)⟩

/-- Settles O6: the port accepts the word, and the environment has no turn while it is on offer. -/
theorem stepRunsTheOfferedCommand : Obligations.StepRunsTheOfferedCommand := by
  intro s w rest i hp ht he hport hd
  obtain ⟨pcs, hpcs, hstep⟩ := step_eq_blockTurn (by simp [hp]) (envTurn_offered he hport)
  obtain rfl := hpcs hp
  rw [hstep, blockTurn_accepts (s := setPowerCycles [] (ticked s)) ht hport hd, ← hp]
  rfl

/-! ### Acceptance (R91, R153) -/

/-- Settles O8: the operand latches take the fields of the command's word, which is the word that decoded to it. -/
theorem acceptanceLoadsTheLatches : Obligations.AcceptanceLoadsTheLatches := by
  intro s w i ht hd
  rw [exec_idle ht, ← decodedWordIsTheEncoding w i hd, aField_encode, bField_encode]
  by_cases hi : i = .eeWait <;> simp [accept, onAccept, clearProbes, Latch.put, hi]

/-! ### A step of a busy block (R90, R177) -/

/-- A step from a busy block takes no word from the port: not a power cycle, not the environment, not the command. -/
theorem step_port_of_busy {s t : State} (h : step s = .next t) (hbusy : s.txn ≠ .idle) : t.port = s.port := by
  rcases step_eq s with ⟨rest, -, he⟩ | ⟨ms, pcs, ⟨op, st, d, -, he⟩ | he | he⟩ <;> rw [he] at h
  · obtain rfl := next_inj h
    rfl
  · obtain ⟨st', d', s', rfl, rfl | ⟨dev', rfl, -⟩⟩ := envAnswer_finishOp h <;> simp [counted]
  · obtain rfl := next_inj h
    rfl
  · rcases blockTurn_cases h with ⟨i, k, -, hx⟩ | ⟨hidle, -⟩ | ⟨w, rest, i, hidle, -⟩
    · exact (exec_frame hx).1
    · exact absurd hidle hbusy
    · exact absurd hidle hbusy

/-- Settles O9: `exec_busy`, and every step from a busy block leaves the port alone. -/
theorem busyBlockAcceptsNothing : Obligations.BusyBlockAcceptsNothing :=
  ⟨fun _ _ _ _ ht hne => exec_busy ht hne, fun _ _ h hbusy => step_port_of_busy h hbusy⟩

end Sys2Proof.Machine
end

section
/-!
PROOFS. The contract of the public commands (spec 42_eeprom_client.md R151 to R153, R156): the step tables keep the walk
of R156, and so no step from `PublicInv` but a power cycle leaves it.
-/

namespace Sys2Proof.Machine

/-! ### The tables keep the walk (R131, R156) -/

/-- The direction that the tables of the public commands pass at step `k` (R151 to R153). -/
def walkDir (k : Nat) : Dir :=
  if k = 4 then .read else .write

/-- After the step whose successor is `next` the phase is where the walk has it: at the next step, or between
commands. -/
def WalkLeads (i : Instr) (next : Option Nat) (ph : Phase) : Prop :=
  match next with
  | some k => walkPhase i k ph
  | none => ph = .idle ∨ ph = .dataWrite

/-- Taken in the phase `ph`, the action `act` of step `k` keeps the walk: a primitive that it calls is in contract by
R131's table and ends in a phase of the walk, and the direction operand is the walk's. -/
def KeepsWalk (i : Instr) (k : Nat) (act : Action) (ph : Phase) : Prop :=
  match act with
  | .call p _ b next =>
    (∃ q, phaseTable p (walkDir k) ph = some q ∧ WalkLeads i next q) ∧
      (p = .txAddr → b = some ((walkDir k).toBit.setWidth 8))
  | .test exit again => walkPhase i exit ph ∧ walkPhase i again ph
  | .jump n => walkPhase i n ph
  | .ret => WalkLeads i none ph

/-- The walk has no phase past a command's table. -/
theorem walkPhase_lt {i : Instr} {k : Nat} {ph : Phase} (h : walkPhase i k ph) : k < (walkPhases i).length := by
  obtain ⟨phs, hphs, -⟩ := h
  exact (List.getElem?_eq_some_iff.1 hphs).1

/-- Every transaction begins with a START, from one of the two phases between commands. -/
theorem keepsWalk_start {i : Instr} {ph : Phase} (hph : ph = .idle ∨ ph = .dataWrite)
    (hnext : walkPhase i 1 .addressPhase) : KeepsWalk i 0 (.call .start none none (some 1)) ph := by
  refine ⟨⟨.addressPhase, ?_, hnext⟩, by simp⟩
  rcases hph with rfl | rfl <;> rfl

/-- Every action of a table keeps the walk, whatever the operands and the switches are. -/
theorem keepsWalk_of_table {cfg : Config} {i : Instr} {k : Nat} {act : Action} {ph : Phase}
    (hw : walkPhase i k ph) (ha : tableOf cfg i k = some act) : KeepsWalk i k act ph := by
  have hk := walkPhase_lt hw
  cases i with
  | start | stop | txAddr _ _ | txByte _ | rxAck | rxNak | decode _ => simp [walkPhases] at hk
  | init =>
    obtain rfl : k = 0 := by simpa [walkPhases] using hk
    obtain rfl := Option.some.inj ha
    simpa [walkPhase, walkPhases, KeepsWalk, WalkLeads, phaseTable] using hw
  | eeWrite _ _ =>
    simp only [walkPhases, List.length_cons, List.length_nil] at hk
    interval_cases k <;> obtain rfl := Option.some.inj ha <;> simp [walkPhase, walkPhases] at hw
    · exact keepsWalk_start hw (by simp [walkPhase, walkPhases])
    all_goals simp [KeepsWalk, WalkLeads, callAddr, walkDir, walkPhase, walkPhases, phaseTable, hw]
  | eeRead _ =>
    simp only [walkPhases, List.length_cons, List.length_nil] at hk
    interval_cases k <;> obtain rfl := Option.some.inj ha <;> simp [walkPhase, walkPhases] at hw
    · exact keepsWalk_start hw (by simp [walkPhase, walkPhases])
    all_goals simp [KeepsWalk, WalkLeads, callAddr, walkDir, walkPhase, walkPhases, phaseTable, hw]
  | eeWait =>
    simp only [walkPhases, List.length_cons, List.length_nil] at hk
    interval_cases k <;> obtain rfl := Option.some.inj ha <;> simp [walkPhase, walkPhases] at hw
    · exact keepsWalk_start hw (by simp [walkPhase, walkPhases])
    · simp [KeepsWalk, WalkLeads, callAddr, walkDir, walkPhase, walkPhases, phaseTable, hw]
    · simp [KeepsWalk, walkPhase, walkPhases, hw]
    · cases cfg.probeStop <;> simp [KeepsWalk, WalkLeads, walkPhase, walkPhases, phaseTable, hw]
    · cases cfg.waitFinalStop <;> simp [KeepsWalk, WalkLeads, phaseTable, hw]

/-- A public command may be accepted in either phase between commands. -/
theorem walkPhase_zero {i : Instr} {ph : Phase} (hi : i.isPublic = true) (hph : ph = .idle ∨ ph = .dataWrite) :
    walkPhase i 0 ph := by
  cases i with
  | start | stop | txAddr _ _ | txByte _ | rxAck | rxNak | decode _ => simp [Instr.isPublic] at hi
  | init | eeWrite _ _ | eeRead _ | eeWait => exact ⟨_, rfl, by simpa using hph⟩

/-! ### A primitive in contract -/

/-- Only `TXADDR` looks at the direction. -/
theorem phaseTable_dir {p : Prim} (hp : p ≠ .txAddr) (d d' : Dir) (ph : Phase) :
    phaseTable p d ph = phaseTable p d' ph := by
  cases p with
  | txAddr => exact absurd rfl hp
  | init | start | stop | txByte | rxAck | rxNak | decode => cases ph <;> rfl

theorem inContract_of_phaseTable {p : Prim} {d : Dir} {ph q : Phase} (h : phaseTable p d ph = some q) :
    inContract p ph = true := by
  by_cases hp : p = .txAddr
  · subst hp
    cases ph <;> simp [phaseTable, inContract] at h ⊢
  · simp [inContract, phaseTable_dir hp .write d, h]

/-- In contract the contract step changes nothing. -/
theorem contractStep_of_phaseTable {p : Prim} {d : Dir} {s : State} {q : Phase} (hinit : s.inited = true)
    (h : phaseTable p d s.phase = some q) : contractStep p s = s := by
  simp [contractStep, hinit, inContract_of_phaseTable h]

/-- In contract the phase after a primitive's end is that of R131's table. -/
theorem setPhase_of_phaseTable {p : Prim} {d : Dir} {s : State} {q : Phase} (h : phaseTable p d s.phase = some q) :
    (setPhase (endPhase p d) s).phase = q := by
  cases p with
  | init | decode => simpa [endPhase, phaseTable] using h
  | start | stop | txByte | rxAck | rxNak => cases hs : s.phase <;> simp [hs, phaseTable, endPhase] at h ⊢ <;> exact h
  | txAddr => cases d <;> cases hs : s.phase <;> simp [hs, phaseTable, endPhase] at h ⊢ <;> exact h

/-- Only `INIT` and `DECODE` return by a micro-step that writes no phase, and R131's table leaves theirs alone. -/
theorem phaseTable_of_markInited_or_decode {p : Prim} {u : Nat} (hm : (microSteps p)[u]? = some .markInited ∨
    (microSteps p)[u]? = some .decode) (d : Dir) (ph : Phase) : phaseTable p d ph = some ph := by
  cases p with
  | init | decode => rfl
  | start | stop | txAddr | txByte | rxAck | rxNak =>
    rcases u with _ | _ | _ | _ | _ | u <;> simp [microSteps] at hm

/-! ### The condition by the sequencer's position -/

theorem PublicInv.between_of_idle {s : State} (h : PublicInv s) (ht : s.txn = .idle) :
    s.eng = .idle ∧ (s.phase = .idle ∨ s.phase = .dataWrite) := by
  simpa only [ht] using h.walk

theorem PublicInv.walkPhase_of_run {s : State} {i : Instr} {k : Nat} (h : PublicInv s) (ht : s.txn = .run i k) :
    walkPhase i k s.phase := by
  simpa only [ht] using h.walk

/-- Where no primitive runs the direction latch is free. -/
theorem addrDirKept_of_idle {s : State} (he : s.eng = .idle) : addrDirKept s := by
  simp [addrDirKept, he]

theorem PublicInv.of_idle {s : State} (hmarks : s.inited = true ∧ s.faults = []) (ht : s.txn = .idle)
    (he : s.eng = .idle) (hph : s.phase = .idle ∨ s.phase = .dataWrite) : PublicInv s where
  inited := hmarks.1
  noMark := hmarks.2
  walk := by simp [ht, he, hph]
  dir := addrDirKept_of_idle he

theorem PublicInv.of_run {s : State} {i : Instr} {k : Nat} (hmarks : s.inited = true ∧ s.faults = [])
    (ht : s.txn = .run i k) (hw : walkPhase i k s.phase) (hdir : addrDirKept s) : PublicInv s where
  inited := hmarks.1
  noMark := hmarks.2
  walk := by simpa only [ht] using hw
  dir := hdir

/-- The condition looks at the marks, the sequencers, the phase and the direction latch, and inside a primitive not at
the micro-step. -/
theorem PublicInv.of_same {s t : State} (h : PublicInv s) (hmarks : t.inited = s.inited ∧ t.faults = s.faults)
    (htxn : t.txn = s.txn) (hph : t.phase = s.phase) (hdir : t.opB = s.opB)
    (heng : t.eng = s.eng ∨ ∃ p u v, s.eng = .exec p u ∧ t.eng = .exec p v) : PublicInv t := by
  have hmarks' : t.inited = true ∧ t.faults = [] := ⟨hmarks.1.trans h.inited, hmarks.2.trans h.noMark⟩
  cases ht : s.txn with
  | idle =>
    obtain ⟨he, hbetween⟩ := h.between_of_idle ht
    exact .of_idle hmarks' (htxn.trans ht) (by simpa [he] using heng) (hph ▸ hbetween)
  | run i k =>
    refine .of_run hmarks' (htxn.trans ht) (hph ▸ h.walkPhase_of_run ht) fun j n w hj hw => ?_
    obtain ⟨v, hv⟩ : ∃ v, s.eng = .exec .txAddr v := by
      rcases heng with heng | ⟨p, v, w', hv, hw'⟩
      · exact ⟨w, heng ▸ hw⟩
      · obtain ⟨rfl, -⟩ : p = .txAddr ∧ w' = w := by simpa [hw'] using hw
        exact ⟨v, hv⟩
    exact hdir.trans (h.dir j n v (htxn ▸ hj) hv)

/-- After a primitive the command goes on in a phase of the walk, or returns in a phase between commands. -/
theorem PublicInv.of_leaveTo {s : State} {i : Instr} {next : Option Nat} (hmarks : s.inited = true ∧ s.faults = [])
    (hw : WalkLeads i next s.phase) : PublicInv (leaveTo i next s) := by
  cases next with
  | none => exact .of_idle hmarks rfl rfl hw
  | some k => exact .of_run hmarks rfl hw (addrDirKept_of_idle rfl)

/-! ### A step of the running command -/

theorem walkDir_byte (k : Nat) : ((walkDir k).toBit.setWidth 8 : Byte) = if k = 4 then 1 else 0 := by
  unfold walkDir
  split <;> rfl

/-- The direction that `TXADDR` takes from its latch is the one that the table loaded. -/
theorem PublicInv.opDir_eq {s : State} {i : Instr} {k u : Nat} (h : PublicInv s) (ht : s.txn = .run i k)
    (he : s.eng = .exec .txAddr u) : opDir s = walkDir k := by
  have hb : s.opB = .put ((walkDir k).toBit.setWidth 8) := by
    rw [walkDir_byte]
    exact h.dir i k u ht he
  simpa [opDir, opBValue, hb, Latch.get, Latch.put] using (dir_in_byteB (walkDir k)).2

/-- The start of an action of the table keeps the walk. -/
theorem PublicInv.of_startAction {s : State} {i : Instr} {k : Nat} {act : Action} (h : PublicInv s)
    (ht : s.txn = .run i k) (ha : tableOf s.cfg i k = some act) (he : s.eng = .idle) :
    PublicInv (startAction i act s) := by
  have hw := h.walkPhase_of_run ht
  have hkeeps := keepsWalk_of_table hw ha
  have hmarks : s.inited = true ∧ s.faults = [] := ⟨h.inited, h.noMark⟩
  cases act with
  | call p a b next =>
    obtain ⟨-, hload⟩ := hkeeps
    refine .of_run hmarks ht hw fun j n u hj hu => ?_
    obtain ⟨rfl, -⟩ : p = .txAddr ∧ 0 = u := by simpa [startAction] using hu
    obtain ⟨rfl, rfl⟩ : i = j ∧ k = n := by simpa [startAction, ht] using hj
    simp [startAction, hload, loadOperand, walkDir_byte]
  | test exit again =>
    obtain ⟨hexit, hagain⟩ := hkeeps
    obtain ⟨n, hn, htxn⟩ := probeTest_txn i exit again s
    have hwn : walkPhase i n s.phase := by
      rcases List.mem_pair.1 hn with rfl | rfl
      · exact hexit
      · exact hagain
    exact .of_run (by simpa [startAction] using hmarks) htxn (by simpa [startAction] using hwn)
      (addrDirKept_of_idle (by simpa [startAction] using he))
  | jump n => exact .of_run hmarks rfl hkeeps (addrDirKept_of_idle he)
  | ret => exact .of_leaveTo (next := none) hmarks hkeeps

/-- A micro-step of a primitive that the table calls keeps the walk: its contract step finds the phase in contract, and
its end writes the phase of R131's table. -/
theorem PublicInv.of_runMicro {s t : State} {i : Instr} {k u : Nat} {p : Prim} {a b : Option Byte} {next : Option Nat}
    {m : Micro} (h : PublicInv s) (ht : s.txn = .run i k) (ha : tableOf s.cfg i k = some (.call p a b next))
    (he : s.eng = .exec p u) (hm : (microSteps p)[u]? = some m) (hrun : runMicro m p u (leaveTo i next) s = .next t) :
    PublicInv t := by
  obtain ⟨⟨q, hq, hleads⟩, -⟩ := keepsWalk_of_table (h.walkPhase_of_run ht) ha
  have hc := runMicro_cases hrun
  cases m with
  | contract =>
    obtain rfl : t = _ := by simpa using hc
    rw [contractStep_of_phaseTable h.inited hq]
    exact h.of_same ⟨rfl, rfl⟩ rfl rfl rfl (.inr ⟨p, u, u + 1, he, rfl⟩)
  | setClock =>
    obtain rfl : t = _ := by simpa using hc
    exact h.of_same ⟨rfl, rfl⟩ rfl rfl rfl (.inr ⟨p, u, u + 1, he, rfl⟩)
  | writeAddr | writeData | readData =>
    obtain ⟨-, rfl⟩ : _ ∧ t = _ := by simpa using hc
    exact h.of_same ⟨rfl, rfl⟩ rfl rfl rfl (.inr ⟨p, u, u + 1, he, rfl⟩)
  | trigger sta sto ea =>
    obtain ⟨r, hr, hadv⟩ := andThen_next.1 hrun
    obtain ⟨op, -, -, -, rfl⟩ := trigger_next.1 hr
    obtain rfl := next_inj hadv
    exact h.of_same ⟨rfl, rfl⟩ rfl rfl rfl (.inr ⟨p, u, u + 1, he, rfl⟩)
  | spinTC | spinStop =>
    obtain ⟨-, rfl⟩ | ⟨-, rfl⟩ : (_ ∧ t = _) ∨ (_ ∧ t = s) := by simpa using hc
    · exact h.of_same ⟨rfl, rfl⟩ rfl rfl rfl (.inr ⟨p, u, u + 1, he, rfl⟩)
    · exact h
  | markInited =>
    obtain rfl : t = _ := by simpa using hc
    obtain rfl := Option.some.inj ((phaseTable_of_markInited_or_decode (.inl hm) _ _).symm.trans hq)
    exact .of_leaveTo ⟨rfl, h.noMark⟩ hleads
  | decode =>
    obtain rfl : t = _ := by simpa using hc
    obtain rfl := Option.some.inj ((phaseTable_of_markInited_or_decode (.inr hm) _ _).symm.trans hq)
    exact .of_leaveTo ⟨h.inited, h.noMark⟩ hleads
  | ret =>
    obtain rfl : t = _ := by simpa using hc
    have hdir : phaseTable p (opDir s) s.phase = some q := by
      by_cases hp : p = .txAddr
      · rw [h.opDir_eq ht (hp ▸ he), hq]
      · rw [phaseTable_dir hp (opDir s) (walkDir k), hq]
    refine .of_leaveTo (by simp [h.inited, h.noMark]) ?_
    rwa [setPhase_of_phaseTable hdir]

/-- A command that is accepted is a public one, and the running command keeps the walk. -/
theorem PublicInv.of_exec {s t : State} {i : Instr} (h : PublicInv s) (hcfg : s.cfg.exposePrimitives = false)
    (hi : (∃ k, s.txn = .run i k) ∨ i.wellFormed s.cfg = true) (hx : exec i s = .next t) : PublicInv t := by
  rcases exec_cases hx with ⟨ht, rfl⟩ | ⟨j, k, -, -, rfl⟩ | ⟨k, act, ht, ha, he, rfl⟩ |
    ⟨k, p, a, b, next, u, m, ht, ha, he, hm, hrun⟩
  · obtain ⟨he, hbetween⟩ := h.between_of_idle ht
    have hpub : i.isPublic = true := by simpa [ht, Instr.wellFormed, hcfg] using hi
    have hmarks : s.inited = true ∧ s.faults = [] := ⟨h.inited, h.noMark⟩
    unfold onAccept
    split <;> exact .of_run hmarks rfl (walkPhase_zero hpub hbetween) (addrDirKept_of_idle he)
  · exact h
  · exact h.of_startAction ht ha he
  · exact h.of_runMicro ht ha he hm hrun

/-! ### A step of the machine -/

theorem PublicInv.of_counted {s : State} (h : PublicInv s) (ws : List CmdWord) (ms : List EnvMove) (pcs : List Nat) :
    PublicInv (counted ws ms pcs s) :=
  h.of_same ⟨rfl, rfl⟩ rfl rfl rfl (.inl rfl)

/-- No answer of the environment reaches what the condition looks at. -/
theorem PublicInv.of_envAnswer {s t : State} {op : BusOp} {st d : Byte} (h : PublicInv s)
    (ha : envAnswer op st d s = .next t) : PublicInv t := by
  obtain ⟨st', d', s', rfl, rfl | ⟨dev', rfl, -⟩⟩ := envAnswer_finishOp ha <;>
    exact h.of_same (by simp) (by simp) (by simp) (by simp) (by simp)

/-- Settles O50, by the cases of a step: the environment does not reach what the condition looks at, and the running
command stays on the walk of R156. -/
theorem publicCommandsKeepTheContract : Obligations.PublicCommandsKeepTheContract := by
  intro s t hcfg h hp hstep
  rcases step_next_cases hstep with ⟨rest, h0, -⟩ | ⟨ws, ms, pcs, ⟨op, st, d, -, ha⟩ | rfl | rfl | ⟨i, hi, hx⟩⟩
  · exact absurd h0 (hp rest)
  · exact (h.of_counted ws ms pcs).of_envAnswer ha
  · exact h.of_same ⟨rfl, rfl⟩ rfl rfl rfl (.inl rfl)
  · exact h.of_counted ws ms pcs
  · exact (h.of_counted ws ms pcs).of_exec hcfg hi hx

end Sys2Proof.Machine
end

section
/-!
PROOFS. The micro-steps of the Bus Engine's commands, one by one (spec 40_bus_engine.md R122, R124 to R129, R132): what
each kind of micro-step answers, said once, and from it the steps of each command; the answer to an operation out of
contract (20_memory.md R82).
-/

namespace Sys2Proof.Machine

/-! ### What a micro-step answers (R120, R121) -/

section

variable {p : Prim} {u : Nat} {leave : State → State} {s : State}

theorem runMicro_writeAddr {addr : Addr7} {dir : Dir} (hop : opAddr7 s = addr ∧ opDir s = dir)
    (hi : s.inflight = none) :
    runMicro .writeAddr p u leave s = .next (advance p u (dataWritten (addrByte addr dir) s)) := by
  obtain ⟨rfl, rfl⟩ := hop
  exact andThen_next.2 ⟨_, writeData_next.2 ⟨hi, rfl⟩, rfl⟩

theorem runMicro_writeData {b : Byte} (hop : s.opA = .put b) (hi : s.inflight = none) :
    runMicro .writeData p u leave s = .next (advance p u (dataWritten b s)) := by
  have hb : b = opAValue s := by simp [opAValue, hop, Latch.get, Latch.put]
  subst hb
  exact andThen_next.2 ⟨_, writeData_next.2 ⟨hi, rfl⟩, rfl⟩

theorem runMicro_trigger {sta sto ea : Bool} {op : BusOp} (hk : kindOf p (dataValue s) = some op)
    (hi : s.inflight = none) (hflags : (sta && sto) = false) :
    runMicro (.trigger sta sto ea) p u leave s = .next (advance p u (triggered op sta sto ea s)) :=
  andThen_next.2 ⟨_, trigger_next.2 ⟨op, hk, hi, hflags, rfl⟩, rfl⟩

theorem runMicro_readData (hi : s.inflight = none) :
    runMicro .readData p u leave s = .next (advance p u (setRes (dataValue s) s)) := by
  simp only [runMicro]
  exact readDataThen_next.2 ⟨hi, rfl⟩

theorem runMicro_spinTC_waits (h : s.ctrl.tc = false) : runMicro .spinTC p u leave s = .next s := by
  simp [runMicro, readTC, h]

theorem runMicro_spinTC_past (h : s.ctrl.tc = true) : runMicro .spinTC p u leave s = .next (advance p u s) := by
  simp [runMicro, readTC, h]

theorem runMicro_spinStop_waits (h : s.ctrl.sto = true) : runMicro .spinStop p u leave s = .next s := by
  simp [runMicro, readStopPending, h]

theorem runMicro_spinStop_past (h : s.ctrl.sto = false) :
    runMicro .spinStop p u leave s = .next (advance p u s) := by
  simp [runMicro, readStopPending, h]

/-- The end of a primitive that writes a phase, outside `Undefined`. -/
theorem runMicro_ret (q : Phase) (hend : endPhase p (opDir s) = some q) (h : s.phase ≠ .undefined) :
    runMicro .ret p u leave s = .next (leave { s with phase := q }) := by
  rw [runMicro, hend, setPhase, if_neg h]

/-- `Undefined` is absorbing (R132). -/
theorem runMicro_ret_undefined (h : s.phase = .undefined) : runMicro .ret p u leave s = .next (leave s) := by
  rw [runMicro]
  cases endPhase p (opDir s) with
  | none => rfl
  | some q => rw [setPhase, if_pos h]

end

/-! ### The contract step (R132) -/

/-- Of the table of R131 the contract step looks at where it has X alone, which no direction changes. -/
theorem inContract_eq (p : Prim) (d : Dir) (ph : Phase) : inContract p ph = (phaseTable p d ph).isSome := by
  by_cases hp : p = .txAddr
  · subst hp
    cases d <;> cases ph <;> rfl
  · rw [inContract, phaseTable_dir hp .write d]

/-- The six commands that are one bus primitive, each with its primitive and direction (R92). -/
inductive BusCommand : Instr → Prim → Dir → Prop
  | start : BusCommand .start .start .write
  | stop : BusCommand .stop .stop .write
  | txAddr (addr : Addr7) (dir : Dir) : BusCommand (.txAddr addr dir) .txAddr dir
  | txByte (data : Byte) : BusCommand (.txByte data) .txByte .write
  | rxAck : BusCommand .rxAck .rxAck .write
  | rxNak : BusCommand .rxNak .rxNak .write

theorem busCommand_of_busPrim {i : Instr} {p : Prim} {dir : Dir} (h : busPrim i = some (p, dir)) :
    BusCommand i p dir := by
  cases i with
  | init | decode _ | eeWrite _ _ | eeRead _ | eeWait => simp [busPrim] at h
  | start | stop | txAddr _ _ | txByte _ | rxAck | rxNak =>
    obtain ⟨rfl, rfl⟩ : _ = p ∧ _ = dir := by simpa [busPrim] using h
    constructor

/-- A command that is a bus primitive has one step, which calls the primitive with the operands of the acceptance; the
primitive begins with the contract step. -/
theorem tableOf_busPrim {i : Instr} {p : Prim} {dir : Dir} (h : busPrim i = some (p, dir)) (cfg : Config) :
    tableOf cfg i 0 = some (.call p none none none) ∧ (microSteps p)[0]? = some .contract := by
  cases busCommand_of_busPrim h <;> exact ⟨rfl, rfl⟩

section

variable {i : Instr} {p : Prim} {dir : Dir} {s : State}

theorem exec_contract (h : busPrim i = some (p, dir)) (ht : s.txn = .run i 0) (he : s.eng = .exec p 0) :
    exec i s = .next (advance p 0 (contractStep p s)) := by
  obtain ⟨ha, hm⟩ := tableOf_busPrim h s.cfg
  exact exec_micro ht ha he hm

theorem exec_contract_of_inContract (h : busPrim i = some (p, dir)) (ht : s.txn = .run i 0) (he : s.eng = .exec p 0)
    (hinit : s.inited = true) (hph : phaseTable p dir s.phase ≠ none) :
    exec i s = .next { s with eng := .exec p 1 } := by
  obtain ⟨q, hq⟩ := Option.ne_none_iff_exists'.1 hph
  rw [exec_contract h ht he, contractStep_of_phaseTable hinit hq]
  rfl

end

/-- Settles O23: the three branches of the contract step. -/
theorem contractStepMarksAndGoesOn : Obligations.ContractStepMarksAndGoesOn := by
  intro i p dir s h ht he
  refine ⟨fun hinit => ?_, fun hinit hX => ?_, exec_contract_of_inContract h ht he⟩ <;> rw [exec_contract h ht he]
  · rw [contractStep, if_pos hinit]
    rfl
  · rw [contractStep, if_neg (by simp [hinit]), if_neg (by simp [inContract_eq p dir, hX])]
    rfl

/-! ### The commands (R122, R124 to R129) -/

/-- Settles O14: the two micro-steps of `INIT` are the write of the clock registers and the mark. -/
theorem initProgramsTheDivisor : Obligations.InitProgramsTheDivisor :=
  ⟨rfl, fun _ ht => ⟨exec_action ht rfl, fun he => exec_micro ht rfl he rfl, fun he => exec_micro ht rfl he rfl⟩⟩

/-- Settles O15, by the micro-steps of `START` in order. -/
theorem startMicroSteps : Obligations.StartMicroSteps := fun _ ht =>
  ⟨exec_action ht rfl,
    fun he hinit hph => exec_contract_of_inContract rfl ht he hinit
      (by rcases hph with h | h | h | h <;> simp [h, phaseTable]),
    fun he hi => (exec_micro ht rfl he rfl).trans (runMicro_trigger rfl hi rfl),
    fun he htc => (exec_micro ht rfl he rfl).trans (runMicro_spinTC_waits htc),
    fun he htc => (exec_micro ht rfl he rfl).trans (runMicro_spinTC_past htc),
    fun he hph => (exec_micro ht rfl he rfl).trans (runMicro_ret .addressPhase rfl hph),
    fun he hph => (exec_micro ht rfl he rfl).trans (runMicro_ret_undefined hph)⟩

/-- Settles O16, by the micro-steps of `STOP` in order. -/
theorem stopMicroSteps : Obligations.StopMicroSteps := fun _ ht =>
  ⟨exec_action ht rfl,
    fun he hinit hph => exec_contract_of_inContract rfl ht he hinit
      (by rcases hph with h | h <;> simp [h, phaseTable]),
    fun he hi => (exec_micro ht rfl he rfl).trans (runMicro_trigger rfl hi rfl),
    fun he hsto => (exec_micro ht rfl he rfl).trans (runMicro_spinStop_waits hsto),
    fun he hsto => (exec_micro ht rfl he rfl).trans (runMicro_spinStop_past hsto),
    fun he hph => (exec_micro ht rfl he rfl).trans (runMicro_ret .idle rfl hph),
    fun he hph => (exec_micro ht rfl he rfl).trans (runMicro_ret_undefined hph)⟩

/-- Settles O17, by the micro-steps of `TXADDR` in order; it takes back the operands that were loaded. -/
theorem txAddrMicroSteps : Obligations.TxAddrMicroSteps := fun addr dir s ht hA hB =>
  have hop : opAddr7 s = addr ∧ opDir s = dir := operands_of_txAddr hA hB
  have hend : endPhase .txAddr (opDir s) = some (if dir = .write then .dataWrite else .dataRead) := by
    rw [hop.2]
    cases dir <;> rfl
  ⟨exec_action ht rfl,
    fun he hinit hph => exec_contract_of_inContract rfl ht he hinit (by cases dir <;> simp [hph, phaseTable]),
    fun he hi => (exec_micro ht rfl he rfl).trans (runMicro_writeAddr hop hi),
    fun he hi => (exec_micro ht rfl he rfl).trans (runMicro_trigger rfl hi rfl),
    fun he htc => (exec_micro ht rfl he rfl).trans (runMicro_spinTC_waits htc),
    fun he htc => (exec_micro ht rfl he rfl).trans (runMicro_spinTC_past htc),
    fun he hph => (exec_micro ht rfl he rfl).trans (runMicro_ret _ hend hph),
    fun he hph => (exec_micro ht rfl he rfl).trans (runMicro_ret_undefined hph)⟩

/-- Settles O18, by the micro-steps of `TXBYTE` in order; its end writes no phase. -/
theorem txByteMicroSteps : Obligations.TxByteMicroSteps := fun _ _ ht hA =>
  ⟨exec_action ht rfl,
    fun he hinit hph => exec_contract_of_inContract rfl ht he hinit (by simp [hph, phaseTable]),
    fun he hi => (exec_micro ht rfl he rfl).trans (runMicro_writeData hA hi),
    fun he hi => (exec_micro ht rfl he rfl).trans (runMicro_trigger rfl hi rfl),
    fun he htc => (exec_micro ht rfl he rfl).trans (runMicro_spinTC_waits htc),
    fun he htc => (exec_micro ht rfl he rfl).trans (runMicro_spinTC_past htc),
    fun he => exec_micro ht rfl he rfl⟩

/-- Settles O19, by the micro-steps of `RXACK` in order; its end writes no phase. -/
theorem rxAckMicroSteps : Obligations.RxAckMicroSteps := fun _ ht =>
  ⟨exec_action ht rfl,
    fun he hinit hph => exec_contract_of_inContract rfl ht he hinit (by simp [hph, phaseTable]),
    fun he hi => (exec_micro ht rfl he rfl).trans (runMicro_trigger rfl hi rfl),
    fun he htc => (exec_micro ht rfl he rfl).trans (runMicro_spinTC_waits htc),
    fun he htc => (exec_micro ht rfl he rfl).trans (runMicro_spinTC_past htc),
    fun he hi => (exec_micro ht rfl he rfl).trans (runMicro_readData hi),
    fun he => exec_micro ht rfl he rfl⟩

/-- Settles O20, by the micro-steps of `RXNAK` in order. -/
theorem rxNakMicroSteps : Obligations.RxNakMicroSteps := fun _ ht =>
  ⟨exec_action ht rfl,
    fun he hinit hph => exec_contract_of_inContract rfl ht he hinit (by simp [hph, phaseTable]),
    fun he hi => (exec_micro ht rfl he rfl).trans (runMicro_trigger rfl hi rfl),
    fun he htc => (exec_micro ht rfl he rfl).trans (runMicro_spinTC_waits htc),
    fun he htc => (exec_micro ht rfl he rfl).trans (runMicro_spinTC_past htc),
    fun he hi => (exec_micro ht rfl he rfl).trans (runMicro_readData hi),
    fun he hph => (exec_micro ht rfl he rfl).trans (runMicro_ret .dataReadDone rfl hph),
    fun he hph => (exec_micro ht rfl he rfl).trans (runMicro_ret_undefined hph)⟩

/-! ### The answer of a free environment (R60, R82, R132) -/

theorem envAnswer_arbitrary {op : BusOp} {s : State} (h : s.env = .arbitrary) (st d : Byte) :
    envAnswer op st d s = .next (finishOp op st d s) := by
  simp [envAnswer, h]

/-- Out of contract every environment answers with the status and byte of its move, and is arbitrary from then on. -/
theorem envAnswer_undefined {op : BusOp} {s : State} (h : s.phase = .undefined) (st d : Byte) :
    envAnswer op st d s = .next (finishOp op st d (freeEnv s)) := by
  cases he : s.env with
  | arbitrary => rw [envAnswer_arbitrary he, freeEnv, ← he]
  | reference => simp [envAnswer, he, h]

theorem isReceive_iff (op : BusOp) : isReceive op = true ↔ op = .opRxAck ∨ op = .opRxNak := by
  cases op <;> simp [isReceive]

/-- Settles O36: the answer is that of a free environment, and `finishOp` reaches no sequencer, mark or log. -/
theorem outOfContractAnswersAreFree : Obligations.OutOfContractAnswersAreFree := by
  intro s op st d ms hp hph hi hs hm
  have hfree := envAnswer_undefined (op := op) (s := dropMove (ticked s)) hph st d
  refine ⟨_, (step_answer hp hi hs hm).trans hfree, ?_⟩
  simp [isReceive_iff, hph, Latch.put]

end Sys2Proof.Machine
end

section
/-!
PROOFS. The run of a bus primitive that a command calls, on its own or in a transaction (spec 40_bus_engine.md R120,
R121, R124 to R131): its register operations up to the spin, the spin however long it lasts, the answer of an arbitrary
environment, and the return.
-/

namespace Sys2Proof.Machine

/-! ### Acceptance (R90, R91) -/

/-- A command that is offered where it is legal is accepted in the next step. -/
theorem step_accepts {s : State} {i : Instr} {rest : List CmdWord} (h : Offers s i rest) :
    step s = .next (accept i (onAccept i (setPort rest (ticked s)))) := by
  have hd : portDecode s.cfg (encode i) = .ok i := by
    simp [portDecode, decodeOfEncodeIsTheCommand i, h.legal]
  rw [stepRunsTheOfferedCommand s _ rest i h.powerCycles h.txn h.eng h.port hd]
  exact exec_idle h.txn

theorem runs_one {s t : State} (h : step s = .next t) : runs 1 s = .next t := runs_next h

/-! ### Within a call (R32, R33) -/

/-- The command `i` runs and stands at a step of its table that calls `p` and goes on to `next`; no power cycle is to
come. -/
structure Calls (i : Instr) (p : Prim) (next : Option Nat) (s : State) : Prop where
  powerCycles : s.powerCycles = []
  call : ∃ k a b, s.txn = .run i k ∧ tableOf s.cfg i k = some (.call p a b next)

section

variable {i : Instr} {p : Prim} {next : Option Nat} {s : State} {u : Nat} {m : Micro}

theorem Calls.of_same {t : State} (h : Calls i p next s) (hp : t.powerCycles = s.powerCycles) (ht : t.txn = s.txn)
    (hc : t.cfg = s.cfg) : Calls i p next t := by
  obtain ⟨hp', k, a, b, ht', ha⟩ := h
  exact ⟨hp.trans hp', k, a, b, ht.trans ht', hc ▸ ha⟩

/-- Off its spins a primitive takes its next micro-step, the environment having no turn. -/
theorem Calls.step_offSpin (h : Calls i p next s) (he : s.eng = .exec p u) (hm : (microSteps p)[u]? = some m)
    (hs : m ≠ .spinTC ∧ m ≠ .spinStop) : step s = runMicro m p u (leaveTo i next) (ticked s) := by
  obtain ⟨k, a, b, ht, ha⟩ := h.call
  exact step_micro h.powerCycles ht ha he hm (envTurn_offSpin ht he hm hs)

theorem Calls.step_trigger {sta sto ea : Bool} {op : BusOp} (h : Calls i p next s) (he : s.eng = .exec p u)
    (hm : (microSteps p)[u]? = some (.trigger sta sto ea)) (hk : kindOf p (dataValue (ticked s)) = some op)
    (hi : s.inflight = none) :
    step s = .next
      { s with
        ctrl := triggeredCtrl sta sto ea
        inflight := some op
        trace := s.trace ++ [eventOf op]
        regLog := s.regLog ++ [.trigger sta sto ea]
        eng := .exec p (u + 1)
        tick := s.tick + 1 } := by
  obtain ⟨-, hflags, -, -⟩ := microSteps_trigger hm
  rw [h.step_offSpin he hm (by simp), runMicro_trigger (s := ticked s) hk hi hflags]
  rfl

theorem dataValue_of_put {b : Byte} (h : s.data = .put b) : dataValue s = b := by
  simp [dataValue, h, Latch.get, Latch.put]

theorem Calls.step_readData {b : Byte} (h : Calls i p next s) (he : s.eng = .exec p u)
    (hm : (microSteps p)[u]? = some .readData) (hi : s.inflight = none) (hd : s.data = .put b) :
    step s = .next (advance p u (setRes b (ticked s))) := by
  rw [h.step_offSpin he hm (by simp), runMicro_readData (s := ticked s) hi, dataValue_of_put (s := ticked s) hd]

/-- A write of `DATA` and then the trigger, whose operation carries the byte. -/
theorem Calls.runs_write_trigger {b : Byte} {sta sto ea : Bool} {op : BusOp} (h : Calls i p next s)
    (hwrite : step s = .next (advance p u (dataWritten b (ticked s))))
    (hm : (microSteps p)[u + 1]? = some (.trigger sta sto ea)) (hk : kindOf p b = some op) (hi : s.inflight = none) :
    runs 2 s = .next
      { s with
        data := .put b
        ctrl := triggeredCtrl sta sto ea
        inflight := some op
        trace := s.trace ++ [eventOf op]
        regLog := s.regLog ++ [.writeData b, .trigger sta sto ea]
        eng := .exec p (u + 2)
        tick := s.tick + 2 } := by
  have h' : Calls i p next (advance p u (dataWritten b (ticked s))) := h.of_same (by simp) (by simp) (by simp)
  rw [← dataValue_of_put (s := ticked (advance p u (dataWritten b (ticked s)))) rfl] at hk
  rw [runs_next hwrite, runs_one (h'.step_trigger rfl hm hk hi)]
  simp [advance, dataWritten, ticked]

/-- With nothing left for the environment to do a primitive takes its next micro-step. -/
theorem Calls.step_settled (h : Calls i p next s) (he : s.eng = .exec p u) (hm : (microSteps p)[u]? = some m)
    (hi : s.inflight = none) (hb : deviceBusy s = false) : step s = runMicro m p u (leaveTo i next) (ticked s) := by
  obtain ⟨k, a, b, ht, ha⟩ := h.call
  exact step_micro h.powerCycles ht ha he hm (envTurn_settled hi hb)

/-- A micro-step that waits for its flag is a spin, and repeats. -/
theorem exists_spin_of_waits (hw : ¬SpinPast p u s) :
    ∃ m, (microSteps p)[u]? = some m ∧ (m = .spinTC ∨ m = .spinStop) ∧ ∀ leave, runMicro m p u leave s = .next s := by
  simp only [SpinPast, not_and_or, Classical.not_imp] at hw
  rcases hw with ⟨hm, htc⟩ | ⟨hm, hsto⟩
  · exact ⟨.spinTC, hm, .inl rfl, fun _ => runMicro_spinTC_waits (by simpa using htc)⟩
  · exact ⟨.spinStop, hm, .inr rfl, fun _ => runMicro_spinStop_waits (by simpa using hsto)⟩

theorem atSpin_of_waits (he : s.eng = .exec p u) (hw : ¬SpinPast p u s) : atSpin s = true := by
  obtain ⟨m, hm, hspin, -⟩ := exists_spin_of_waits hw
  simpa [atSpin, he, hm] using hspin

/-- A spin that waits lasts as long as the environment is quiet, and only time passes (R121, R172). -/
theorem Calls.runs_quiet {q : Nat} {ms : List EnvMove} (h : Calls i p next s) (he : s.eng = .exec p u)
    (hw : ¬SpinPast p u s) (hi : s.inflight ≠ none) (hmoves : s.moves = List.replicate q EnvMove.quiet ++ ms) :
    runs q s = .next { s with moves := ms, tick := s.tick + q } := by
  induction q generalizing s with
  | zero =>
    obtain rfl : s.moves = ms := hmoves
    rfl
  | succ q ih =>
    obtain ⟨k, a, b, ht, ha⟩ := h.call
    have hturn : envTurn s = true := by
      simp [envTurn, envEnabled, atSpin_of_waits he hw, Option.isSome_iff_ne_none.2 hi]
    obtain ⟨m, hm, -, hrepeats⟩ := exists_spin_of_waits (s := dropMove (ticked s)) hw
    have hstep : step s = .next (dropMove (ticked s)) := by
      rw [step_quiet h.powerCycles ht hturn hmoves]
      exact (exec_micro (s := dropMove (ticked s)) ht ha he hm).trans (hrepeats _)
    rw [runs_next hstep, ih (s := dropMove (ticked s)) ⟨h.powerCycles, h.call⟩ he hw hi (by simp [hmoves])]
    simp [dropMove, ticked, Nat.add_assoc, Nat.add_comm 1]

/-- The completion by an arbitrary environment (R60 to R62). -/
theorem step_answered {op : BusOp} {st d : Byte} {ms : List EnvMove} (hp : s.powerCycles = [])
    (hi : s.inflight = some op) (hs : atSpin s = true) (henv : s.env = .arbitrary)
    (hmoves : s.moves = .answer st d :: ms) :
    step s = .next (finishOp op st d { s with moves := ms, tick := s.tick + 1 }) := by
  rw [step_answer hp hi hs hmoves, envAnswer_arbitrary (s := dropMove (ticked s)) henv, dropMove, ticked, hmoves]
  rfl

/-- After any number of quiet iterations an arbitrary environment answers. -/
theorem Calls.runs_answered {q : Nat} {st d : Byte} {ms : List EnvMove} {op : BusOp} (h : Calls i p next s)
    (he : s.eng = .exec p u) (hw : ¬SpinPast p u s) (hi : s.inflight = some op)
    (henv : s.env = .arbitrary) (hmoves : s.moves = List.replicate q EnvMove.quiet ++ (EnvMove.answer st d :: ms)) :
    runs (q + 1) s = .next (finishOp op st d { s with moves := ms, tick := s.tick + (q + 1) }) := by
  rw [runs_add (h.runs_quiet he hw (by simp [hi]) hmoves)]
  exact runs_one (step_answered h.powerCycles hi (atSpin_of_waits he hw) henv rfl)

end

/-! ### What a bus primitive does to the registers -/

/-- The latches hold the operands that the bus primitive `j` takes (R30, R126, R127). -/
def Loaded (j : Instr) (s : State) : Prop :=
  match j with
  | .txAddr addr dir => s.opA = .put (addr.setWidth 8) ∧ s.opB = .put (dir.toBit.setWidth 8)
  | .txByte data => s.opA = .put data
  | .init | .start | .stop | .rxAck | .rxNak | .decode _ | .eeWrite _ _ | .eeRead _ | .eeWait => True

/-- The operation that the bus primitive `j` starts (R53). -/
def busOp : Instr → Option BusOp
  | .start => some .opStart
  | .stop => some .opStop
  | .txAddr addr dir => some (.opAddr (addrByte addr dir))
  | .txByte data => some (.opData data)
  | .rxAck => some .opRxAck
  | .rxNak => some .opRxNak
  | .init | .decode _ | .eeWrite _ _ | .eeRead _ | .eeWait => none

/-- `DATA` when the bus primitive `j` has started its operation, `old` before it (R126, R127). -/
def busWritten (j : Instr) (old : Latch) : Latch :=
  match j with
  | .txAddr addr dir => .put (addrByte addr dir)
  | .txByte data => .put data
  | .init | .start | .stop | .rxAck | .rxNak | .decode _ | .eeWrite _ _ | .eeRead _ | .eeWait => old

/-- The number of a bus primitive's spin among its micro-steps (`microSteps_spinAt`); the other two have none. -/
def spinAt : Prim → Nat
  | .txAddr | .txByte => 3
  | .init | .start | .stop | .rxAck | .rxNak | .decode => 2

/-- The state in which the bus primitive `j` has written its registers and stands at its spin, its operation in
flight. -/
def issued (j : Instr) (p : Prim) (s : State) : State :=
  { s with
    data := busWritten j s.data
    ctrl := triggeredCtrl (j = .start) (j = .stop) (j = .rxAck)
    inflight := busOp j
    trace := s.trace ++ busEvent j
    regLog := s.regLog ++ busRegOps j
    eng := .exec p (spinAt p)
    tick := s.tick + spinAt p }

/-- The state that a bus primitive leaves for what follows its return, its operation answered with `st` and `d` and the
moves `ms` left, `n` steps after `s`: the columns of R130. -/
def primDone (j : Instr) (ph : Phase) (st d : Byte) (ms : List EnvMove) (n : Nat) (s : State) : State :=
  { s with
    phase := ph
    eng := .idle
    inflight := none
    ctrl := busCtrl j
    data := busData j d s.data
    res := busRes j d s.res
    status := .put st
    trace := s.trace ++ busEvent j
    regLog := s.regLog ++ busRegOps j
    moves := ms
    tick := s.tick + n }

section

variable (j : Instr) (ph : Phase) (st d : Byte) (ms : List EnvMove) (n : Nat) (s : State)

@[simp] theorem primDone_presc : (primDone j ph st d ms n s).presc = s.presc := rfl
@[simp] theorem primDone_div : (primDone j ph st d ms n s).div = s.div := rfl
@[simp] theorem primDone_ctrl : (primDone j ph st d ms n s).ctrl = busCtrl j := rfl
@[simp] theorem primDone_data : (primDone j ph st d ms n s).data = busData j d s.data := rfl
@[simp] theorem primDone_status : (primDone j ph st d ms n s).status = .put st := rfl
@[simp] theorem primDone_opA : (primDone j ph st d ms n s).opA = s.opA := rfl
@[simp] theorem primDone_opB : (primDone j ph st d ms n s).opB = s.opB := rfl
@[simp] theorem primDone_res : (primDone j ph st d ms n s).res = busRes j d s.res := rfl
@[simp] theorem primDone_waitAcked : (primDone j ph st d ms n s).waitAcked = s.waitAcked := rfl
@[simp] theorem primDone_txn : (primDone j ph st d ms n s).txn = s.txn := rfl
@[simp] theorem primDone_eng : (primDone j ph st d ms n s).eng = .idle := rfl
@[simp] theorem primDone_phase : (primDone j ph st d ms n s).phase = ph := rfl
@[simp] theorem primDone_inflight : (primDone j ph st d ms n s).inflight = none := rfl
@[simp] theorem primDone_faults : (primDone j ph st d ms n s).faults = s.faults := rfl
@[simp] theorem primDone_inited : (primDone j ph st d ms n s).inited = s.inited := rfl
@[simp] theorem primDone_probes : (primDone j ph st d ms n s).probes = s.probes := rfl
@[simp] theorem primDone_trace : (primDone j ph st d ms n s).trace = s.trace ++ busEvent j := rfl
@[simp] theorem primDone_regLog : (primDone j ph st d ms n s).regLog = s.regLog ++ busRegOps j := rfl
@[simp] theorem primDone_port : (primDone j ph st d ms n s).port = s.port := rfl
@[simp] theorem primDone_returns : (primDone j ph st d ms n s).returns = s.returns := rfl
@[simp] theorem primDone_lostCalls : (primDone j ph st d ms n s).lostCalls = s.lostCalls := rfl
@[simp] theorem primDone_diags : (primDone j ph st d ms n s).diags = s.diags := rfl
@[simp] theorem primDone_env : (primDone j ph st d ms n s).env = s.env := rfl
@[simp] theorem primDone_dev : (primDone j ph st d ms n s).dev = s.dev := rfl
@[simp] theorem primDone_moves : (primDone j ph st d ms n s).moves = ms := rfl
@[simp] theorem primDone_powerCycles : (primDone j ph st d ms n s).powerCycles = s.powerCycles := rfl
@[simp] theorem primDone_tick : (primDone j ph st d ms n s).tick = s.tick + n := rfl
@[simp] theorem primDone_cfg : (primDone j ph st d ms n s).cfg = s.cfg := rfl

end

section

variable {i j : Instr} {p : Prim} {dir : Dir} {next : Option Nat} {s : State}

/-- The operand latches give back the direction, where a bus primitive takes one. -/
theorem phaseTable_opDir (hj : busPrim j = some (p, dir)) (hl : Loaded j s) (ph : Phase) :
    phaseTable p (opDir s) ph = phaseTable p dir ph := by
  cases busCommand_of_busPrim hj with
  | txAddr addr dir => rw [(operands_of_txAddr hl.1 hl.2).2]
  | start | stop | txByte _ | rxAck | rxNak => exact phaseTable_dir (by simp) _ _ _

theorem Loaded.of_same {t : State} (hl : Loaded j s) (hA : t.opA = s.opA) (hB : t.opB = s.opB) : Loaded j t := by
  cases j <;> simp_all [Loaded]

theorem microSteps_spinAt (hj : busPrim j = some (p, dir)) :
    (microSteps p)[spinAt p]? = some .spinTC ∨ (microSteps p)[spinAt p]? = some .spinStop := by
  cases busCommand_of_busPrim hj <;> simp [microSteps, spinAt]

/-- After its spin a bus primitive returns, and a receive reads `DATA` first (R124 to R129). -/
theorem microSteps_afterSpin (hj : busPrim j = some (p, dir)) :
    if j = .rxAck ∨ j = .rxNak then
      (microSteps p)[spinAt p + 1]? = some .readData ∧ (microSteps p)[spinAt p + 2]? = some .ret
    else (microSteps p)[spinAt p + 1]? = some .ret := by
  cases busCommand_of_busPrim hj <;> simp [microSteps, spinAt]

theorem busRes_eq (j : Instr) (d : Byte) (old : Latch) :
    busRes j d old = if j = .rxAck ∨ j = .rxNak then .put d else old := by
  cases j <;> simp [busRes]

theorem setPhase_eq (q : Option Phase) (s : State) : setPhase q s = { s with phase := (setPhase q s).phase } := by
  unfold setPhase
  split
  · rfl
  · split <;> rfl

/-- The return of a bus primitive that was in contract. -/
theorem Calls.step_ret {u : Nat} {ph : Phase} (h : Calls i p next s) (he : s.eng = .exec p u)
    (hm : (microSteps p)[u]? = some .ret) (hj : busPrim j = some (p, dir)) (hl : Loaded j s)
    (hph : phaseTable p dir s.phase = some ph) :
    step s = .next (leaveTo i next { s with phase := ph, eng := .idle, tick := s.tick + 1 }) := by
  have hdir : phaseTable p (opDir (ticked s)) (ticked s).phase = some ph :=
    (phaseTable_opDir (s := ticked s) hj (hl.of_same rfl rfl) s.phase).trans hph
  rw [h.step_offSpin he hm (by simp), runMicro, setPhase_eq, setPhase_of_phaseTable hdir]
  cases next <;> rfl

/-- From its contract step a bus primitive in contract goes on to its spin, its operation in flight. -/
theorem Calls.runs_issued (h : Calls i p next s) (hj : busPrim j = some (p, dir)) (hl : Loaded j s)
    (he : s.eng = .exec p 0) (hinit : s.inited = true) (hph : phaseTable p dir s.phase ≠ none)
    (hi : s.inflight = none) : runs (spinAt p) s = .next (issued j p s) := by
  obtain ⟨q, hq⟩ := Option.ne_none_iff_exists'.1 hph
  have hcontract : step s = .next (advance p 0 (ticked s)) := by
    rw [h.step_offSpin he (tableOf_busPrim hj s.cfg).2 (by simp), runMicro,
      contractStep_of_phaseTable (s := ticked s) hinit hq]
  let s1 := advance p 0 (ticked s)
  have h1 : Calls i p next s1 := h.of_same (by simp [s1]) (by simp [s1]) (by simp [s1])
  have hi1 : s1.inflight = none := hi
  have hl1 : Loaded j (ticked s1) := hl.of_same (by simp [s1]) (by simp [s1])
  rw [show spinAt p = spinAt p - 1 + 1 by cases p <;> rfl, runs_next hcontract]
  cases busCommand_of_busPrim hj with
  | start | stop | rxAck | rxNak =>
    exact (runs_one (h1.step_trigger rfl rfl rfl hi1) :)
  | txAddr addr dir =>
    have hwrite := (h1.step_offSpin rfl rfl (by simp)).trans (runMicro_writeAddr (operands_of_txAddr hl1.1 hl1.2) hi1)
    exact h1.runs_write_trigger hwrite rfl rfl hi1
  | txByte data =>
    have hwrite := (h1.step_offSpin rfl rfl (by simp)).trans (runMicro_writeData hl1 hi1)
    exact h1.runs_write_trigger hwrite rfl rfl hi1

/-- Past its spin, with nothing in flight, a bus primitive goes on to its return: a receive reads `DATA` into `RES`, and
the phase becomes that of R131. -/
theorem Calls.runs_to_return {ph : Phase} {d : Byte} (h : Calls i p next s) (hj : busPrim j = some (p, dir))
    (hl : Loaded j s) (he : s.eng = .exec p (spinAt p)) (hpast : SpinPast p (spinAt p) s) (hi : s.inflight = none)
    (hb : deviceBusy s = false) (hph : phaseTable p dir s.phase = some ph)
    (hd : j = .rxAck ∨ j = .rxNak → s.data = .put d) :
    ∃ n, runs n s = .next
      (leaveTo i next { s with res := busRes j d s.res, phase := ph, eng := .idle, tick := s.tick + n }) := by
  have hspin : step s = .next (advance p (spinAt p) (ticked s)) := by
    rcases microSteps_spinAt hj with hm | hm
    · exact (h.step_settled he hm hi hb).trans (runMicro_spinTC_past (hpast.1 hm))
    · exact (h.step_settled he hm hi hb).trans (runMicro_spinStop_past (hpast.2 hm))
  have h1 : Calls i p next (advance p (spinAt p) (ticked s)) := h.of_same (by simp) (by simp) (by simp)
  have hafter := microSteps_afterSpin hj
  by_cases hreceive : j = .rxAck ∨ j = .rxNak
  · obtain ⟨hmRead, hmRet⟩ : _ ∧ _ := by simpa only [if_pos hreceive] using hafter
    have hread := h1.step_readData rfl hmRead hi (hd hreceive)
    have h2 := h1.of_same (t := advance p (spinAt p + 1) (setRes d (ticked (advance p (spinAt p) (ticked s)))))
      (by simp) (by simp) (by simp)
    have hret := h2.step_ret rfl hmRet hj (hl.of_same (by simp) (by simp)) (by simpa using hph)
    exact ⟨3, by rw [runs_next hspin, runs_next hread, runs_one hret]; simp [busRes_eq, hreceive]⟩
  · have hret := h1.step_ret rfl (by simpa only [if_neg hreceive] using hafter) hj (hl.of_same (by simp) (by simp)) hph
    exact ⟨2, by rw [runs_next hspin, runs_one hret]; simp [busRes_eq, hreceive]⟩

theorem busOp_of_busPrim (hj : busPrim j = some (p, dir)) : ∃ op, busOp j = some op := by
  cases busCommand_of_busPrim hj <;> exact ⟨_, rfl⟩

/-- A primitive's spin waits while its operation is in flight (R24, R25). -/
theorem issued_waits (hj : busPrim j = some (p, dir)) (s : State) : ¬SpinPast p (spinAt p) (issued j p s) := by
  cases busCommand_of_busPrim hj <;> simp [SpinPast, microSteps, spinAt, issued, triggeredCtrl]

/-- The completion sets the flag that the spin waits for (R61, R62). -/
theorem spinPast_finishOp (hj : busPrim j = some (p, dir)) {op : BusOp} (hop : busOp j = some op) (st d : Byte)
    (s : State) : SpinPast p (spinAt p) (finishOp op st d s) := by
  cases busCommand_of_busPrim hj <;> obtain rfl := Option.some.inj hop <;> simp [SpinPast, microSteps, spinAt]

/-- What the completion makes of the registers is the columns of R130. -/
theorem finishOp_issued (hj : busPrim j = some (p, dir)) {op : BusOp} (hop : busOp j = some op) (s : State)
    (st d : Byte) (ms : List EnvMove) (n k : Nat) (ph : Phase) :
    { finishOp op st d { issued j p s with moves := ms, tick := s.tick + n } with
      res := busRes j d s.res, phase := ph, eng := .idle, tick := s.tick + k } = primDone j ph st d ms k s := by
  cases busCommand_of_busPrim hj <;> obtain rfl := Option.some.inj hop <;> rfl

/-- A bus primitive in contract runs to its return once an arbitrary environment has answered, however long the spin
lasted. -/
theorem Calls.runs_primDone {ph : Phase} {q : Nat} {st d : Byte} {ms : List EnvMove} (h : Calls i p next s)
    (hj : busPrim j = some (p, dir)) (hl : Loaded j s) (he : s.eng = .exec p 0) (hinit : s.inited = true)
    (hph : phaseTable p dir s.phase = some ph) (hi : s.inflight = none) (henv : s.env = .arbitrary)
    (hmoves : s.moves = List.replicate q EnvMove.quiet ++ (EnvMove.answer st d :: ms)) :
    ∃ n, runs n s = .next (leaveTo i next (primDone j ph st d ms n s)) := by
  obtain ⟨op, hop⟩ := busOp_of_busPrim hj
  have hissued := h.runs_issued hj hl he hinit (by simp [hph]) hi
  have h1 : Calls i p next (issued j p s) := ⟨h.powerCycles, h.call⟩
  let t : State := { issued j p s with moves := ms, tick := s.tick + spinAt p + (q + 1) }
  have hanswered : runs (q + 1) (issued j p s) = .next (finishOp op st d t) :=
    h1.runs_answered rfl (issued_waits hj s) hop henv hmoves
  have h2 : Calls i p next (finishOp op st d t) := h1.of_same (by simp [t]) (by simp [t]) (by simp [t])
  have hreceived : j = .rxAck ∨ j = .rxNak → (finishOp op st d t).data = .put d := by
    rintro (rfl | rfl) <;> obtain rfl := Option.some.inj hop <;> rfl
  obtain ⟨n, hreturn⟩ := h2.runs_to_return hj (hl.of_same (by simp [t, issued]) (by simp [t, issued]))
    (by simp [t, issued]) (spinPast_finishOp hj hop st d t) (by simp) (by simp [deviceBusy, t, issued, henv])
    (by simpa [t, issued] using hph) hreceived
  refine ⟨spinAt p + (q + 1) + n, ?_⟩
  rw [runs_add ((runs_add hissued).trans hanswered), hreturn, ← finishOp_issued hj hop s st d ms (spinAt p + (q + 1))]
  simp [t, issued, Nat.add_assoc]

end

/-! ### A bus primitive on its own (R92) -/

/-- A bus primitive that is offered stands, two steps later, at its own contract step with its operands loaded. -/
theorem runs_called {i : Instr} {p : Prim} {dir : Dir} {s : State} {rest : List CmdWord}
    (hi : busPrim i = some (p, dir)) (h : Offers s i rest) :
    runs 2 s = .next (enter p none none (ticked (accept i (setPort rest (ticked s))))) := by
  have haccept : step s = .next (accept i (setPort rest (ticked s))) := by
    have hne : i ≠ .eeWait := by rintro rfl; simp [busPrim] at hi
    rw [step_accepts h, onAccept, if_neg hne]
  have hcall := step_action (s := accept i (setPort rest (ticked s))) h.powerCycles rfl (tableOf_busPrim hi s.cfg).1
    h.eng
  rw [runs_next haccept, runs_one hcall, startAction]

theorem loaded_enter_accept (i : Instr) (p : Prim) (s : State) :
    Loaded i (enter p none none (ticked (accept i s))) := by
  cases i <;> simp [Loaded, loadOperand, Instr.byteA, Instr.byteB]

theorem returnValue_primDone {i : Instr} {p : Prim} {dir : Dir} (hi : busPrim i = some (p, dir)) (ph : Phase)
    (st d : Byte) (ms : List EnvMove) (n : Nat) (s : State) :
    returnValue i (primDone i ph st d ms n s) = busReturn i d := by
  cases busCommand_of_busPrim hi <;> rfl

/-- Settles O24: the command is accepted, calls its primitive, and `Calls.runs_primDone` is the primitive's run. -/
theorem busPrimitivesRunToReturn : Obligations.BusPrimitivesRunToReturn := by
  intro i p dir ph s rest q st d ms hi hph ho hinit henv hmoves
  let s1 := enter p none none (ticked (accept i (setPort rest (ticked s))))
  have hcalls : Calls i p none s1 :=
    ⟨by simp [s1, ho.powerCycles], 0, none, none, by simp [s1], by simpa [s1] using (tableOf_busPrim hi s.cfg).1⟩
  obtain ⟨n, hrun⟩ := hcalls.runs_primDone (st := st) (d := d) hi (loaded_enter_accept i p _) (by simp [s1])
    (by simpa [s1] using hinit) (by simpa [s1] using hph) (by simpa [s1] using ho.inflight) (by simpa [s1] using henv)
    (by simpa [s1] using hmoves)
  refine ⟨2 + n, _, (runs_add (runs_called hi ho)).trans hrun,
    ⟨by simp, by simp, by simp, by simp [s1]⟩, ?_⟩
  simp [s1, returnValue_primDone hi, Latch.put]

end Sys2Proof.Machine
end

section
/-!
PROOFS. The status decoder and the command `DECODE` (spec 41_status_decode.md R140 to R142, 30_encoding.md R97, R98):
the outcome of a byte gives the byte back, and what the command's one micro-step answers.
-/

namespace Sys2Proof.Machine

/-! ### The decoder (R97, R140, R141) -/

/-- The eleven status codes that have an outcome of their own (R97). -/
def namedCodes : List Byte :=
  [0x08, 0x10, 0x38, 0x18, 0x20, 0x28, 0x30, 0x40, 0x48, 0x50, 0x58]

/-- The byte that has the outcome: the inverse of the decoder (`codeOf_decodeStatus`). -/
def codeOf : BusOutcome → Byte
  | .startSent => 0x08
  | .repeatedStartSent => 0x10
  | .arbitrationLostOrNak => 0x38
  | .addrWriteAcked => 0x18
  | .addrWriteNaked => 0x20
  | .dataWriteAcked => 0x28
  | .dataWriteNaked => 0x30
  | .addrReadAcked => 0x40
  | .addrReadNaked => 0x48
  | .dataReadAckSent => 0x50
  | .dataReadNakSent => 0x58
  | .unrecognized raw => raw

/-- The catch-all of the decoder (R141). -/
theorem decodeStatus_of_notMem_namedCodes {v : Byte} (h : v ∉ namedCodes) : decodeStatus v = .unrecognized v := by
  simp only [namedCodes, List.mem_cons, List.not_mem_nil, or_false, not_or] at h
  simp only [decodeStatus, h, if_false]

theorem codeOf_decodeStatus (v : Byte) : codeOf (decodeStatus v) = v := by
  by_cases h : v ∈ namedCodes
  · have named : ∀ c ∈ namedCodes, codeOf (decodeStatus c) = c := by decide
    exact named v h
  · rw [decodeStatus_of_notMem_namedCodes h, codeOf]

theorem decodeStatus_injective : Function.Injective decodeStatus :=
  Function.LeftInverse.injective codeOf_decodeStatus

/-- Settles O22: the table, its catch-all, and `codeOf` as the left inverse that makes the decoder injective. -/
theorem decoderIsTotalAndInjective : Obligations.DecoderIsTotalAndInjective :=
  ⟨by decide, fun _ h => decodeStatus_of_notMem_namedCodes h, fun _ _ h => decodeStatus_injective h⟩

/-! ### The command (R142) -/

theorem opAValue_of_put {b : Byte} {s : State} (h : s.opA = .put b) : opAValue s = b := by
  simp [opAValue, h, Latch.get, Latch.put]

/-- The one micro-step of `DECODE`, its operand loaded: it emits the outcome as a label and returns its word (R98,
R143). -/
theorem runMicro_decode {p : Prim} {u : Nat} {raw : Byte} {s : State} (hA : s.opA = .put raw) :
    runMicro .decode p u (leaveTo (.decode raw) none) s = .next
      { s with
        diags := s.diags ++ [decodeStatus raw], txn := .idle, eng := .idle,
        returns := s.returns ++ [.outcome (outcomeWord raw)] } := by
  have hraw : opAValue s = raw := opAValue_of_put hA
  have hret : returnValue (.decode raw) (emitDiag (decodeStatus raw) s) = .outcome (outcomeWord raw) := by
    rw [returnValue, opAValue_of_put (s := emitDiag (decodeStatus raw) s) hA]
  rw [runMicro, hraw, leaveTo, commandReturn, hret]
  rfl

/-- Settles O21: the command calls its primitive, whose only micro-step is that of `runMicro_decode`; neither looks at
the phase or at whether `INIT` has run. -/
theorem decodeReturnsTheOutcome : Obligations.DecodeReturnsTheOutcome := fun _ _ ht hA =>
  ⟨exec_action ht rfl, fun he => (exec_micro ht rfl he rfl).trans (runMicro_decode hA)⟩

end Sys2Proof.Machine
end

section
/-!
PROOFS. The step tables of the EEPROM Client's transactions (spec 42_eeprom_client.md R150 to R155): their steps between
two primitives, the status test of `EE_WAIT`, the primitives that they call against the expansion (30_encoding.md
R105), and the micro-steps inside a call.
-/

namespace Sys2Proof.Machine

/-! ### The steps between two primitives (R151 to R155) -/

/-- The return to the host, the engine already idle. -/
theorem commandReturn_of_idle {i : Instr} {s : State} (he : s.eng = .idle) :
    commandReturn i s = { s with txn := .idle, returns := s.returns ++ [returnValue i s] } := by
  rw [commandReturn, ← he]

/-- Settles O25: each step starts the action of the table, a call or, at step 5, the return. -/
theorem eeWriteSteps : Obligations.EeWriteSteps := by
  intro o v k s ht he
  refine ⟨?_, ?_, ?_, ?_, ?_, fun hk => ?_⟩
  case refine_6 =>
    subst hk
    rw [exec_action ht rfl he, startAction, commandReturn_of_idle he, returnValue]
  all_goals
    rintro rfl
    exact exec_action ht rfl he

/-- Settles O26: each step starts the action of the table, a call or, at step 7, the return. -/
theorem eeReadSteps : Obligations.EeReadSteps := by
  intro o k s ht he
  refine ⟨?_, ?_, ?_, ?_, ?_, ?_, ?_, fun hk => ?_⟩
  case refine_8 =>
    subst hk
    rw [exec_action ht rfl he, startAction, commandReturn_of_idle he, returnValue]
  all_goals
    rintro rfl
    exact exec_action ht rfl he

theorem decodeStatus_eq_addrWriteAcked_iff {v : Byte} : decodeStatus v = .addrWriteAcked ↔ v = 0x18 :=
  ⟨fun h => decodeStatus_injective h, fun h => h ▸ rfl⟩

theorem boundReached_iff {cfg : Config} {n : Nat} :
    boundReached cfg n = true ↔ ∃ b, cfg.pollBound = some b ∧ b ≤ n := by
  unfold boundReached
  cases cfg.pollBound <;> simp

section

variable {i : Instr} {exit again : Nat} {s : State}

/-- Only `0x18` ends the loop (R153). -/
theorem probeTest_acked (h : readStatus s = 0x18) :
    probeTest i exit again s = { s with probes := s.probes + 1, waitAcked := true, txn := .run i exit } := by
  rw [probeTest, if_pos (decodeStatus_eq_addrWriteAcked_iff.2 h)]

/-- An exhausted bound leaves the loop (R155). -/
theorem probeTest_exhausted (h : readStatus s ≠ 0x18) (hb : boundReached s.cfg (s.probes + 1) = true) :
    probeTest i exit again s = { s with probes := s.probes + 1, txn := .run i exit } := by
  rw [probeTest, if_neg (mt decodeStatus_eq_addrWriteAcked_iff.1 h), if_pos hb]

theorem probeTest_retries (h : readStatus s ≠ 0x18) (hb : ∀ b, s.cfg.pollBound = some b → s.probes + 1 < b) :
    probeTest i exit again s = { s with probes := s.probes + 1, txn := .run i again } := by
  have hnot : ¬boundReached s.cfg (s.probes + 1) = true := fun hr => by
    obtain ⟨b, hcfg, hle⟩ := boundReached_iff.1 hr
    exact absurd (hb b hcfg) (by omega)
  rw [probeTest, if_neg (mt decodeStatus_eq_addrWriteAcked_iff.1 h), if_neg hnot]

end

theorem eeWaitTable_loopBack (cfg : Config) :
    tableOf cfg .eeWait 3 = some (if cfg.probeStop then .call .stop none none (some 0) else .jump 0) := rfl

theorem eeWaitTable_finish (cfg : Config) :
    tableOf cfg .eeWait 4 = some (if cfg.waitFinalStop then .call .stop none none none else .ret) := rfl

/-- Settles O27: the calls, the three ways of the status test, and the two switches. -/
theorem eeWaitSteps : Obligations.EeWaitSteps := by
  intro k s ht he
  refine ⟨?_, ?_, ?_, ?_, ?_, ?_, ?_, ?_, ?_⟩ <;> rintro rfl
  · exact exec_action ht rfl he
  · exact exec_action ht rfl he
  · intro hst
    rw [exec_action ht rfl he, startAction, probeTest_acked hst]
  · intro hst hb
    rw [exec_action ht rfl he, startAction, probeTest_exhausted hst (boundReached_iff.2 hb)]
  · intro hst hb
    rw [exec_action ht rfl he, startAction, probeTest_retries hst hb]
  · intro hstop
    rw [exec_action ht (eeWaitTable_loopBack s.cfg) he, hstop]
    rfl
  · intro hstop
    rw [exec_action ht (eeWaitTable_loopBack s.cfg) he, hstop]
    rfl
  · intro hstop
    rw [exec_action ht (eeWaitTable_finish s.cfg) he, hstop]
    exact congrArg _ (commandReturn_of_idle he)
  · intro hstop
    rw [exec_action ht (eeWaitTable_finish s.cfg) he, hstop]
    rfl

/-! ### The primitives of the expansion (R105) -/

/-- The byte that a call of the bus primitive `j` loads into `OPA`, where `j` takes one (R126, R127, R150). -/
def argA : Instr → Option Byte
  | .txAddr addr _ => some (addr.setWidth 8)
  | .txByte data => some data
  | .init | .start | .stop | .rxAck | .rxNak | .decode _ | .eeWrite _ _ | .eeRead _ | .eeWait => none

/-- The byte that a call of the bus primitive `j` loads into `OPB`, where `j` takes one (R126, R150). -/
def argB : Instr → Option Byte
  | .txAddr _ dir => some (dir.toBit.setWidth 8)
  | .init | .start | .stop | .txByte _ | .rxAck | .rxNak | .decode _ | .eeWrite _ _ | .eeRead _ | .eeWait => none

/-- The operand bytes of a call are those of the primitive's own word. -/
theorem args_are_fields (j : Instr) : (∀ x, argA j = some x → x = j.byteA) ∧ ∀ x, argB j = some x → x = j.byteB := by
  cases j <;> simp [argA, argB, Instr.byteA, Instr.byteB]

/-- A call loads every operand that its primitive takes. -/
theorem args_suffice {j : Instr} {p : Prim} {dir : Dir} (hj : busPrim j = some (p, dir)) :
    ((p = .txAddr ∨ p = .txByte) → argA j ≠ none) ∧ (p = .txAddr → argB j ≠ none) := by
  cases busCommand_of_busPrim hj <;> simp [argA, argB]

/-- Step `k` of `EE_WRITE` or `EE_READ` calls the `k`-th primitive of its expansion, with that primitive's operands. -/
theorem tableOf_expansion {cfg : Config} {i j : Instr} {prims : List Instr} {k : Nat} (h : i.expansion cfg = some prims)
    (hj : prims[k]? = some j) :
    ∃ p dir, busPrim j = some (p, dir) ∧ tableOf cfg i k = some (.call p (argA j) (argB j) (some (k + 1))) := by
  have hk : k < prims.length := (List.getElem?_eq_some_iff.1 hj).1
  cases i with
  | init | start | stop | txAddr _ _ | txByte _ | rxAck | rxNak | decode _ | eeWait => simp [Instr.expansion] at h
  | eeWrite _ _ | eeRead _ =>
    obtain rfl := Option.some.inj h
    simp only [List.length_cons, List.length_nil] at hk
    interval_cases k <;> obtain rfl := Option.some.inj hj <;> exact ⟨_, _, rfl, rfl⟩

theorem tableOf_expansion_length {cfg : Config} {i : Instr} {prims : List Instr} (h : i.expansion cfg = some prims) :
    tableOf cfg i prims.length = some .ret := by
  cases i with
  | init | start | stop | txAddr _ _ | txByte _ | rxAck | rxNak | decode _ | eeWait => simp [Instr.expansion] at h
  | eeWrite _ _ | eeRead _ =>
    obtain rfl := Option.some.inj h
    rfl

/-- Settles O29: the table calls the primitives of the expansion one after the other. -/
theorem transactionsAreTheirExpansion : Obligations.TransactionsAreTheirExpansion := by
  intro cfg i prims h
  refine ⟨tableOf_expansion_length h, fun k j hj => ?_⟩
  obtain ⟨p, dir, hprim, htable⟩ := tableOf_expansion h hj
  exact ⟨p, dir, argA j, argB j, hprim, htable, (args_are_fields j).1, (args_are_fields j).2, args_suffice hprim⟩

/-! ### Inside a call (R150) -/

/-- `s` with the transaction sequencer elsewhere. -/
def setTxn (x : Txn) (s : State) : State := { s with txn := x }

theorem setTxn_setTxn (x y : Txn) (s : State) : setTxn x (setTxn y s) = setTxn x s := rfl

theorem setTxn_of_eq {x : Txn} {s : State} (h : s.txn = x) : setTxn x s = s := by
  rw [setTxn, ← h]

theorem contractStep_setTxn (x : Txn) (p : Prim) (s : State) :
    contractStep p (setTxn x s) = setTxn x (contractStep p s) := by
  rw [contractStep, contractStep, apply_ite (setTxn x), apply_ite (setTxn x)]
  rfl

/-- A micro-step that does not return from its primitive neither moves the transaction sequencer nor looks at it or at
what follows the return. -/
theorem runMicro_setTxn {m : Micro} {p : Prim} {u : Nat} {leave : State → State} {s t : State}
    (hlast : m ≠ .ret ∧ m ≠ .markInited ∧ m ≠ .decode) (h : runMicro m p u leave s = .next t) :
    t.txn = s.txn ∧ ∀ x leave', runMicro m p u leave' (setTxn x s) = .next (setTxn x t) := by
  cases m with
  | ret | markInited | decode => simp at hlast
  | contract =>
    obtain rfl := next_inj h
    exact ⟨by simp, fun x _ => by rw [runMicro, contractStep_setTxn]; rfl⟩
  | setClock =>
    obtain rfl := next_inj h
    exact ⟨rfl, fun _ _ => rfl⟩
  | spinTC | spinStop =>
    obtain rfl := next_inj h
    refine ⟨by split <;> rfl, fun x _ => ?_⟩
    rw [apply_ite (setTxn x)]
    rfl
  | writeAddr | writeData =>
    obtain ⟨r, hr, hadv⟩ := andThen_next.1 h
    obtain ⟨hi, rfl⟩ := writeData_next.1 hr
    obtain rfl := next_inj hadv
    exact ⟨rfl, fun _ _ => andThen_next.2 ⟨_, writeData_next.2 ⟨hi, rfl⟩, rfl⟩⟩
  | trigger sta sto ea =>
    obtain ⟨r, hr, hadv⟩ := andThen_next.1 h
    obtain ⟨op, hk, hi, hflags, rfl⟩ := trigger_next.1 hr
    obtain rfl := next_inj hadv
    exact ⟨rfl, fun x _ => runMicro_trigger (s := setTxn x s) hk hi hflags⟩
  | readData =>
    simp only [runMicro] at h
    obtain ⟨hi, hadv⟩ := readDataThen_next.1 h
    obtain rfl := next_inj hadv
    exact ⟨rfl, fun x _ => runMicro_readData (s := setTxn x s) hi⟩

/-- The end of a primitive writes the phase of R131, and `Undefined` stays (R132). -/
theorem setPhase_endPhase {p : Prim} {dir : Dir} {s : State} {ph : Phase}
    (hph : phaseTable p dir s.phase = some ph ∨ (s.phase = .undefined ∧ ph = .undefined)) :
    setPhase (endPhase p dir) s = { s with phase := ph } := by
  rcases hph with hph | ⟨hs, rfl⟩
  · rw [setPhase_eq, setPhase_of_phaseTable hph]
  · rw [setPhase_eq]
    cases endPhase p dir <;> simp [hs]

theorem commandReturn_setPhase (i : Instr) (ph : Phase) (s : State) :
    commandReturn i { s with phase := ph } =
      { s with phase := ph, txn := .idle, eng := .idle, returns := s.returns ++ [returnValue i s] } := by
  cases i <;> rfl

/-- Settles O28: inside a call `exec` is a micro-step of the primitive, which before its return does not look at the
transaction, and its return is `leaveTo`. -/
theorem transactionsRunTheirPrimitives : Obligations.TransactionsRunTheirPrimitives := by
  intro i k p a b next u m s ht ha he hm
  rw [exec_micro ht ha he hm]
  refine ⟨fun hret hinit hdec j hj t => ?_, ?_⟩
  · have hlast : m ≠ .ret ∧ m ≠ .markInited ∧ m ≠ .decode := ⟨hret, hinit, hdec⟩
    rw [show exec j { s with txn := .run j 0 } = _ from exec_micro (s := setTxn (.run j 0) s) rfl hj he hm]
    constructor
    · intro hrun
      obtain ⟨htxn, hothers⟩ := runMicro_setTxn hlast hrun
      exact ⟨htxn.trans ht, hothers _ _⟩
    · rintro ⟨htxn, hrun⟩
      have hback := (runMicro_setTxn hlast hrun).2 (.run i k) (leaveTo i next)
      rwa [setTxn_setTxn, setTxn_of_eq ht, show ({ t with txn := .run j 0 } : State) = setTxn (.run j 0) t from rfl,
        setTxn_setTxn, setTxn_of_eq htxn] at hback
  · rintro rfl ph hph
    rw [runMicro, setPhase_endPhase hph]
    refine ⟨?_, ?_⟩
    · rintro k' rfl
      rfl
    · rintro rfl
      rw [leaveTo, commandReturn_setPhase]

end Sys2Proof.Machine
end

section
/-!
PROOFS. The transactions `EE_WRITE` and `EE_READ` against an arbitrary environment that answers each of their operations
(spec 42_eeprom_client.md R150 to R152): a call of one primitive, a path of calls through the step table, and the
return.
-/

namespace Sys2Proof.Machine

/-! ### Between two primitives (R32, R150) -/

/-- The command `i` stands before step `k` of its table on an initialised block, nothing in flight and no power cycle to
come. -/
structure Between (i : Instr) (k : Nat) (s : State) : Prop where
  txn : s.txn = .run i k
  eng : s.eng = .idle
  inflight : s.inflight = none
  powerCycles : s.powerCycles = []
  inited : s.inited = true

/-- The state in which the port has accepted `i`, the host's words `rest` left. -/
def accepted (i : Instr) (rest : List CmdWord) (s : State) : State := accept i (onAccept i (setPort rest (ticked s)))

section

variable (i : Instr) (rest : List CmdWord) (s : State)

@[simp] theorem accepted_ctrl : (accepted i rest s).ctrl = s.ctrl := by
  unfold accepted onAccept; split <;> rfl
@[simp] theorem accepted_res : (accepted i rest s).res = s.res := by
  unfold accepted onAccept; split <;> rfl
@[simp] theorem accepted_eng : (accepted i rest s).eng = s.eng := by
  unfold accepted onAccept; split <;> rfl
@[simp] theorem accepted_phase : (accepted i rest s).phase = s.phase := by
  unfold accepted onAccept; split <;> rfl
@[simp] theorem accepted_inflight : (accepted i rest s).inflight = s.inflight := by
  unfold accepted onAccept; split <;> rfl
@[simp] theorem accepted_faults : (accepted i rest s).faults = s.faults := by
  unfold accepted onAccept; split <;> rfl
@[simp] theorem accepted_inited : (accepted i rest s).inited = s.inited := by
  unfold accepted onAccept; split <;> rfl
@[simp] theorem accepted_trace : (accepted i rest s).trace = s.trace := by
  unfold accepted onAccept; split <;> rfl
@[simp] theorem accepted_regLog : (accepted i rest s).regLog = s.regLog := by
  unfold accepted onAccept; split <;> rfl
@[simp] theorem accepted_port : (accepted i rest s).port = rest := by
  unfold accepted onAccept; split <;> rfl
@[simp] theorem accepted_returns : (accepted i rest s).returns = s.returns := by
  unfold accepted onAccept; split <;> rfl
@[simp] theorem accepted_env : (accepted i rest s).env = s.env := by
  unfold accepted onAccept; split <;> rfl
@[simp] theorem accepted_dev : (accepted i rest s).dev = s.dev := by
  unfold accepted onAccept; split <;> rfl
@[simp] theorem accepted_moves : (accepted i rest s).moves = s.moves := by
  unfold accepted onAccept; split <;> rfl
@[simp] theorem accepted_powerCycles : (accepted i rest s).powerCycles = s.powerCycles := by
  unfold accepted onAccept; split <;> rfl
@[simp] theorem accepted_cfg : (accepted i rest s).cfg = s.cfg := by
  unfold accepted onAccept; split <;> rfl

end

/-- The state in which a transaction has called the bus primitive `j`, which the engine runs as `p`. -/
def called (j : Instr) (p : Prim) (s : State) : State := enter p (argA j) (argB j) (ticked s)

theorem Offers.between {i : Instr} {s : State} {rest : List CmdWord} (h : Offers s i rest) (hinit : s.inited = true) :
    Between i 0 (accepted i rest s) :=
  ⟨rfl, by simp [h.eng], by simp [h.inflight], by simp [h.powerCycles], by simp [hinit]⟩

theorem loaded_called (j : Instr) (p : Prim) (s : State) : Loaded j (called j p s) := by
  cases j <;> simp [Loaded, called, argA, argB, loadOperand]

section

variable {i j : Instr} {k : Nat} {p : Prim} {dir : Dir} {next : Option Nat} {s : State}

theorem Between.step_call (h : Between i k s) (ha : tableOf s.cfg i k = some (.call p (argA j) (argB j) next)) :
    step s = .next (called j p s) :=
  step_action h.powerCycles h.txn ha h.eng

theorem Between.calls (h : Between i k s) (ha : tableOf s.cfg i k = some (.call p (argA j) (argB j) next)) :
    Calls i p next (called j p s) :=
  ⟨h.powerCycles, k, argA j, argB j, h.txn, ha⟩

/-- A call of a bus primitive in contract, which an arbitrary environment answers with the reply `r`. -/
theorem Between.runs_call {ph : Phase} {r : Reply} {ms : List EnvMove} (h : Between i k s)
    (hj : busPrim j = some (p, dir)) (ha : tableOf s.cfg i k = some (.call p (argA j) (argB j) next))
    (hph : phaseTable p dir s.phase = some ph) (henv : s.env = .arbitrary) (hmoves : s.moves = r.moves ++ ms) :
    ∃ n m, runs n s = .next (leaveTo i next (primDone j ph r.st r.d ms m (called j p s))) := by
  have hlisted : (called j p s).moves = List.replicate r.quiet .quiet ++ (.answer r.st r.d :: ms) := by
    simp [called, hmoves, Reply.moves]
  obtain ⟨n, hrun⟩ := (h.calls ha).runs_primDone hj (loaded_called j p s) rfl h.inited hph h.inflight henv hlisted
  exact ⟨n + 1, n, (runs_next (h.step_call ha)).trans hrun⟩

/-- After a call the transaction stands before the table's next step, whatever the operation made of the device. -/
theorem Between.of_call {dev : Device} {ph : Phase} {st d : Byte} {ms : List EnvMove} {m k' : Nat}
    (h : Between i k s) : Between i k' (leaveTo i (some k') (primDone j ph st d ms m (setDev dev (called j p s)))) :=
  ⟨rfl, rfl, rfl, h.powerCycles, h.inited⟩

theorem Between.after_ticked (h : Between i k s) : Between i k (ticked s) :=
  ⟨h.txn, h.eng, h.inflight, h.powerCycles, h.inited⟩

/-- The return of a transaction. -/
theorem Between.step_return (h : Between i k s) (ha : tableOf s.cfg i k = some .ret) :
    step s = .next (commandReturn i (ticked s)) :=
  step_action h.powerCycles h.txn ha h.eng

theorem Between.returned {rest : List CmdWord} (h : Between i k s) (hport : s.port = rest) :
    Returned (commandReturn i (ticked s)) rest :=
  ⟨rfl, rfl, h.inflight, hport⟩

end

/-! ### What a stretch of a transaction leaves behind -/

/-- From `s` to `t` the bus has seen the events `ev`, the register interface the writes `ro`, and `n` probes were
counted; the marks and the host's side are as before. -/
structure Did (ev : List BusEvent) (ro : List RegOp) (n : Nat) (s t : State) : Prop where
  trace : t.trace = s.trace ++ ev
  regLog : t.regLog = s.regLog ++ ro
  probes : t.probes = s.probes + n
  faults : t.faults = s.faults
  port : t.port = s.port
  returns : t.returns = s.returns
  env : t.env = s.env
  cfg : t.cfg = s.cfg

theorem Did.refl (s : State) : Did [] [] 0 s s := ⟨by simp, by simp, rfl, rfl, rfl, rfl, rfl, rfl⟩

theorem Did.trans {ev ev' : List BusEvent} {ro ro' : List RegOp} {n n' : Nat} {s t u : State} (h : Did ev ro n s t)
    (h' : Did ev' ro' n' t u) : Did (ev ++ ev') (ro ++ ro') (n + n') s u where
  trace := by rw [h'.trace, h.trace, List.append_assoc]
  regLog := by rw [h'.regLog, h.regLog, List.append_assoc]
  probes := by rw [h'.probes, h.probes, Nat.add_assoc]
  faults := h'.faults.trans h.faults
  port := h'.port.trans h.port
  returns := h'.returns.trans h.returns
  env := h'.env.trans h.env
  cfg := h'.cfg.trans h.cfg

theorem Did.after_ticked {ev : List BusEvent} {ro : List RegOp} {n : Nat} {s t : State} (h : Did ev ro n s t) :
    Did ev ro n s (ticked t) :=
  ⟨h.trace, h.regLog, h.probes, h.faults, h.port, h.returns, h.env, h.cfg⟩

theorem Did.after_goto {ev : List BusEvent} {ro : List RegOp} {n : Nat} {s t : State} (h : Did ev ro n s t) (i : Instr)
    (k : Nat) : Did ev ro n s (goto i k t) :=
  ⟨h.trace, h.regLog, h.probes, h.faults, h.port, h.returns, h.env, h.cfg⟩

theorem did_call (i j : Instr) (p : Prim) (dev : Device) (ph : Phase) (st d : Byte) (ms : List EnvMove) (m k : Nat)
    (s : State) :
    Did (busEvent j) (busRegOps j) 0 s
      (leaveTo i (some k) (primDone j ph st d ms m (setDev dev (called j p s)))) :=
  ⟨rfl, rfl, rfl, rfl, rfl, rfl, rfl, rfl⟩

/-- The flags after the primitives `js`, `old` before them. -/
def ctrlAfter : List Instr → Ctrl → Ctrl
  | [], old => old
  | j :: js, _ => ctrlAfter js (busCtrl j)

/-- `STATUS` after operations that were answered with `rs`, `old` before them. -/
def statusAfter : List Reply → Latch → Latch
  | [], old => old
  | r :: rs, _ => statusAfter rs (.put r.st)

/-- `RES` after the primitives `js`, answered with `rs`, `old` before them. -/
def resAfter : List Instr → List Reply → Latch → Latch
  | j :: js, r :: rs, old => resAfter js rs (busRes j r.d old)
  | _, _, old => old

/-- From `s` to `t` the bus primitives `js` have run, answered with `rs`. -/
structure Ran (js : List Instr) (rs : List Reply) (s t : State) : Prop where
  did : Did (js.flatMap busEvent) (js.flatMap busRegOps) 0 s t
  ctrl : t.ctrl = ctrlAfter js s.ctrl
  status : t.status = statusAfter rs s.status
  res : t.res = resAfter js rs s.res
  waitAcked : t.waitAcked = s.waitAcked

/-- The table of `i` calls the primitives `js` one after the other, each in contract: from step `k` in the phase `ph` to
step `k'` in the phase `ph'`. -/
inductive CallPath (cfg : Config) (i : Instr) : Nat → Phase → List Instr → Nat → Phase → Prop
  | nil {k : Nat} {ph : Phase} : CallPath cfg i k ph [] k ph
  | cons {k next k' : Nat} {ph q ph' : Phase} {j : Instr} {js : List Instr} {p : Prim} {dir : Dir}
      (prim : busPrim j = some (p, dir)) (entry : tableOf cfg i k = some (.call p (argA j) (argB j) (some next)))
      (contract : phaseTable p dir ph = some q) (rest : CallPath cfg i next q js k' ph') :
      CallPath cfg i k ph (j :: js) k' ph'

theorem CallPath.append {cfg : Config} {i : Instr} {k k' k'' : Nat} {ph ph' ph'' : Phase} {js js' : List Instr}
    (h : CallPath cfg i k ph js k' ph') (h' : CallPath cfg i k' ph' js' k'' ph'') :
    CallPath cfg i k ph (js ++ js') k'' ph'' := by
  induction h with
  | nil => exact h'
  | cons prim entry contract _ ih => exact .cons prim entry contract (ih h')

/-- An arbitrary environment that answers each operation takes a transaction along a path of its table. -/
theorem CallPath.reaches {cfg : Config} {i : Instr} {k k' : Nat} {ph ph' : Phase} {js : List Instr} {rs : List Reply}
    {ms : List EnvMove} {s : State} (hpath : CallPath cfg i k ph js k' ph') (h : Between i k s) (hcfg : s.cfg = cfg)
    (hph : s.phase = ph) (henv : s.env = .arbitrary) (hlen : rs.length = js.length)
    (hmoves : s.moves = answers rs ++ ms) :
    ∃ n t, runs n s = .next t ∧ Between i k' t ∧ t.phase = ph' ∧ t.moves = ms ∧ Ran js rs s t := by
  induction hpath generalizing s rs with
  | nil =>
    obtain rfl := List.eq_nil_of_length_eq_zero hlen
    exact ⟨0, s, rfl, h, hph, hmoves, Did.refl s, rfl, rfl, rfl, rfl⟩
  | @cons k next _ _ q _ j js p dir prim entry contract _ ih =>
    obtain ⟨r, rs, rfl⟩ := List.exists_cons_of_length_eq_add_one hlen
    subst hcfg hph
    obtain ⟨n, m, hcall⟩ := h.runs_call (r := r) (ms := answers rs ++ ms) prim entry contract henv
      (by simp [hmoves, answers])
    obtain ⟨n', t, hrun, hb, hphase, hleft, hran⟩ := ih (rs := rs) (h.of_call (dev := s.dev)) rfl rfl henv
      (by simpa using hlen) rfl
    exact ⟨n + n', t, (runs_add hcall).trans hrun, hb, hphase, hleft,
      (did_call i j p s.dev q r.st r.d _ m next s).trans hran.did, hran.ctrl, hran.status, hran.res, hran.waitAcked⟩

/-- A command that is offered runs along a path of its table to its return. -/
theorem CallPath.returns {i : Instr} {k : Nat} {ph : Phase} {js : List Instr} {rs : List Reply} {rest : List CmdWord}
    {ms : List EnvMove} {s : State} (hpath : CallPath s.cfg i 0 s.phase js k ph) (hret : tableOf s.cfg i k = some .ret)
    (ho : Offers s i rest) (hinit : s.inited = true) (henv : s.env = .arbitrary)
    (hlen : rs.length = js.length) (hmoves : s.moves = answers rs ++ ms) :
    ∃ n t, runs n s = .next (commandReturn i (ticked t)) ∧ Returned (commandReturn i (ticked t)) rest ∧ t.phase = ph ∧
      t.moves = ms ∧ Ran js rs (accepted i rest s) t := by
  have haccept : step s = .next (accepted i rest s) := step_accepts ho
  obtain ⟨n, t, hrun, hb, hph, hleft, hran⟩ :=
    hpath.reaches (ho.between hinit) (by simp) (by simp) (by simpa using henv) hlen (by simpa using hmoves)
  have hstep := hb.step_return (by simpa [hran.did.cfg] using hret)
  exact ⟨1 + n + 1, t, (runs_add ((runs_add (runs_one haccept)).trans hrun)).trans (runs_one hstep),
    hb.returned (by simp [hran.did.port]), hph, hleft, hran⟩

/-- Every transaction begins with a START, from either phase between commands. -/
theorem phaseTable_start {ph : Phase} (hph : ph = .idle ∨ ph = .dataWrite) :
    phaseTable .start .write ph = some .addressPhase := by
  rcases hph with rfl | rfl <;> rfl

/-! ### `EE_WRITE` (R151) -/

/-- The primitives of `EE_WRITE` up to its STOP. -/
def loadPrims (cfg : Config) (o v : Byte) : List Instr :=
  [.start, .txAddr cfg.device .write, .txByte o, .txByte v]

theorem callPath_eeWrite_loads {cfg : Config} {o v : Byte} {ph : Phase} (hph : ph = .idle ∨ ph = .dataWrite) :
    CallPath cfg (.eeWrite o v) 0 ph (loadPrims cfg o v) 4 .dataWrite :=
  .cons rfl rfl (phaseTable_start hph) <| .cons rfl rfl rfl <| .cons rfl rfl rfl <| .cons rfl rfl rfl .nil

theorem callPath_eeWrite {cfg : Config} {o v : Byte} {ph : Phase} (hph : ph = .idle ∨ ph = .dataWrite) :
    CallPath cfg (.eeWrite o v) 0 ph (loadPrims cfg o v ++ [.stop]) 5 .idle :=
  (callPath_eeWrite_loads hph).append (.cons rfl rfl rfl .nil)

/-- Settles O30: the path of `EE_WRITE` through its table, then the return. -/
theorem eeWriteIssuesItsFiveOperations : Obligations.EeWriteIssuesItsFiveOperations := by
  intro o v s rest rs ms ho hinit hph henv hlen hmoves
  obtain ⟨n, t, hrun, hreturned, hphase, hleft, hran⟩ :=
    (callPath_eeWrite hph).returns rfl ho hinit henv hlen hmoves
  refine ⟨n, _, hrun, hreturned, hphase, hran.did.faults, hleft, hran.did.trace, hran.did.regLog, hran.ctrl, ?_⟩
  exact congrArg (· ++ [Ret.nothing]) hran.did.returns

/-! ### `EE_READ` (R152) -/

/-- The primitives of `EE_READ`'s expansion (R105). -/
def readPrims (cfg : Config) (o : Byte) : List Instr :=
  [.start, .txAddr cfg.device .write, .txByte o, .start, .txAddr cfg.device .read, .rxNak, .stop]

theorem callPath_eeRead {cfg : Config} {o : Byte} {ph : Phase} (hph : ph = .idle ∨ ph = .dataWrite) :
    CallPath cfg (.eeRead o) 0 ph (readPrims cfg o) 7 .idle :=
  .cons rfl rfl (phaseTable_start hph) <| .cons rfl rfl rfl <| .cons rfl rfl rfl <| .cons rfl rfl rfl <|
    .cons rfl rfl rfl <| .cons rfl rfl rfl <| .cons rfl rfl rfl .nil

/-- The answer to the receive is the sixth. -/
theorem resAfter_readPrims {cfg : Config} {o d : Byte} {rs : List Reply} (hlen : rs.length = 7)
    (hd : rs[5]?.map Reply.d = some d) (old : Latch) : resAfter (readPrims cfg o) rs old = .put d := by
  match rs, hlen with
  | [_, _, _, _, _, _, _], _ =>
    obtain rfl := Option.some.inj hd
    rfl

theorem resValue_of_put {b : Byte} {s : State} (h : s.res = .put b) : resValue s = b := by
  simp [resValue, h, Latch.get, Latch.put]

/-- Settles O31: the path of `EE_READ` through its table, then the return of the byte that the receive left in `RES`. -/
theorem eeReadReturnsTheReceivedByte : Obligations.EeReadReturnsTheReceivedByte := by
  intro o s rest rs d ms ho hinit hph henv hlen hd hmoves
  obtain ⟨n, t, hrun, hreturned, hphase, hleft, hran⟩ :=
    (callPath_eeRead hph).returns rfl ho hinit henv hlen hmoves
  have hres : t.res = .put d := hran.res.trans (resAfter_readPrims hlen hd _)
  refine ⟨n, _, hrun, hreturned, hphase, hran.did.faults, hleft, hran.did.trace, hran.did.regLog, hran.ctrl, hres, ?_⟩
  rw [commandReturn_returns, returnValue, resValue_of_put (s := ticked t) hres]
  exact congrArg (· ++ [Ret.byte d]) hran.did.returns

end Sys2Proof.Machine
end

section
/-!
PROOFS. `EE_WAIT` against an arbitrary environment that answers each of its operations, for every value of the switches
(spec 42_eeprom_client.md R153 to R155): one probe and its status test, the loop of failed probes, and the end with or
without a STOP.
-/

namespace Sys2Proof.Machine

/-! ### The switches in the lists of a probe (R154) -/

/-- The moves that answer the STOP after a probe, where there is one. -/
def stopMoves (stopped : Bool) (p : ProbeReply) : List EnvMove :=
  if stopped then p.stop.moves else []

theorem ProbeReply.moves_eq (stopped : Bool) (p : ProbeReply) :
    p.moves stopped = answers [p.start, p.addr] ++ stopMoves stopped p := by
  cases stopped <;> simp [ProbeReply.moves, answers, stopMoves]

/-- The bus events of the STOP after a probe, where there is one. -/
def stopEvents (stopped : Bool) : List BusEvent :=
  if stopped then [.stop] else []

theorem probeEvents_eq (cfg : Config) (stopped : Bool) :
    probeEvents cfg stopped = probeEvents cfg false ++ stopEvents stopped := rfl

/-- The register writes of the STOP after a probe, where there is one. -/
def stopRegOps (stopped : Bool) : List RegOp :=
  if stopped then [.trigger false true false] else []

theorem probeRegOps_eq (cfg : Config) (stopped : Bool) :
    probeRegOps cfg stopped = probeRegOps cfg false ++ stopRegOps stopped := rfl

theorem waitEvents_eq (cfg : Config) (k : Nat) :
    waitEvents cfg k = (List.replicate k (probeEvents cfg cfg.probeStop)).flatten ++ probeEvents cfg false ++
      stopEvents cfg.waitFinalStop := by
  rw [waitEvents, probeEvents_eq cfg cfg.waitFinalStop, List.append_assoc]

theorem waitRegOps_eq (cfg : Config) (k : Nat) :
    waitRegOps cfg k = (List.replicate k (probeRegOps cfg cfg.probeStop)).flatten ++ probeRegOps cfg false ++
      stopRegOps cfg.waitFinalStop := by
  rw [waitRegOps, probeRegOps_eq cfg cfg.waitFinalStop, List.append_assoc]

/-! ### One probe (R153) -/

section

variable {s : State} {ms : List EnvMove}

theorem readStatus_of_put {b : Byte} (h : s.status = .put b) : readStatus s = b := by
  simp [readStatus, h, Latch.get, Latch.put]

theorem callPath_probe {cfg : Config} {ph : Phase} (hph : ph = .idle ∨ ph = .dataWrite) :
    CallPath cfg .eeWait 0 ph [.start, .txAddr cfg.device .write] 2 .dataWrite :=
  .cons rfl rfl (phaseTable_start hph) <| .cons rfl rfl rfl .nil

/-- A probe up to its status test, which sees the status of the address byte. -/
theorem Between.runs_probe {f : ProbeReply} (h : Between .eeWait 0 s) (hph : s.phase = .idle ∨ s.phase = .dataWrite)
    (henv : s.env = .arbitrary) (hmoves : s.moves = answers [f.start, f.addr] ++ ms) :
    ∃ n t, runs n s = .next (probeTest .eeWait 4 3 t) ∧ Between .eeWait 2 t ∧ t.phase = .dataWrite ∧ t.moves = ms ∧
      readStatus t = f.addr.st ∧ t.waitAcked = s.waitAcked ∧
      Did (probeEvents s.cfg false) (probeRegOps s.cfg false) 0 s t := by
  obtain ⟨n, t, hrun, hb, hphase, hleft, hran⟩ := (callPath_probe hph).reaches h rfl rfl henv rfl hmoves
  have htest := step_action hb.powerCycles hb.txn rfl hb.eng
  exact ⟨n + 1, ticked t, (runs_add hrun).trans (runs_one htest), hb.after_ticked, hphase, hleft,
    readStatus_of_put (s := ticked t) hran.status, hran.waitAcked, hran.did.after_ticked⟩

/-- The status test only counts the probe, in what a stretch of a transaction leaves behind. -/
theorem did_probeTest (exit again : Nat) (s : State) : Did [] [] 1 s (probeTest .eeWait exit again s) :=
  ⟨by simp, by simp, by simp, by simp, by simp, by simp, by simp, by simp⟩

/-- After the status test `EE_WAIT` stands at the step that the test chose. -/
theorem Between.of_probeTest {k n exit again : Nat} (h : Between .eeWait k s)
    (htxn : (probeTest .eeWait exit again s).txn = .run .eeWait n) :
    Between .eeWait n (probeTest .eeWait exit again s) :=
  ⟨htxn, by simp [h.eng], by simp [h.inflight], by simp [h.powerCycles], by simp [h.inited]⟩

/-- Step 3 loops back, with a STOP under `PROBE_STOP` (R154). -/
theorem Between.runs_loopBack {f : ProbeReply} (h : Between .eeWait 3 s) (hph : s.phase = .dataWrite)
    (henv : s.env = .arbitrary) (hmoves : s.moves = stopMoves s.cfg.probeStop f ++ ms) :
    ∃ n t, runs n s = .next t ∧ Between .eeWait 0 t ∧ (t.phase = .idle ∨ t.phase = .dataWrite) ∧ t.moves = ms ∧
      t.waitAcked = s.waitAcked ∧ Did (stopEvents s.cfg.probeStop) (stopRegOps s.cfg.probeStop) 0 s t := by
  have htable := eeWaitTable_loopBack s.cfg
  cases hstop : s.cfg.probeStop with
  | false =>
    rw [hstop] at htable hmoves
    have hjump := step_action h.powerCycles h.txn htable h.eng
    exact ⟨1, goto .eeWait 0 (ticked s), runs_one hjump, ⟨rfl, h.eng, h.inflight, h.powerCycles, h.inited⟩, .inr hph,
      hmoves, rfl, (Did.refl s).after_ticked.after_goto _ _⟩
  | true =>
    rw [hstop] at htable hmoves
    have hpath : CallPath s.cfg .eeWait 3 s.phase [.stop] 0 .idle := .cons rfl htable (by rw [hph]; rfl) .nil
    obtain ⟨n, t, hrun, hb, hphase, hleft, hran⟩ :=
      hpath.reaches (rs := [f.stop]) h rfl rfl henv rfl (by simpa [answers, stopMoves] using hmoves)
    exact ⟨n, t, hrun, hb, .inl hphase, hleft, hran.waitAcked, hran.did⟩

/-- A probe that is not acknowledged and does not use up the bound leads back to step 0. -/
theorem Between.runs_failedProbe {f : ProbeReply} (h : Between .eeWait 0 s)
    (hph : s.phase = .idle ∨ s.phase = .dataWrite) (henv : s.env = .arbitrary) (hst : f.addr.st ≠ 0x18)
    (hbound : ∀ b, s.cfg.pollBound = some b → s.probes + 1 < b) (hmoves : s.moves = f.moves s.cfg.probeStop ++ ms) :
    ∃ n t, runs n s = .next t ∧ Between .eeWait 0 t ∧ (t.phase = .idle ∨ t.phase = .dataWrite) ∧ t.moves = ms ∧
      t.waitAcked = s.waitAcked ∧
      Did (probeEvents s.cfg s.cfg.probeStop) (probeRegOps s.cfg s.cfg.probeStop) 1 s t := by
  rw [ProbeReply.moves_eq, List.append_assoc] at hmoves
  obtain ⟨n, t, hprobe, hb, hphase, hleft, hstatus, hacked, hdid⟩ := h.runs_probe hph henv hmoves
  have htest : probeTest .eeWait 4 3 t = _ :=
    probeTest_retries (hstatus.trans_ne hst) (by simpa [hdid.cfg, hdid.probes] using hbound)
  have hb' : Between .eeWait 3 (probeTest .eeWait 4 3 t) := hb.of_probeTest (by rw [htest])
  obtain ⟨n', u, hback, hbu, hphu, hleftu, hackedu, hdidu⟩ := hb'.runs_loopBack (f := f) (ms := ms)
    (by simpa using hphase) (by simpa [hdid.env] using henv) (by simpa [hdid.cfg] using hleft)
  refine ⟨n + n', u, (runs_add hprobe).trans hback, hbu, hphu, hleftu, ?_, ?_⟩
  · rw [hackedu, htest]
    exact hacked
  · have hall := (hdid.trans (did_probeTest 4 3 t)).trans hdidu
    rw [probeTest_cfg, hdid.cfg] at hall
    simpa [probeEvents_eq s.cfg s.cfg.probeStop, probeRegOps_eq s.cfg s.cfg.probeStop] using hall

/-- A probe that is acknowledged, or uses up the bound, leads to step 4. -/
theorem Between.runs_lastProbe {f : ProbeReply} (h : Between .eeWait 0 s)
    (hph : s.phase = .idle ∨ s.phase = .dataWrite) (henv : s.env = .arbitrary)
    (hexit : f.addr.st = 0x18 ∨ boundReached s.cfg (s.probes + 1) = true)
    (hmoves : s.moves = answers [f.start, f.addr] ++ ms) :
    ∃ n t, runs n s = .next t ∧ Between .eeWait 4 t ∧ t.phase = .dataWrite ∧ t.moves = ms ∧
      t.waitAcked = (s.waitAcked || f.addr.st = 0x18) ∧
      Did (probeEvents s.cfg false) (probeRegOps s.cfg false) 1 s t := by
  obtain ⟨n, t, hprobe, hb, hphase, hleft, hstatus, hacked, hdid⟩ := h.runs_probe hph henv hmoves
  have hdid' : Did (probeEvents s.cfg false) (probeRegOps s.cfg false) 1 s (probeTest .eeWait 4 3 t) := by
    simpa using hdid.trans (did_probeTest 4 3 t)
  by_cases hst : f.addr.st = 0x18
  · have htest : probeTest .eeWait 4 3 t = _ := probeTest_acked (hstatus.trans hst)
    exact ⟨n, _, hprobe, hb.of_probeTest (by rw [htest]), by simpa using hphase, by simpa using hleft,
      by rw [htest, decide_eq_true hst, Bool.or_true], hdid'⟩
  · have htest : probeTest .eeWait 4 3 t = _ := probeTest_exhausted (hstatus.trans_ne hst)
      (by simpa [hdid.cfg, hdid.probes] using hexit.resolve_left hst)
    exact ⟨n, _, hprobe, hb.of_probeTest (by rw [htest]), by simpa using hphase, by simpa using hleft,
      by rw [htest, decide_eq_false hst, Bool.or_false]; exact hacked, hdid'⟩

/-! ### The loop and its end (R153, R154) -/

/-- The loop of failed probes. -/
theorem Between.runs_failedProbes {fails : List ProbeReply} (h : Between .eeWait 0 s)
    (hph : s.phase = .idle ∨ s.phase = .dataWrite) (henv : s.env = .arbitrary)
    (hfails : ∀ f ∈ fails, f.addr.st ≠ 0x18)
    (hbound : ∀ b, s.cfg.pollBound = some b → s.probes + fails.length < b)
    (hmoves : s.moves = fails.flatMap (ProbeReply.moves s.cfg.probeStop) ++ ms) :
    ∃ n t, runs n s = .next t ∧ Between .eeWait 0 t ∧ (t.phase = .idle ∨ t.phase = .dataWrite) ∧ t.moves = ms ∧
      t.waitAcked = s.waitAcked ∧
      Did (List.replicate fails.length (probeEvents s.cfg s.cfg.probeStop)).flatten
        (List.replicate fails.length (probeRegOps s.cfg s.cfg.probeStop)).flatten fails.length s t := by
  induction fails generalizing s with
  | nil => exact ⟨0, s, rfl, h, hph, hmoves, rfl, Did.refl s⟩
  | cons f fails ih =>
    simp only [List.mem_cons, forall_eq_or_imp] at hfails
    simp only [List.length_cons] at hbound
    rw [List.flatMap_cons, List.append_assoc] at hmoves
    obtain ⟨n, t, hprobe, hb, hphase, hleft, hacked, hdid⟩ :=
      h.runs_failedProbe hph henv hfails.1 (fun b hb => by have := hbound b hb; omega) hmoves
    obtain ⟨n', u, hloop, hbu, hphu, hleftu, hackedu, hdidu⟩ := ih hb hphase (hdid.env.trans henv) hfails.2
      (fun b hb => by have := hbound b (hdid.cfg ▸ hb); have := hdid.probes; omega) (by rw [hdid.cfg, hleft])
    refine ⟨n + n', u, (runs_add hprobe).trans hloop, hbu, hphu, hleftu, hackedu.trans hacked, ?_⟩
    rw [hdid.cfg] at hdidu
    simpa [List.replicate_succ, Nat.add_comm 1] using hdid.trans hdidu

/-- Step 4 returns the flag, with a STOP before it under `WAIT_FINAL_STOP` (R154). -/
theorem Between.runs_finish {f : ProbeReply} {rest : List CmdWord} (h : Between .eeWait 4 s)
    (hph : s.phase = .dataWrite) (henv : s.env = .arbitrary) (hport : s.port = rest)
    (hmoves : s.moves = stopMoves s.cfg.waitFinalStop f ++ ms) :
    ∃ n t, runs n s = .next (commandReturn .eeWait t) ∧ Returned (commandReturn .eeWait t) rest ∧
      t.phase = (if s.cfg.waitFinalStop then .idle else .dataWrite) ∧ t.moves = ms ∧ t.waitAcked = s.waitAcked ∧
      Did (stopEvents s.cfg.waitFinalStop) (stopRegOps s.cfg.waitFinalStop) 0 s t := by
  have htable := eeWaitTable_finish s.cfg
  cases hstop : s.cfg.waitFinalStop with
  | false =>
    rw [hstop] at htable hmoves
    exact ⟨1, ticked s, runs_one (h.step_return htable), h.returned hport, hph, hmoves, rfl, (Did.refl s).after_ticked⟩
  | true =>
    rw [hstop] at htable hmoves
    obtain ⟨n, m, hrun⟩ := h.runs_call (j := .stop) (ph := .idle) (r := f.stop) (ms := ms) rfl htable
      (by rw [hph]; rfl) henv hmoves
    exact ⟨n, _, hrun, ⟨rfl, rfl, rfl, hport⟩, rfl, rfl, rfl, ⟨rfl, rfl, rfl, rfl, rfl, rfl, rfl, rfl⟩⟩

/-- From its first step `EE_WAIT` loops back after each probe of `fails` and returns after `last`, which is acknowledged or
uses up the bound. -/
theorem Between.runs_wait {fails : List ProbeReply} {last : ProbeReply} {rest : List CmdWord} (h : Between .eeWait 0 s)
    (hph : s.phase = .idle ∨ s.phase = .dataWrite) (henv : s.env = .arbitrary) (hprobes : s.probes = 0)
    (hbound : ∀ b, s.cfg.pollBound = some b → fails.length < b) (hfails : ∀ f ∈ fails, f.addr.st ≠ 0x18)
    (hexit : last.addr.st = 0x18 ∨ s.cfg.pollBound = some (fails.length + 1)) (hport : s.port = rest)
    (hmoves : s.moves = waitMoves s.cfg fails last ++ ms) :
    ∃ n t, runs n s = .next (commandReturn .eeWait t) ∧ Returned (commandReturn .eeWait t) rest ∧
      t.phase = (if s.cfg.waitFinalStop then .idle else .dataWrite) ∧ t.moves = ms ∧
      t.waitAcked = (s.waitAcked || last.addr.st = 0x18) ∧
      Did (waitEvents s.cfg fails.length) (waitRegOps s.cfg fails.length) (fails.length + 1) s t := by
  rw [waitMoves, ProbeReply.moves_eq, List.append_assoc, List.append_assoc] at hmoves
  obtain ⟨n₁, t₁, hloop, hb₁, hph₁, hleft₁, hacked₁, hdid₁⟩ :=
    h.runs_failedProbes hph henv hfails (by simpa [hprobes] using hbound) hmoves
  have hexit₁ : last.addr.st = 0x18 ∨ boundReached t₁.cfg (t₁.probes + 1) = true :=
    hexit.imp_right fun hb => boundReached_iff.2 ⟨_, hdid₁.cfg ▸ hb, by simp [hdid₁.probes, hprobes]⟩
  obtain ⟨n₂, t₂, hlast, hb₂, hph₂, hleft₂, hacked₂, hdid₂⟩ :=
    hb₁.runs_lastProbe hph₁ (hdid₁.env.trans henv) hexit₁ hleft₁
  rw [hdid₁.cfg] at hdid₂
  have hdid₁₂ := hdid₁.trans hdid₂
  rw [← hdid₁₂.cfg] at hleft₂
  obtain ⟨n₃, t₃, hend, hreturned, hph₃, hleft₃, hacked₃, hdid₃⟩ :=
    hb₂.runs_finish hph₂ (hdid₁₂.env.trans henv) (hdid₁₂.port.trans hport) hleft₂
  rw [hdid₁₂.cfg] at hph₃ hdid₃
  refine ⟨n₁ + n₂ + n₃, t₃, (runs_add ((runs_add hloop).trans hlast)).trans hend, hreturned, hph₃, hleft₃,
    by rw [hacked₃, hacked₂, hacked₁], ?_⟩
  rw [waitEvents_eq, waitRegOps_eq]
  exact hdid₁₂.trans hdid₃

/-- `EE_WAIT` from its acceptance to its return, on the answers of `waitMoves`. -/
theorem eeWait_returns {rest : List CmdWord} {fails : List ProbeReply} {last : ProbeReply} (ho : Offers s .eeWait rest)
    (hinit : s.inited = true) (hph : s.phase = .idle ∨ s.phase = .dataWrite) (henv : s.env = .arbitrary)
    (hbound : ∀ b, s.cfg.pollBound = some b → fails.length < b) (hfails : ∀ f ∈ fails, f.addr.st ≠ 0x18)
    (hexit : last.addr.st = 0x18 ∨ s.cfg.pollBound = some (fails.length + 1))
    (hmoves : s.moves = waitMoves s.cfg fails last ++ ms) :
    ∃ n t, runs n s = .next t ∧ Returned t rest ∧
      t.phase = (if s.cfg.waitFinalStop then .idle else .dataWrite) ∧ t.faults = s.faults ∧ t.moves = ms ∧
      t.probes = fails.length + 1 ∧ t.waitAcked = decide (last.addr.st = 0x18) ∧
      t.trace = s.trace ++ waitEvents s.cfg fails.length ∧ t.regLog = s.regLog ++ waitRegOps s.cfg fails.length ∧
      t.returns = s.returns ++ [.flag (decide (last.addr.st = 0x18))] := by
  have haccept : step s = .next (accepted .eeWait rest s) := step_accepts ho
  obtain ⟨n, t, hrun, hreturned, hphase, hleft, hacked, hdid⟩ :=
    (ho.between hinit).runs_wait hph henv rfl hbound hfails hexit rfl hmoves
  have hflag : t.waitAcked = decide (last.addr.st = 0x18) := hacked
  refine ⟨n + 1, commandReturn .eeWait t, (runs_next haccept).trans hrun, hreturned, hphase, hdid.faults, hleft,
    hdid.probes.trans (Nat.zero_add _), hflag, hdid.trace, hdid.regLog, ?_⟩
  rw [commandReturn_returns, returnValue, hflag, hdid.returns, accepted_returns]

end

/-- Settles O32: the last probe is acknowledged. -/
theorem eeWaitProbesUntilAcknowledged : Obligations.EeWaitProbesUntilAcknowledged := by
  intro s rest fails last ms ho hinit hph henv hbound hfails hlast hmoves
  have h := eeWait_returns ho hinit hph henv hbound hfails (.inl hlast) hmoves
  rwa [decide_eq_true hlast] at h

/-- Settles O33: the last probe uses up the bound. -/
theorem eeWaitStopsAtItsBound : Obligations.EeWaitStopsAtItsBound := by
  intro s rest fails last ms ho hinit hph henv hbound hfails hlast hmoves
  have h := eeWait_returns ho hinit hph henv (by simp [hbound]) hfails (.inr hbound) hmoves
  rwa [decide_eq_false hlast] at h

end Sys2Proof.Machine
end

section
/-!
PROOFS. `EE_WRITE` and `EE_READ` against the reference device, not busy (spec 42_eeprom_client.md R151, R152,
20_memory.md R76 to R82): what the device makes of each operation, a call that it answers whatever moves are listed, and
a path of such calls.
-/

namespace Sys2Proof.Machine

/-! ### The device's answers (R77 to R81) -/

/-- Whatever the environment draws, the device `dev` with the identifier `a` answers `op`, gives `b` where `op` receives
a byte, and is `dev'` from then on. -/
def DeviceAnswers (a : Addr7) (dev : Device) (op : BusOp) (b : Byte) (dev' : Device) : Prop :=
  ∀ ph st d x, ∃ st' d', deviceAnswer a ph op st d x dev = .ok (st', d', dev') ∧ (isReceive op = true → d' = b)

section

variable {a : Addr7} {dev : Device}

theorem deviceAnswers_start : DeviceAnswers a dev .opStart 0 { dev with sel := .none } :=
  fun _ _ _ _ => ⟨_, _, rfl, by simp [isReceive]⟩

/-- A device that is not busy is selected by its own address byte (R78). -/
theorem deviceAnswers_addr (dir : Dir) (hbusy : dev.busy = false) :
    DeviceAnswers a dev (.opAddr (addrByte a dir)) 0 { dev with sel := if dir = .write then .wAddr else .reading } := by
  intro ph st d x
  obtain ⟨haddr, hdir, -⟩ := addressBytePacksBoth a dir
  cases dir <;> simp [deviceAnswer, haddr, hdir, hbusy, isReceive]

/-- The first data byte after a write addressing is the offset (R79). -/
theorem deviceAnswers_offset {o : Byte} (hsel : dev.sel = .wAddr) :
    DeviceAnswers a dev (.opData o) 0 { dev with ptr := o, sel := .wData } := by
  intro ph st d x
  simp [deviceAnswer, hsel, isReceive]

/-- The second data byte is the value, which waits for the STOP (R79). -/
theorem deviceAnswers_value {v : Byte} (hsel : dev.sel = .wData) :
    DeviceAnswers a dev (.opData v) 0 { dev with sel := .wPending v } := by
  intro ph st d x
  simp [deviceAnswer, hsel, isReceive]

/-- A device that is addressed for read gives the byte at its pointer (R80). -/
theorem deviceAnswers_rxNak (hsel : dev.sel = .reading) :
    DeviceAnswers a dev .opRxNak (dev.mem.read dev.ptr.toNat) { dev with sel := .none } := by
  intro ph st d x
  simp [deviceAnswer, hsel]

/-- A STOP stores the value that waits, and begins the write cycle (R81). -/
theorem deviceAnswers_stop_stores {v : Byte} (hsel : dev.sel = .wPending v) :
    DeviceAnswers a dev .opStop 0
      { dev with mem := dev.mem.write dev.ptr.toNat v, busy := true, sel := .none } := by
  intro ph st d x
  simp [deviceAnswer, hsel, isReceive]

/-- A STOP with no value waiting only ends the selection (R81). -/
theorem deviceAnswers_stop (hsel : dev.sel = .none) : DeviceAnswers a dev .opStop 0 { dev with sel := .none } := by
  intro ph st d x
  simp [deviceAnswer, hsel, isReceive]

end

/-! ### The spin against the device (R82) -/

/-- The moves left once the device, which is not busy, has answered one operation: those behind the first answer. -/
def dropAnswer : List EnvMove → List EnvMove
  | [] => []
  | .answer _ _ :: ms => ms
  | .quiet :: ms => dropAnswer ms
  | .writeCycleDone :: ms => dropAnswer ms

theorem dropAnswer_reply (r : Reply) (ms : List EnvMove) : dropAnswer (r.moves ++ ms) = ms := by
  obtain ⟨q, st, d⟩ := r
  induction q with
  | zero => rfl
  | succ q ih => simpa [Reply.moves, List.replicate_succ, dropAnswer] using ih

theorem dropAnswer_answers (rs : List Reply) (ms : List EnvMove) : dropAnswer^[rs.length] (answers rs ++ ms) = ms := by
  induction rs with
  | nil => rfl
  | cons r rs ih =>
    have hfirst : answers (r :: rs) ++ ms = r.moves ++ (answers rs ++ ms) := by simp [answers]
    rw [List.length_cons, Function.iterate_succ_apply, hfirst, dropAnswer_reply, ih]

/-- A busy block goes on with its command where the environment's move is none that it can take. -/
theorem step_passes {s : State} {i : Instr} {k : Nat} {m : EnvMove} {ms : List EnvMove} (hp : s.powerCycles = [])
    (ht : s.txn = .run i k) (he : envTurn s = true) (hm : s.moves = m :: ms)
    (hnone : envMove m (dropMove (ticked s)) = none) : step s = exec i (dropMove (ticked s)) := by
  have hturn : envTurn (ticked s) = true := he
  have hnext : nextMove (ticked s) = m := by simp [nextMove, hm]
  simp [step, stepWith, hp, turn, hturn, hnext, hnone, blockTurn, ht]

/-- The environment answers by its next move, listed or not. -/
theorem step_nextMove {s : State} {op : BusOp} {st d : Byte} (hp : s.powerCycles = []) (hi : s.inflight = some op)
    (hs : atSpin s = true) (hm : nextMove (ticked s) = .answer st d) :
    step s = envAnswer op st d (dropMove (ticked s)) := by
  have hturn : envTurn (ticked s) = true := by
    have hspin : atSpin (ticked s) = true := hs
    simp [envTurn, hspin, envEnabled, hi]
  simp [step, stepWith, hp, turn, hturn, hm, envMove, hi]

section

variable {i j : Instr} {p : Prim} {dir : Dir} {next : Option Nat} {s : State} {u : Nat} {op : BusOp} {b : Byte}
  {dev' : Device}

/-- The device's answer as a step. -/
theorem step_deviceAnswers {st d : Byte} (hp : s.powerCycles = []) (hi : s.inflight = some op) (hs : atSpin s = true)
    (henv : s.env = .reference) (hph : s.phase ≠ .undefined) (hans : DeviceAnswers s.cfg.device s.dev op b dev')
    (hm : nextMove (ticked s) = .answer st d) :
    ∃ st' d', step s = .next (finishOp op st' d' { s with dev := dev', moves := s.moves.tail, tick := s.tick + 1 }) ∧
      (isReceive op = true → d' = b) := by
  obtain ⟨st', d', hanswer, hd⟩ := hans s.phase st d (Config.freeByte (s.tick + 1) .ptr)
  refine ⟨st', d', ?_, hd⟩
  rw [step_nextMove hp hi hs hm, envAnswer]
  simp [henv, hph, hanswer, setDev, dropMove, ticked]

/-- The spin lasts while the listed moves are none that the environment can take, the device not being busy. -/
theorem Calls.step_spins {m : EnvMove} {ms : List EnvMove} (h : Calls i p next s) (he : s.eng = .exec p u)
    (hw : ¬SpinPast p u s) (hi : s.inflight ≠ none) (hbusy : s.dev.busy = false) (hmoves : s.moves = m :: ms)
    (hm : m = .quiet ∨ m = .writeCycleDone) : step s = .next (dropMove (ticked s)) := by
  obtain ⟨k, a, b, ht, ha⟩ := h.call
  have hturn : envTurn s = true := by
    simp [envTurn, envEnabled, atSpin_of_waits he hw, Option.isSome_iff_ne_none.2 hi]
  have hnone : envMove m (dropMove (ticked s)) = none := by
    rcases hm with rfl | rfl <;> simp [envMove, deviceBusy, hbusy]
  obtain ⟨m', hm', -, hrepeats⟩ := exists_spin_of_waits (s := dropMove (ticked s)) hw
  rw [step_passes h.powerCycles ht hturn hmoves hnone]
  exact (exec_micro (s := dropMove (ticked s)) ht ha he hm').trans (hrepeats _)

/-- The reference device answers an operation in contract, whatever moves are listed and whether any are (R82). -/
theorem Calls.runs_deviceAnswers (h : Calls i p next s) (he : s.eng = .exec p u) (hw : ¬SpinPast p u s)
    (hi : s.inflight = some op) (henv : s.env = .reference) (hph : s.phase ≠ .undefined) (hbusy : s.dev.busy = false)
    (hans : DeviceAnswers s.cfg.device s.dev op b dev') :
    ∃ n st d, runs n s = .next
        (finishOp op st d { s with dev := dev', moves := dropAnswer s.moves, tick := s.tick + n }) ∧
      (isReceive op = true → d = b) := by
  have hspin := atSpin_of_waits he hw
  induction hmoves : s.moves generalizing s with
  | nil =>
    have howes : owesAnswer (ticked s) = true := by simp [owesAnswer, henv, hph, hi]
    have hnext : ∃ st d, nextMove (ticked s) = .answer st d := by
      rcases unlistedMove_cases howes with hanswer | ⟨hdone, -⟩
      · simpa [nextMove, hmoves] using hanswer
      · simp [hbusy] at hdone
    obtain ⟨st, d, hnext⟩ := hnext
    obtain ⟨st', d', hstep, hd⟩ := step_deviceAnswers h.powerCycles hi hspin henv hph hans hnext
    exact ⟨1, st', d', by simpa [hmoves, dropAnswer] using runs_one hstep, hd⟩
  | cons m ms ih =>
    cases m with
    | answer st d =>
      have hnext : nextMove (ticked s) = .answer st d := by simp [nextMove, hmoves]
      obtain ⟨st', d', hstep, hd⟩ := step_deviceAnswers h.powerCycles hi hspin henv hph hans hnext
      exact ⟨1, st', d', by simpa [hmoves, dropAnswer] using runs_one hstep, hd⟩
    | quiet | writeCycleDone =>
      have hstep := h.step_spins he hw (by simp [hi]) hbusy hmoves (by simp)
      obtain ⟨n, st, d, hrun, hd⟩ := ih (s := dropMove (ticked s)) ⟨h.powerCycles, h.call⟩ he hw hi henv hph hbusy hans
        hspin (by simp [hmoves])
      refine ⟨n + 1, st, d, ?_, hd⟩
      rw [runs_next hstep, hrun]
      simp [dropMove, ticked, dropAnswer, Nat.add_assoc, Nat.add_comm 1]

/-! ### A call that the device answers (R150) -/

theorem phaseTable_undefined (hj : busPrim j = some (p, dir)) : phaseTable p dir .undefined = none := by
  cases busCommand_of_busPrim hj <;> rfl

/-- From its contract step a bus primitive goes on to the completion of its operation by the device. -/
theorem Calls.runs_deviceFinished (h : Calls i p next s) (hj : busPrim j = some (p, dir)) (hl : Loaded j s)
    (he : s.eng = .exec p 0) (hinit : s.inited = true) (hph : phaseTable p dir s.phase ≠ none) (hi : s.inflight = none)
    (henv : s.env = .reference) (hbusy : s.dev.busy = false) (hop : busOp j = some op)
    (hans : DeviceAnswers s.cfg.device s.dev op b dev') :
    ∃ n st d, runs n s = .next
        (finishOp op st d { issued j p (setDev dev' s) with moves := dropAnswer s.moves, tick := s.tick + n }) ∧
      (isReceive op = true → d = b) := by
  have hissued := h.runs_issued hj hl he hinit hph hi
  have h1 : Calls i p next (issued j p s) := ⟨h.powerCycles, h.call⟩
  have hdefined : s.phase ≠ .undefined := fun hs => hph (by rw [hs, phaseTable_undefined hj])
  obtain ⟨n, st, d, hrun, hd⟩ := h1.runs_deviceAnswers rfl (issued_waits hj s) hop henv hdefined hbusy hans
  refine ⟨spinAt p + n, st, d, ?_, hd⟩
  rw [runs_add hissued, hrun]
  simp [issued, setDev, Nat.add_assoc]

/-- Only a receive's byte is seen. -/
theorem primDone_received {d : Byte} (hop : busOp j = some op) (hd : isReceive op = true → d = b) (ph : Phase)
    (st : Byte) (ms : List EnvMove) (n : Nat) (s : State) : primDone j ph st d ms n s = primDone j ph st b ms n s := by
  cases j with
  | rxAck | rxNak =>
    obtain rfl := Option.some.inj hop
    rw [hd rfl]
  | init | start | stop | txAddr _ _ | txByte _ | decode _ | eeWrite _ _ | eeRead _ | eeWait => rfl

/-- A call that the device, not busy before nor after, answers. -/
theorem Calls.runs_deviceDone {ph : Phase} (h : Calls i p next s) (hj : busPrim j = some (p, dir)) (hl : Loaded j s)
    (he : s.eng = .exec p 0) (hinit : s.inited = true) (hph : phaseTable p dir s.phase = some ph)
    (hi : s.inflight = none) (henv : s.env = .reference) (hbusy : s.dev.busy = false) (hop : busOp j = some op)
    (hans : DeviceAnswers s.cfg.device s.dev op b dev') (hidle : dev'.busy = false) :
    ∃ n st, runs n s = .next (leaveTo i next (primDone j ph st b (dropAnswer s.moves) n (setDev dev' s))) := by
  obtain ⟨n, st, d, hfinished, hd⟩ := h.runs_deviceFinished hj hl he hinit (by simp [hph]) hi henv hbusy hop hans
  let t : State := { issued j p (setDev dev' s) with moves := dropAnswer s.moves, tick := s.tick + n }
  have h1 : Calls i p next (finishOp op st d t) :=
    h.of_same (by simp [t, issued]) (by simp [t, issued]) (by simp [t, issued])
  have hreceived : j = .rxAck ∨ j = .rxNak → (finishOp op st d t).data = .put d := by
    rintro (rfl | rfl) <;> obtain rfl := Option.some.inj hop <;> rfl
  obtain ⟨n', hreturn⟩ := h1.runs_to_return hj (hl.of_same (by simp [t, issued]) (by simp [t, issued]))
    (by simp [t, issued]) (spinPast_finishOp hj hop st d t) (by simp) (by simp [deviceBusy, t, issued, hidle])
    (by simpa [t, issued] using hph) hreceived
  refine ⟨n + n', st, ?_⟩
  rw [runs_add hfinished, hreturn, ← primDone_received hop hd, ← finishOp_issued hj hop (setDev dev' s) st d _ n]
  simp [t, issued, Nat.add_assoc]

/-- A STOP that begins the device's write cycle, which is still running at the block's next look at the flag. -/
theorem Calls.runs_stopStores {ph : Phase} {ms : List EnvMove} (h : Calls i .stop next s) (he : s.eng = .exec .stop 0)
    (hinit : s.inited = true) (hph : phaseTable .stop .write s.phase = some ph) (hi : s.inflight = none)
    (henv : s.env = .reference) (hbusy : s.dev.busy = false)
    (hans : DeviceAnswers s.cfg.device s.dev .opStop b dev') (hstores : dev'.busy = true)
    (hmoves : dropAnswer s.moves = .quiet :: ms) :
    ∃ n st d, runs n s = .next (leaveTo i next (primDone .stop ph st d ms n (setDev dev' s))) := by
  obtain ⟨n, st, d, hfinished, -⟩ :=
    h.runs_deviceFinished (j := .stop) rfl trivial he hinit (by simp [hph]) hi henv hbusy rfl hans
  rw [hmoves] at hfinished
  let t : State := finishOp .opStop st d
    { issued .stop .stop (setDev dev' s) with moves := .quiet :: ms, tick := s.tick + n }
  obtain ⟨k, a, b, ht, ha⟩ := h.call
  have hturn : envTurn t = true := by
    simp [envTurn, envEnabled, atSpin, t, issued, deviceBusy, henv, hstores, spinAt, microSteps]
  have hspin : step t = .next (advance .stop 2 (dropMove (ticked t))) := by
    rw [step_quiet (s := t) h.powerCycles ht hturn rfl]
    exact (exec_micro (s := dropMove (ticked t)) ht ha rfl rfl).trans (runMicro_spinStop_past rfl)
  have h1 : Calls i .stop next (advance .stop 2 (dropMove (ticked t))) := ⟨h.powerCycles, h.call⟩
  have hret := h1.step_ret (j := .stop) rfl rfl rfl trivial hph
  refine ⟨n + 2, st, d, ?_⟩
  rw [runs_add hfinished, runs_next hspin, runs_one hret]
  rfl

end

/-! ### A path of calls that the device answers -/

/-- The device with the identifier `a`, not busy between two operations, answers those of the primitives `js`: from
`dev` to `dev'`, and `RES` goes from `res` to `res'`. -/
inductive DevicePath (a : Addr7) : Device → Latch → List Instr → Device → Latch → Prop
  | nil {dev : Device} {res : Latch} : DevicePath a dev res [] dev res
  | cons {dev dev₁ dev' : Device} {res res' : Latch} {j : Instr} {js : List Instr} {op : BusOp} {b : Byte}
      (starts : busOp j = some op) (answers : DeviceAnswers a dev op b dev₁) (idle : dev₁.busy = false)
      (rest : DevicePath a dev₁ (busRes j b res) js dev' res') : DevicePath a dev res (j :: js) dev' res'

/-- The reference device takes a transaction along a path of its table, whatever moves are listed. -/
theorem CallPath.reaches_device {cfg : Config} {i : Instr} {k k' : Nat} {ph ph' : Phase} {js : List Instr} {s : State}
    {dev' : Device} {res' : Latch} (hpath : CallPath cfg i k ph js k' ph')
    (hdev : DevicePath cfg.device s.dev s.res js dev' res') (h : Between i k s) (hcfg : s.cfg = cfg)
    (hph : s.phase = ph) (henv : s.env = .reference) (hbusy : s.dev.busy = false) :
    ∃ n t, runs n s = .next t ∧ Between i k' t ∧ t.phase = ph' ∧ t.moves = dropAnswer^[js.length] s.moves ∧
      t.dev = dev' ∧ t.res = res' ∧ Did (js.flatMap busEvent) (js.flatMap busRegOps) 0 s t := by
  induction hpath generalizing s with
  | nil =>
    cases hdev
    exact ⟨0, s, rfl, h, hph, rfl, rfl, rfl, Did.refl s⟩
  | @cons k next _ _ q _ j js p dir prim entry contract _ ih =>
    subst hcfg hph
    cases hdev with
    | @cons _ dev₁ _ _ _ _ _ op b hop hans hidle hrest =>
      obtain ⟨n, st, hcall⟩ := (h.calls entry).runs_deviceDone prim (loaded_called j p s) rfl h.inited contract
        h.inflight henv hbusy hop hans hidle
      obtain ⟨n', t, hrun, hbt, hphase, hleft, hdev', hres', hdid⟩ := ih hrest h.of_call rfl rfl henv hidle
      exact ⟨1 + n + n', t, (runs_add ((runs_add (runs_one (h.step_call entry))).trans hcall)).trans hrun, hbt, hphase,
        hleft, hdev', hres', (did_call i j p dev₁ q st b _ n next s).trans hdid⟩

/-! ### `EE_READ` (R152) -/

/-- The device gives the byte at the offset that the first phase of `EE_READ` loads, and stores nothing. -/
theorem devicePath_eeRead {cfg : Config} {o : Byte} {dev : Device} (hbusy : dev.busy = false) (res : Latch) :
    DevicePath cfg.device dev res (readPrims cfg o) { dev with ptr := o, sel := .none }
      (.put (dev.mem.read o.toNat)) := by
  refine .cons rfl deviceAnswers_start hbusy ?_
  refine .cons rfl (deviceAnswers_addr .write hbusy) hbusy ?_
  refine .cons rfl (deviceAnswers_offset rfl) hbusy ?_
  refine .cons rfl deviceAnswers_start hbusy ?_
  refine .cons rfl (deviceAnswers_addr .read hbusy) hbusy ?_
  refine .cons rfl (deviceAnswers_rxNak rfl) hbusy ?_
  exact .cons rfl (deviceAnswers_stop rfl) hbusy .nil

/-- Settles O41: the path of `EE_READ` against the device, then the return of the byte in `RES`. -/
theorem eeReadReturnsTheDevicesByte : Obligations.EeReadReturnsTheDevicesByte := by
  intro o s rest ho hinit hph henv hbusy
  have haccept : step s = .next (accepted (.eeRead o) rest s) := step_accepts ho
  obtain ⟨n, t, hrun, hb, hphase, -, hdev, hres, hdid⟩ :=
    (callPath_eeRead hph).reaches_device (s := accepted (.eeRead o) rest s) (devicePath_eeRead hbusy s.res)
      (ho.between hinit) rfl rfl henv hbusy
  have hret := hb.step_return (by rw [hdid.cfg]; rfl)
  refine ⟨1 + n + 1, _, (runs_add ((runs_add (runs_one haccept)).trans hrun)).trans (runs_one hret),
    hb.returned hdid.port, hphase, hdid.faults, hdid.trace, ?_, ?_, ?_⟩
  · simpa [hdev] using hbusy
  · simp [hdev]
  · rw [commandReturn_returns, returnValue, resValue_of_put (s := ticked t) hres]
    exact congrArg (· ++ [Ret.byte _]) hdid.returns

/-! ### `EE_WRITE` (R151) -/

/-- The device holds the value at the offset, waiting for the STOP. -/
theorem devicePath_eeWrite {cfg : Config} {o v : Byte} {dev : Device} (hbusy : dev.busy = false) (res : Latch) :
    DevicePath cfg.device dev res (loadPrims cfg o v) { dev with ptr := o, sel := .wPending v } res := by
  refine .cons rfl deviceAnswers_start hbusy ?_
  refine .cons rfl (deviceAnswers_addr .write hbusy) hbusy ?_
  refine .cons rfl (deviceAnswers_offset rfl) hbusy ?_
  exact .cons rfl (deviceAnswers_value rfl) hbusy .nil

/-- A STOP of a transaction that stores the device's waiting value, the move listed after its answer being quiet. -/
theorem Between.runs_stopStores {i : Instr} {k k' : Nat} {v : Byte} {ms : List EnvMove} {s : State} (h : Between i k s)
    (ha : tableOf s.cfg i k = some (.call .stop none none (some k'))) (hph : s.phase = .dataWrite)
    (henv : s.env = .reference) (hbusy : s.dev.busy = false) (hsel : s.dev.sel = .wPending v)
    (hmoves : dropAnswer s.moves = .quiet :: ms) :
    ∃ n t, runs n s = .next t ∧ Between i k' t ∧ t.phase = .idle ∧ t.moves = ms ∧
      t.dev = { s.dev with mem := s.dev.mem.write s.dev.ptr.toNat v, busy := true, sel := .none } ∧
      Did [.stop] [.trigger false true false] 0 s t := by
  have hcontract : phaseTable .stop .write s.phase = some .idle := by
    rw [hph]
    rfl
  have hcalls : Calls i .stop (some k') (called .stop .stop s) := h.calls ha
  obtain ⟨n, st, d, hrun⟩ := hcalls.runs_stopStores rfl h.inited hcontract h.inflight henv hbusy
    (deviceAnswers_stop_stores hsel) rfl hmoves
  have hstep : step s = .next (called .stop .stop s) := h.step_call ha
  exact ⟨n + 1, _, (runs_next hstep).trans hrun, h.of_call, rfl, rfl, rfl,
    did_call i .stop .stop _ .idle st d ms n k' s⟩

/-- Settles O39: the path of `EE_WRITE` up to its STOP, the STOP that stores the value, and the return. -/
theorem eeWriteStoresInTheDevice : Obligations.EeWriteStoresInTheDevice := by
  intro o v s rest rs ms ho hinit hph henv hbusy hwf hlen hmoves
  have haccept : step s = .next (accepted (.eeWrite o v) rest s) := step_accepts ho
  obtain ⟨n, t, hrun, hb, hphase, hleft, hdev, -, hdid⟩ :=
    (callPath_eeWrite_loads hph).reaches_device (s := accepted (.eeWrite o v) rest s) (devicePath_eeWrite hbusy s.res)
      (ho.between hinit) rfl rfl henv hbusy
  have hquiet : dropAnswer t.moves = .quiet :: ms := by
    have hall := dropAnswer_answers rs (.quiet :: ms)
    rw [hleft, ← Function.iterate_succ_apply' dropAnswer]
    rwa [hlen, ← hmoves] at hall
  obtain ⟨n', u, hstop, hbu, hphu, hleftu, hdevu, hdidu⟩ := hb.runs_stopStores (k' := 5) (v := v)
    (by rw [hdid.cfg]; rfl) hphase (hdid.env.trans henv) (by rw [hdev]; exact hbusy) (by rw [hdev]) hquiet
  have hret := hbu.step_return (by rw [hdidu.cfg, hdid.cfg]; rfl)
  have hall := hdid.trans hdidu
  have hmem : u.dev.mem = s.dev.mem.write o.toNat v := by rw [hdevu, hdev]
  refine ⟨1 + n + n' + 1, commandReturn (.eeWrite o v) (ticked u),
    (runs_add ((runs_add ((runs_add (runs_one haccept)).trans hrun)).trans hstop)).trans (runs_one hret),
    hbu.returned hall.port, hphu, hall.faults, hleftu, hall.trace, ?_, ?_, fun a ha => ?_, ?_⟩
  · simp [hdevu]
  · simpa [hmem] using Memory.read_write_same hwf o.toNat v
  · simpa [hmem] using Memory.read_write_other v ha
  · exact congrArg (· ++ [Ret.nothing]) hall.returns

end Sys2Proof.Machine
end

section
/-!
PROOFS. The bound on the probes of `EE_WAIT` (spec 42_eeprom_client.md R153, R155): its table goes on from
the steps 0 to 3 alone, and only the status test counts a probe.
-/

namespace Sys2Proof.Machine

/-- `PROBES` keeps the bound `n`, and one more probe fits in it while `EE_WAIT` stands at one of its steps 0 to 3. -/
def ProbesWithin (n : Nat) (s : State) : Prop :=
  s.probes ≤ n ∧ ∀ k, s.txn = .run .eeWait k → k ≤ 3 → s.probes < n

section

variable {n : Nat} {s t : State}

theorem ProbesWithin.of_same (h : ProbesWithin n s) (hp : t.probes = s.probes) (ht : t.txn = s.txn) :
    ProbesWithin n t := by
  rwa [ProbesWithin, hp, ht]

/-- Away from the steps 0 to 3 of `EE_WAIT` the second half says nothing. -/
theorem ProbesWithin.of_le (hle : t.probes ≤ n) (hout : ∀ k, t.txn = .run .eeWait k → ¬k ≤ 3) : ProbesWithin n t :=
  ⟨hle, fun k hk hk3 => absurd hk3 (hout k hk)⟩

/-- The status test is the action of one step alone (R153). -/
theorem eeWait_of_test {cfg : Config} {i : Instr} {k exit again : Nat}
    (ha : tableOf cfg i k = some (.test exit again)) : i = .eeWait ∧ k = 2 ∧ exit = 4 := by
  have hk : k < tableLength i := (tableOf_ne_none_iff (cfg := cfg)).1 (by simp [ha])
  cases i with
  | init | start | stop | txAddr _ _ | txByte _ | rxAck | rxNak | decode _ | eeWrite _ _ | eeRead _ =>
    simp only [tableLength] at hk
    interval_cases k <;> cases ha
  | eeWait =>
    simp only [tableLength] at hk
    interval_cases k
    · cases ha
    · cases ha
    · cases ha
      exact ⟨rfl, rfl, rfl⟩
    · rw [eeWaitTable_loopBack] at ha
      cases hp : cfg.probeStop <;> simp [hp] at ha
    · rw [eeWaitTable_finish] at ha
      cases hw : cfg.waitFinalStop <;> simp [hw] at ha

/-- `EE_WAIT` goes on in its table from its steps 0 to 3 alone. -/
theorem eeWait_le_of_target {cfg : Config} {k m : Nat} {act : Action} (ha : tableOf cfg .eeWait k = some act)
    (hm : m ∈ act.targets) : k ≤ 3 := by
  have hk : k < 5 := (tableOf_ne_none_iff (cfg := cfg) (i := .eeWait)).1 (by simp [ha])
  by_contra hk3
  obtain rfl : k = 4 := by omega
  obtain rfl := Option.some.inj ((eeWaitTable_finish cfg).symm.trans ha)
  cases hw : cfg.waitFinalStop <;> simp [hw, Action.targets] at hm

/-- A step that goes on in the table without counting a probe. -/
theorem ProbesWithin.of_target {i : Instr} {k : Nat} {act : Action} (h : ProbesWithin n s) (ht : s.txn = .run i k)
    (ha : tableOf s.cfg i k = some act) (hp : t.probes = s.probes)
    (htarget : ∀ m, t.txn = .run .eeWait m → i = .eeWait ∧ m ∈ act.targets) : ProbesWithin n t := by
  refine ⟨hp ▸ h.1, fun m hm _ => ?_⟩
  obtain ⟨rfl, htgt⟩ := htarget m hm
  exact hp ▸ h.2 k ht (eeWait_le_of_target ha htgt)

theorem ProbesWithin.of_probeTest {exit again : Nat} (h : ProbesWithin n s) (hbound : s.cfg.pollBound = some n)
    (ht : s.txn = .run .eeWait 2) (hexit : exit = 4) : ProbesWithin n (probeTest .eeWait exit again s) := by
  have hlt : s.probes < n := h.2 2 ht (by omega)
  have hle : (probeTest .eeWait exit again s).probes ≤ n := by simpa using hlt
  subst hexit
  by_cases hst : readStatus s = 0x18
  · exact .of_le hle fun k hk => by
      rw [probeTest_acked hst] at hk
      injection hk with _ hk
      omega
  · by_cases hb : boundReached s.cfg (s.probes + 1) = true
    · exact .of_le hle fun k hk => by
        rw [probeTest_exhausted hst hb] at hk
        injection hk with _ hk
        omega
    · refine ⟨hle, fun _ _ _ => ?_⟩
      simp only [boundReached, hbound, decide_eq_true_eq] at hb
      simpa using hb

theorem ProbesWithin.of_startAction {i : Instr} {k : Nat} {act : Action} (h : ProbesWithin n s)
    (hbound : s.cfg.pollBound = some n) (ht : s.txn = .run i k) (ha : tableOf s.cfg i k = some act) :
    ProbesWithin n (startAction i act s) := by
  cases act with
  | call p a b next => exact h.of_same rfl rfl
  | test exit again =>
    obtain ⟨rfl, rfl, hexit⟩ := eeWait_of_test ha
    exact h.of_probeTest hbound ht hexit
  | jump m => exact h.of_target ht ha rfl (by simp [startAction, Action.targets, eq_comm])
  | ret => exact .of_le h.1 (by simp [startAction])

theorem runMicro_probes {m : Micro} {p : Prim} {u : Nat} {i : Instr} {next : Option Nat}
    (h : runMicro m p u (leaveTo i next) s = .next t) : t.probes = s.probes := by
  have hc := runMicro_cases h
  cases m with
  | contract | setClock | markInited | decode | ret =>
    obtain rfl : t = _ := by simpa using hc
    simp
  | writeAddr | writeData | readData =>
    obtain ⟨-, rfl⟩ : _ ∧ t = _ := by simpa using hc
    simp
  | trigger sta sto ea =>
    obtain ⟨r, hr, hadv⟩ := andThen_next.1 h
    obtain ⟨op, -, -, -, rfl⟩ := trigger_next.1 hr
    obtain rfl := next_inj hadv
    rfl
  | spinTC | spinStop =>
    obtain ⟨-, rfl⟩ | ⟨-, rfl⟩ : (_ ∧ t = _) ∨ (_ ∧ t = s) := by simpa using hc
    · rfl
    · rfl

theorem ProbesWithin.of_runMicro {i : Instr} {k u : Nat} {p : Prim} {a b : Option Byte} {next : Option Nat} {m : Micro}
    (h : ProbesWithin n s) (ht : s.txn = .run i k) (ha : tableOf s.cfg i k = some (.call p a b next))
    (hm : (microSteps p)[u]? = some m) (hrun : runMicro m p u (leaveTo i next) s = .next t) : ProbesWithin n t := by
  have hp := runMicro_probes hrun
  cases runMicro_move hm hrun with
  | spins => exact h
  | triggers _ _ => exact h.of_same rfl rfl
  | goesOn _ _ _ htxn _ _ _ => exact h.of_same hp htxn
  | returns _ _ _ htxn _ =>
    refine h.of_target ht ha hp fun j hj => ?_
    rw [htxn] at hj
    cases next with
    | none => simp at hj
    | some k' => simpa [Action.targets, eq_comm] using hj

theorem ProbesWithin.of_exec {i : Instr} (h : ProbesWithin n s) (hbound : s.cfg.pollBound = some n) (hn : 1 ≤ n)
    (hx : exec i s = .next t) : ProbesWithin n t := by
  rcases exec_cases hx with ⟨-, rfl⟩ | ⟨j, k, -, -, rfl⟩ | ⟨k, act, ht, ha, -, rfl⟩ |
    ⟨k, p, a, b, next, u, m, ht, ha, -, hm, hrun⟩
  · unfold onAccept
    split
    · exact ⟨Nat.zero_le n, fun _ _ _ => hn⟩
    · exact .of_le h.1 fun k hk => by simp_all
  · exact h
  · exact h.of_startAction hbound ht ha
  · exact h.of_runMicro ht ha hm hrun

end

/-- Settles O55, by the cases of a step: only a command's own step reaches the counter and the sequencer, and a power
cycle clears both. -/
theorem probesStayWithinTheBound : Obligations.ProbesStayWithinTheBound := by
  intro s t n hbound hn h hstep
  change ProbesWithin n t
  have hcounted : ∀ ws ms pcs, ProbesWithin n (counted ws ms pcs s) := fun ws ms pcs => .of_same h rfl rfl
  rcases step_next_cases hstep with ⟨rest, -, rfl⟩ | ⟨ws, ms, pcs, ⟨op, st, d, -, ha⟩ | rfl | rfl | ⟨i, -, hx⟩⟩
  · exact .of_le (Nat.zero_le n) (by simp [powerCycle, State.resetWith])
  · obtain ⟨st', d', s', rfl, rfl | ⟨dev', rfl, -⟩⟩ := envAnswer_finishOp ha <;>
      exact (hcounted ws ms pcs).of_same (by simp) (by simp)
  · exact (hcounted ws ms pcs).of_same rfl rfl
  · exact hcounted ws ms pcs
  · exact (hcounted ws ms pcs).of_exec hbound hn hx

end Sys2Proof.Machine
end

section
/-!
PROOFS. A power cycle (spec 70_reset_and_hazards.md R200 to R202) and the first command after reset (R205,
40_bus_engine.md R122).
-/

namespace Sys2Proof.Machine

/-! ### The power cycle (R200 to R202) -/

theorem step_powerCycle_due {s : State} {rest : List Nat} (h : s.powerCycles = 0 :: rest) :
    step s = .next (powerCycle (setPowerCycles rest (ticked s))) := by
  simp [step, stepWith, h]

theorem lostCallsAfter_eq (s : State) :
    lostCallsAfter s = if s.txn = .idle then s.lostCalls else s.lostCalls + 1 := by
  unfold lostCallsAfter
  cases s.txn <;> simp

/-- A power cycle while the bus is idle reaches the device only by ending its selection (R202). -/
theorem powerCycle_clean {s : State} (h : s.phase = .idle ∧ s.inflight = none) :
    powerCycle s =
      { State.resetWith s.cfg with
        port := s.port, returns := s.returns, diags := s.diags, env := s.env, dev := { s.dev with sel := .none },
        moves := s.moves, powerCycles := s.powerCycles, tick := s.tick, lostCalls := lostCallsAfter s } := by
  simp [powerCycle, h]

/-- A power cycle within a transfer leaves an environment that is unconstrained (R202). -/
theorem powerCycle_dirty {s : State} (h : ¬(s.phase = .idle ∧ s.inflight = none)) :
    powerCycle s =
      { State.resetWith s.cfg with
        port := s.port, returns := s.returns, diags := s.diags, env := .arbitrary, dev := s.dev,
        moves := s.moves, powerCycles := s.powerCycles, tick := s.tick, lostCalls := lostCallsAfter s } := by
  simp only [powerCycle, if_neg h]

theorem powerCycle_not_final {s : State} (h : s.txn ≠ .idle) : (powerCycle s).final = false := by
  have hlost : (powerCycle s).lostCalls = s.lostCalls + 1 := (lostCallsAfter_eq s).trans (if_neg h)
  simp [State.final, hlost]

/-- Settles O13: the power cycle takes the step, and what it does to the device depends on whether the bus was idle. -/
theorem powerCycleResetsTheBlock : Obligations.PowerCycleResetsTheBlock := by
  intro s rest hdue
  have hstep := step_powerCycle_due hdue
  refine ⟨fun hph hi => ?_, fun hdirty => ?_, fun hbusy t ht => ?_⟩
  · rw [hstep, powerCycle_clean (s := setPowerCycles rest (ticked s)) ⟨hph, hi⟩, lostCallsAfter_eq]
    rfl
  · rw [hstep, powerCycle_dirty (s := setPowerCycles rest (ticked s)) (not_and_or.2 hdirty), lostCallsAfter_eq]
    rfl
  · obtain rfl := next_inj (hstep.symm.trans ht)
    exact powerCycle_not_final (s := setPowerCycles rest (ticked s)) hbusy

/-! ### `INIT` after reset (R122, R205) -/

/-- The state that an `INIT` leaves which was offered in `s`, with `rest` left to offer. -/
def initDone (rest : List CmdWord) (s : State) : State :=
  { s with
    presc := 0, div := .put s.cfg.div, regLog := s.regLog ++ [.setClock 1 s.cfg.div], inited := true,
    opA := .put 0, opB := .put 0, port := rest, returns := s.returns ++ [.nothing], txn := .idle, eng := .idle,
    tick := s.tick + 4 }

/-- `INIT` meets no spin, so it returns four steps after it was offered, whatever the environment is. -/
theorem runs_init {s : State} {rest : List CmdWord} (h : Offers s .init rest) :
    runs 4 s = .next (initDone rest s) := by
  let s₁ := accept .init (setPort rest (ticked s))
  let s₂ := enter .init none none (ticked s₁)
  let s₃ := advance .init 0 (setClock s.cfg.div (ticked s₂))
  have haccept : step s = .next s₁ := by simpa [onAccept] using step_accepts h
  have hcall : step s₁ = .next s₂ :=
    step_action (k := 0) (act := .call .init none none none) h.powerCycles rfl rfl h.eng
  have hcalls : Calls .init .init none s₂ := ⟨h.powerCycles, 0, none, none, rfl, rfl⟩
  have hclock : step s₂ = .next s₃ := hcalls.step_offSpin rfl rfl (by simp)
  have hmark : step s₃ = .next (commandReturn .init (setInited (ticked s₃))) :=
    (hcalls.of_same (t := s₃) rfl rfl rfl).step_offSpin rfl rfl (by simp)
  calc runs 4 s = runs 3 s₁ := runs_next haccept
    _ = runs 2 s₂ := runs_next hcall
    _ = runs 1 s₃ := runs_next hclock
    _ = .next (commandReturn .init (setInited (ticked s₃))) := runs_one hmark
    _ = .next (initDone rest s) := by
      simp [s₁, s₂, s₃, initDone, commandReturn, setInited, advance, setClock, enter, accept, setPort, ticked,
        loadOperand, returnValue, Instr.byteA, Instr.byteB]

theorem offers_reset {c : Config} {i : Instr} (rest : List CmdWord) (h : i.wellFormed c = true) :
    Offers { State.resetWith c with port := encode i :: rest } i rest :=
  ⟨rfl, rfl, rfl, rfl, rfl, h⟩

/-- Settles O51: the run of `INIT`, from reset. -/
theorem initEstablishesTheContract : Obligations.InitEstablishesTheContract := by
  intro c rest
  have hlegal : Instr.init.wellFormed c = true := by simp [Instr.wellFormed, Instr.isPublic]
  exact ⟨4, _, runs_init (offers_reset rest hlegal), ⟨rfl, rfl, rfl, rfl⟩,
    .of_idle ⟨rfl, rfl⟩ rfl rfl (.inl rfl), rfl, rfl, rfl, rfl⟩

end Sys2Proof.Machine
end

section
/-!
PROOFS. `EE_WRITE` and `EE_READ` against the reference device while its write cycle runs (spec
70_reset_and_hazards.md R212, 20_memory.md R78 to R81): the device takes no part in a transfer, a call runs to its
return all the same, and a path of such calls leaves the device's bytes alone.
-/

namespace Sys2Proof.Machine

/-! ### The busy device's answer (R78 to R81) -/

/-- A busy device that is not selected, or is about to be deselected by a START, takes no part in an operation: it stays
unselected, and a receive gives the draw. -/
theorem deviceAnswer_busy {dev : Device} (hbusy : dev.busy = true) {op : BusOp}
    (hsel : op = .opStart ∨ dev.sel = .none) (a : Addr7) (ph : Phase) (st d x : Byte) :
    ∃ st', deviceAnswer a ph op st d x dev = .ok (st', d, { dev with sel := .none }) := by
  obtain ⟨mem, ptr, busy, sel⟩ := dev
  cases op with
  | opStart => exact ⟨_, rfl⟩
  | opAddr b => exact ⟨_, if_pos (.inr hbusy)⟩
  | opData _ | opRxAck | opRxNak | opStop =>
    obtain rfl : sel = .none := by simpa using hsel
    exact ⟨_, rfl⟩

section

variable {i j : Instr} {p : Prim} {dir : Dir} {next : Option Nat} {s : State} {u : Nat} {op : BusOp}

/-- The busy device's answer as a step. -/
theorem step_busyAnswers {st d : Byte} {ms : List EnvMove} (hp : s.powerCycles = []) (hi : s.inflight = some op)
    (hs : atSpin s = true) (henv : s.env = .reference) (hph : s.phase ≠ .undefined) (hbusy : s.dev.busy = true)
    (hsel : op = .opStart ∨ s.dev.sel = .none) (hmoves : s.moves = .answer st d :: ms) :
    ∃ st', step s = .next
      (finishOp op st' d { s with dev := { s.dev with sel := .none }, moves := ms, tick := s.tick + 1 }) := by
  obtain ⟨st', hanswer⟩ :=
    deviceAnswer_busy hbusy hsel s.cfg.device s.phase st d (Config.freeByte (s.tick + 1) .ptr)
  refine ⟨st', ?_⟩
  rw [step_answer hp hi hs hmoves, envAnswer]
  simp [henv, hph, hanswer, setDev, dropMove, ticked, hmoves]

/-- After any number of quiet iterations the busy device's answer comes. -/
theorem Calls.runs_busyAnswers {q : Nat} {st d : Byte} {ms : List EnvMove} (h : Calls i p next s)
    (he : s.eng = .exec p u) (hw : ¬SpinPast p u s) (hi : s.inflight = some op) (henv : s.env = .reference)
    (hph : s.phase ≠ .undefined) (hbusy : s.dev.busy = true) (hsel : op = .opStart ∨ s.dev.sel = .none)
    (hmoves : s.moves = List.replicate q EnvMove.quiet ++ (EnvMove.answer st d :: ms)) :
    ∃ st', runs (q + 1) s = .next
      (finishOp op st' d { s with dev := { s.dev with sel := .none }, moves := ms, tick := s.tick + (q + 1) }) := by
  obtain ⟨st', hanswer⟩ := step_busyAnswers (s := { s with moves := .answer st d :: ms, tick := s.tick + q })
    h.powerCycles hi (atSpin_of_waits he hw) henv hph hbusy hsel rfl
  exact ⟨st', by rw [runs_add (h.runs_quiet he hw (by simp [hi]) hmoves), runs_one hanswer, Nat.add_assoc]⟩

/-! ### A call while the write cycle runs (R150) -/

/-- While the write cycle runs the environment has a turn at the block's next look at the flag too; where it lets that
turn pass, the block goes on. -/
theorem Calls.step_pastSpin_quiet {ms : List EnvMove} (h : Calls i p next s) (hj : busPrim j = some (p, dir))
    (he : s.eng = .exec p (spinAt p)) (hpast : SpinPast p (spinAt p) s) (hb : deviceBusy s = true)
    (hmoves : s.moves = .quiet :: ms) : step s = .next (advance p (spinAt p) (dropMove (ticked s))) := by
  obtain ⟨k, a, b, ht, ha⟩ := h.call
  have hturn : envTurn s = true := by
    have hspin : atSpin s = true := by simpa [atSpin, he] using microSteps_spinAt hj
    simp [envTurn, envEnabled, hspin, hb]
  rw [step_quiet h.powerCycles ht hturn hmoves]
  rcases microSteps_spinAt hj with hm | hm <;> rw [exec_micro (s := dropMove (ticked s)) ht ha he hm]
  · exact runMicro_spinTC_past (hpast.1 hm)
  · exact runMicro_spinStop_past (hpast.2 hm)

/-- Behind its spin a bus primitive in contract returns: a receive reads `DATA` into `RES` first, and the phase becomes
that of R131. -/
theorem Calls.runs_afterSpin {ph : Phase} {d : Byte} (h : Calls i p next s) (hj : busPrim j = some (p, dir))
    (hl : Loaded j s) (he : s.eng = .exec p (spinAt p + 1)) (hi : s.inflight = none)
    (hph : phaseTable p dir s.phase = some ph) (hd : j = .rxAck ∨ j = .rxNak → s.data = .put d) :
    ∃ n, runs n s = .next
      (leaveTo i next { s with res := busRes j d s.res, phase := ph, eng := .idle, tick := s.tick + n }) := by
  have hafter := microSteps_afterSpin hj
  rw [busRes_eq]
  split at hafter
  next hreceive =>
    obtain ⟨hmRead, hmRet⟩ := hafter
    have hread := h.step_readData he hmRead hi (hd hreceive)
    have h1 : Calls i p next (advance p (spinAt p + 1) (setRes d (ticked s))) := h.of_same rfl rfl rfl
    exact ⟨2, by
      rw [runs_next hread, runs_one (h1.step_ret rfl hmRet hj (hl.of_same rfl rfl) hph), if_pos hreceive]
      rfl⟩
  next hother =>
    exact ⟨1, by rw [runs_one (h.step_ret he hafter hj hl hph), if_neg hother]⟩

theorem dropMove_ticked_finishOp (op : BusOp) (st d : Byte) (s : State) :
    dropMove (ticked (finishOp op st d s)) = finishOp op st d (dropMove (ticked s)) := by
  cases op <;> rfl

/-- From its contract step a bus primitive goes on to the completion of its operation, in which the busy device takes no
part, after the quiet iterations of the reply `r`. -/
theorem Calls.runs_busyFinished {r : Reply} {ms : List EnvMove} (h : Calls i p next s) (hj : busPrim j = some (p, dir))
    (hl : Loaded j s) (he : s.eng = .exec p 0) (hinit : s.inited = true) (hph : phaseTable p dir s.phase ≠ none)
    (hi : s.inflight = none) (henv : s.env = .reference) (hbusy : s.dev.busy = true) (hop : busOp j = some op)
    (hsel : j = .start ∨ s.dev.sel = .none) (hmoves : s.moves = r.moves ++ ms) :
    ∃ n st, runs n s = .next (finishOp op st r.d
      { issued j p (setDev { s.dev with sel := .none } s) with moves := ms, tick := s.tick + n }) := by
  have hissued := h.runs_issued hj hl he hinit hph hi
  have h1 : Calls i p next (issued j p s) := ⟨h.powerCycles, h.call⟩
  have hdefined : s.phase ≠ .undefined := fun hs => hph (by rw [hs, phaseTable_undefined hj])
  have hunselected : op = .opStart ∨ s.dev.sel = .none := hsel.imp_left fun hstart => by simp_all [busOp]
  have hlisted : (issued j p s).moves = List.replicate r.quiet .quiet ++ (.answer r.st r.d :: ms) := by
    simp [issued, hmoves, Reply.moves]
  obtain ⟨st, hrun⟩ := h1.runs_busyAnswers rfl (issued_waits hj s) hop henv hdefined hbusy hunselected hlisted
  refine ⟨spinAt p + (r.quiet + 1), st, ?_⟩
  rw [runs_add hissued, hrun]
  simp [issued, setDev, Nat.add_assoc]

/-- A call that the busy device takes no part in, answered with the reply `r`, the turn behind the answer passed. -/
theorem Calls.runs_busyDone {ph : Phase} {r : Reply} {ms : List EnvMove} (h : Calls i p next s)
    (hj : busPrim j = some (p, dir)) (hl : Loaded j s) (he : s.eng = .exec p 0) (hinit : s.inited = true)
    (hph : phaseTable p dir s.phase = some ph) (hi : s.inflight = none) (henv : s.env = .reference)
    (hbusy : s.dev.busy = true) (hsel : j = .start ∨ s.dev.sel = .none)
    (hmoves : s.moves = r.moves ++ (.quiet :: ms)) :
    ∃ n st, runs n s =
      .next (leaveTo i next (primDone j ph st r.d ms n (setDev { s.dev with sel := .none } s))) := by
  obtain ⟨op, hop⟩ := busOp_of_busPrim hj
  obtain ⟨n, st, hfinished⟩ :=
    h.runs_busyFinished hj hl he hinit (by simp [hph]) hi henv hbusy hop hsel hmoves
  let t : State :=
    { issued j p (setDev { s.dev with sel := .none } s) with moves := .quiet :: ms, tick := s.tick + n }
  have h1 : Calls i p next (finishOp op st r.d t) :=
    h.of_same (by simp [t, issued]) (by simp [t, issued]) (by simp [t, issued])
  have hpast := h1.step_pastSpin_quiet (ms := ms) hj (by simp [t, issued]) (spinPast_finishOp hj hop st r.d t)
    (by simp [deviceBusy, t, issued, henv, hbusy]) (by simp [t])
  rw [dropMove_ticked_finishOp] at hpast
  let v : State := advance p (spinAt p) (finishOp op st r.d (dropMove (ticked t)))
  have h2 : Calls i p next v := h1.of_same (by simp [v]) (by simp [v]) (by simp [v])
  have hreceived : j = .rxAck ∨ j = .rxNak → v.data = .put r.d := by
    rintro (rfl | rfl) <;> obtain rfl := Option.some.inj hop <;> rfl
  obtain ⟨n', hreturn⟩ := h2.runs_afterSpin hj (hl.of_same (by simp [v, t, issued]) (by simp [v, t, issued])) rfl
    (by simp [v]) (by simpa [v, t, issued] using hph) hreceived
  refine ⟨n + 1 + n', st, ?_⟩
  rw [runs_add ((runs_add hfinished).trans (runs_one hpast)), hreturn,
    ← finishOp_issued hj hop (setDev { s.dev with sel := .none } s) st r.d ms (n + 1)]
  simp [v, t, issued, advance, dropMove, ticked, Nat.add_assoc]

end

/-! ### A path of calls while the write cycle runs -/

/-- The reference device, busy all along, lets a transaction go along a path of its table, and `RES` is as the draws
leave it. -/
theorem CallPath.reaches_busy {cfg : Config} {i : Instr} {k k' : Nat} {ph ph' : Phase} {js : List Instr}
    {rs : List Reply} {ms : List EnvMove} {s : State} (hpath : CallPath cfg i k ph js k' ph') (h : Between i k s)
    (hcfg : s.cfg = cfg) (hph : s.phase = ph) (henv : s.env = .reference) (hbusy : s.dev.busy = true)
    (hsel : js.head? = some .start ∨ s.dev.sel = .none) (hlen : rs.length = js.length)
    (hmoves : s.moves = answersWhileBusy rs ++ ms) :
    ∃ n t, runs n s = .next t ∧ Between i k' t ∧ t.phase = ph' ∧ t.moves = ms ∧ t.dev.busy = true ∧
      t.dev.mem = s.dev.mem ∧ t.res = resAfter js rs s.res ∧
      Did (js.flatMap busEvent) (js.flatMap busRegOps) 0 s t := by
  induction hpath generalizing s rs with
  | nil =>
    obtain rfl := List.eq_nil_of_length_eq_zero hlen
    exact ⟨0, s, rfl, h, hph, hmoves, hbusy, rfl, rfl, Did.refl s⟩
  | @cons k next _ _ q _ j js p dir prim entry contract _ ih =>
    obtain ⟨r, rs, rfl⟩ := List.exists_cons_of_length_eq_add_one hlen
    subst hcfg hph
    obtain ⟨n, st, hcall⟩ := (h.calls entry).runs_busyDone (r := r) (ms := answersWhileBusy rs ++ ms) prim
      (loaded_called j p s) rfl h.inited contract h.inflight henv hbusy (hsel.imp_left fun hj => by simpa using hj)
      (by simp [called, hmoves, answersWhileBusy])
    obtain ⟨n', t, hrun, hb, hphase, hleft, hbusy', hmem, hres, hdid⟩ := ih (rs := rs)
      (h.of_call (dev := { s.dev with sel := .none })) rfl rfl henv hbusy (.inr rfl) (by simpa using hlen) rfl
    exact ⟨1 + n + n', t, (runs_add ((runs_add (runs_one (h.step_call entry))).trans hcall)).trans hrun, hb, hphase,
      hleft, hbusy', hmem, hres, (did_call i j p _ q st r.d _ n next s).trans hdid⟩

/-- A command that is offered while the device is busy runs along a path of its table, from a START, to its return. -/
theorem CallPath.returns_busy {i : Instr} {k : Nat} {ph : Phase} {js : List Instr} {rs : List Reply}
    {rest : List CmdWord} {ms : List EnvMove} {s : State} (hpath : CallPath s.cfg i 0 s.phase js k ph)
    (hret : tableOf s.cfg i k = some .ret) (hstart : js.head? = some .start) (ho : Offers s i rest)
    (hinit : s.inited = true) (henv : s.env = .reference) (hbusy : s.dev.busy = true) (hlen : rs.length = js.length)
    (hmoves : s.moves = answersWhileBusy rs ++ ms) :
    ∃ n t, runs n s = .next (commandReturn i (ticked t)) ∧ Returned (commandReturn i (ticked t)) rest ∧ t.phase = ph ∧
      t.moves = ms ∧ t.dev.busy = true ∧ t.dev.mem = s.dev.mem ∧ t.res = resAfter js rs s.res ∧
      Did (js.flatMap busEvent) (js.flatMap busRegOps) 0 (accepted i rest s) t := by
  have haccept : step s = .next (accepted i rest s) := step_accepts ho
  obtain ⟨n, t, hrun, hb, hph, hleft, hbusy', hmem, hres, hdid⟩ := hpath.reaches_busy (ho.between hinit) (by simp)
    (by simp) (by simpa using henv) (by simpa using hbusy) (.inl hstart) hlen (by simpa using hmoves)
  have hstep := hb.step_return (by simpa [hdid.cfg] using hret)
  exact ⟨1 + n + 1, t, (runs_add ((runs_add (runs_one haccept)).trans hrun)).trans (runs_one hstep),
    hb.returned (by simp [hdid.port]), hph, hleft, hbusy', by simpa using hmem, by simpa using hres, hdid⟩

/-! ### The two transactions (R212) -/

/-- Settles O40: the path of `EE_WRITE` while the device is busy, then the return. -/
theorem eeWriteToABusyDeviceIsLost : Obligations.EeWriteToABusyDeviceIsLost := by
  intro o v s rest rs ms ho hinit hph henv hbusy hlen hmoves
  obtain ⟨n, t, hrun, hreturned, hphase, hleft, hbusy', hmem, -, hdid⟩ :=
    (callPath_eeWrite hph).returns_busy rfl rfl ho hinit henv hbusy hlen hmoves
  refine ⟨n, _, hrun, hreturned, hphase, hdid.faults, hleft, hdid.trace, hbusy', hmem, ?_⟩
  exact congrArg (· ++ [Ret.nothing]) hdid.returns

/-- Settles O58: the path of `EE_READ` while the device is busy, then the return of the draw that the receive left in
`RES`. -/
theorem eeReadFromABusyDeviceIsADraw : Obligations.EeReadFromABusyDeviceIsADraw := by
  intro o s rest rs d ms ho hinit hph henv hbusy hlen hd hmoves
  obtain ⟨n, t, hrun, hreturned, hphase, hleft, hbusy', hmem, hres, hdid⟩ :=
    (callPath_eeRead hph).returns_busy rfl rfl ho hinit henv hbusy hlen hmoves
  refine ⟨n, _, hrun, hreturned, hphase, hdid.faults, hleft, hdid.trace, hbusy', hmem, ?_⟩
  rw [commandReturn_returns, returnValue, resValue_of_put (s := ticked t) (hres.trans (resAfter_readPrims hlen hd _))]
  exact congrArg (· ++ [Ret.byte d]) hdid.returns

end Sys2Proof.Machine
end

section
/-!
PROOFS. What a trigger says about its operation (spec 20_memory.md R53), and the access matrix (10_state.md R42, section
7): a command's step writes in the block only what a micro-step of a primitive that its table calls writes, and the
latches and counters of its own table.
-/

namespace Sys2Proof.Machine

/-! ### The kind of a trigger (R53) -/

/-- Each bus primitive issues one trigger: `STA` asks for a START, `STO` for a STOP, and `EA` for an acknowledged
receive. -/
theorem trigger_mem_microSteps_iff {p : Prim} {sta sto ea : Bool} :
    .trigger sta sto ea ∈ microSteps p ↔
      isBusPrim p = true ∧ sta = decide (p = .start) ∧ sto = decide (p = .stop) ∧ ea = decide (p = .rxAck) := by
  cases p <;> simp [microSteps, isBusPrim]

/-- A primitive other than START and STOP is allowed in the one phase of its own kind (R131). -/
theorem phaseTable_transfer {p : Prim} {dir : Dir} {ph ph' : Phase} (h : phaseTable p dir ph = some ph') :
    (p = .txAddr → ph = .addressPhase) ∧ (p = .txByte → ph = .dataWrite) ∧
      (p = .rxAck ∨ p = .rxNak → ph = .dataRead) := by
  refine ⟨?_, ?_, ?_⟩
  · rintro rfl
    cases ph <;> simp [phaseTable] at h ⊢
  · rintro rfl
    cases ph <;> simp [phaseTable] at h ⊢
  · rintro (rfl | rfl) <;> cases ph <;> simp [phaseTable] at h ⊢

/-- Settles O44: `STA` and `STO` mark the START and the STOP; the phase tells the others apart, and `EA` the two
receives. -/
theorem triggerKindFollowsFromFlagsAndPhase : Obligations.TriggerKindFollowsFromFlagsAndPhase := by
  intro p dir ph ph' b sta sto ea _ hph htrig
  obtain ⟨hbus, rfl, rfl, rfl⟩ := trigger_mem_microSteps_iff.1 htrig
  obtain ⟨hAddr, hByte, hReceive⟩ := phaseTable_transfer hph
  cases p with
  | init | decode => simp [isBusPrim] at hbus
  | start | stop => rfl
  | txAddr =>
    obtain rfl := hAddr rfl
    rfl
  | txByte =>
    obtain rfl := hByte rfl
    rfl
  | rxAck =>
    obtain rfl := hReceive (.inl rfl)
    rfl
  | rxNak =>
    obtain rfl := hReceive (.inr rfl)
    rfl

/-! ### What the micro-steps write (R122 to R132) -/

/-- `t` differs from `s` in the registers, the phase, the marks and the logs at most by what the micro-steps `ms`
write. -/
structure WrittenBy (ms : List Micro) (s t : State) : Prop where
  clock : .setClock ∉ ms → t.presc = s.presc ∧ t.div = s.div
  inited : .markInited ∉ ms → t.inited = s.inited
  ctrl : t.ctrl = s.ctrl ∨ ∃ sta sto ea, .trigger sta sto ea ∈ ms ∧ t.ctrl = triggeredCtrl sta sto ea
  bus : (∀ sta sto ea, .trigger sta sto ea ∉ ms) → t.inflight = s.inflight ∧ t.trace = s.trace
  data : .writeAddr ∉ ms → .writeData ∉ ms → t.data = s.data
  regLog : .setClock ∉ ms → .writeAddr ∉ ms → .writeData ∉ ms → (∀ sta sto ea, .trigger sta sto ea ∉ ms) →
    t.regLog = s.regLog
  faults : .contract ∉ ms → t.faults = s.faults
  phase : .contract ∉ ms → .ret ∉ ms → t.phase = s.phase
  res : .readData ∉ ms → t.res = s.res
  diags : .decode ∉ ms → t.diags = s.diags

section

variable {s t : State} {m : Micro} {p : Prim} {u : Nat} {i : Instr} {next : Option Nat} {ms : List Micro}

theorem runMicro_writtenBy (hmem : m ∈ ms) (h : runMicro m p u (leaveTo i next) s = .next t) : WrittenBy ms s t := by
  have hc := runMicro_cases h
  cases m with
  | contract | setClock | markInited | decode | ret =>
    obtain rfl : t = _ := by simpa using hc
    constructor <;> simp [hmem]
  | writeAddr | writeData | readData =>
    obtain ⟨-, rfl⟩ : _ ∧ t = _ := by simpa using hc
    constructor <;> simp [hmem]
  | trigger sta sto ea =>
    obtain ⟨r, hr, hadv⟩ := andThen_next.1 h
    obtain ⟨op, -, -, -, rfl⟩ := trigger_next.1 hr
    obtain rfl := next_inj hadv
    constructor
    case ctrl => exact .inr ⟨sta, sto, ea, hmem, rfl⟩
    case bus => exact fun hno => absurd hmem (hno sta sto ea)
    case regLog => exact fun _ _ _ hno => absurd hmem (hno sta sto ea)
    all_goals simp
  | spinTC | spinStop =>
    obtain ⟨-, rfl⟩ | ⟨-, rfl⟩ : (_ ∧ t = _) ∨ (_ ∧ t = s) := by simpa using hc
    · constructor <;> simp
    · constructor <;> simp

/-- No micro-step loads an operand or sets `WAIT_ACKED` (R30, R31). -/
theorem runMicro_latches (h : runMicro m p u (leaveTo i next) s = .next t) :
    t.opA = s.opA ∧ t.opB = s.opB ∧ t.waitAcked = s.waitAcked := by
  have hc := runMicro_cases h
  cases m with
  | contract | setClock | markInited | decode | ret =>
    obtain rfl : t = _ := by simpa using hc
    simp
  | writeAddr | writeData | readData =>
    obtain ⟨-, rfl⟩ : _ ∧ t = _ := by simpa using hc
    simp
  | trigger sta sto ea =>
    obtain ⟨r, hr, hadv⟩ := andThen_next.1 h
    obtain ⟨op, -, -, -, rfl⟩ := trigger_next.1 hr
    obtain rfl := next_inj hadv
    simp
  | spinTC | spinStop =>
    obtain ⟨-, rfl⟩ | ⟨-, rfl⟩ : (_ ∧ t = _) ∨ (_ ∧ t = s) := by simpa using hc
    · simp
    · simp

/-! ### The flags that a trigger may leave (R24 to R26) -/

/-- No trigger sets `TC`. -/
theorem WrittenBy.tc (h : WrittenBy ms s t) (ht : t.ctrl.tc = true) : s.ctrl.tc = true := by
  obtain hc | ⟨sta, sto, ea, -, hc⟩ := h.ctrl
  · rwa [← hc]
  · simp [hc, triggeredCtrl] at ht

theorem WrittenBy.ea (h : WrittenBy ms s t) (hms : ∀ sta sto, .trigger sta sto true ∉ ms) (ht : t.ctrl.ea = true) :
    s.ctrl.ea = true := by
  obtain hc | ⟨sta, sto, ea, hmem, hc⟩ := h.ctrl
  · rwa [← hc]
  · obtain rfl : ea = true := by simpa [hc, triggeredCtrl] using ht
    exact absurd hmem (hms sta sto)

theorem WrittenBy.sta (h : WrittenBy ms s t) (hms : ∀ sto ea, .trigger true sto ea ∉ ms) (ht : t.ctrl.sta = true) :
    s.ctrl.sta = true := by
  obtain hc | ⟨sta, sto, ea, hmem, hc⟩ := h.ctrl
  · rwa [← hc]
  · obtain rfl : sta = true := by simpa [hc, triggeredCtrl] using ht
    exact absurd hmem (hms sto ea)

theorem WrittenBy.sto (h : WrittenBy ms s t) (hms : ∀ sta ea, .trigger sta true ea ∉ ms) (ht : t.ctrl.sto = true) :
    s.ctrl.sto = true := by
  obtain hc | ⟨sta, sto, ea, hmem, hc⟩ := h.ctrl
  · rwa [← hc]
  · obtain rfl : sto = true := by simpa [hc, triggeredCtrl] using ht
    exact absurd hmem (hms sta ea)

end

/-! ### The micro-steps of a command (R32, R151 to R153) -/

/-- The primitives that a command's table calls. -/
def calledPrims : Instr → List Prim
  | .init => [.init]
  | .start => [.start]
  | .stop => [.stop]
  | .txAddr _ _ => [.txAddr]
  | .txByte _ => [.txByte]
  | .rxAck => [.rxAck]
  | .rxNak => [.rxNak]
  | .decode _ => [.decode]
  | .eeWrite _ _ => [.start, .txAddr, .txByte, .stop]
  | .eeRead _ => [.start, .txAddr, .txByte, .rxNak, .stop]
  | .eeWait => [.start, .txAddr, .stop]

/-- The micro-steps that a command may take. -/
def commandMicros (i : Instr) : List Micro :=
  (calledPrims i).flatMap microSteps

/-- The command is one of the EEPROM Client's transactions. -/
def IsTransaction (i : Instr) : Prop :=
  (∃ o v, i = .eeWrite o v) ∨ (∃ o, i = .eeRead o) ∨ i = .eeWait

section

variable {i : Instr} {cfg : Config} {k : Nat} {p : Prim} {a b : Option Byte} {next : Option Nat}

theorem mem_calledPrims (ha : tableOf cfg i k = some (.call p a b next)) : p ∈ calledPrims i := by
  have hk : k < tableLength i := (tableOf_ne_none_iff (cfg := cfg)).1 (by simp [ha])
  cases i with
  | init | start | stop | txAddr _ _ | txByte _ | rxAck | rxNak | decode _ | eeWrite _ _ | eeRead _ =>
    simp only [tableLength] at hk
    interval_cases k <;> cases ha <;> simp [calledPrims]
  | eeWait =>
    simp only [tableLength] at hk
    interval_cases k
    · cases ha
      simp [calledPrims]
    · cases ha
      simp [calledPrims]
    · cases ha
    · rw [eeWaitTable_loopBack] at ha
      cases hp : cfg.probeStop <;> simp [hp] at ha
      simp [calledPrims, ← ha.1]
    · rw [eeWaitTable_finish] at ha
      cases hw : cfg.waitFinalStop <;> simp [hw] at ha
      simp [calledPrims, ← ha.1]

/-- A command that is one primitive calls it with the operands of the acceptance. -/
theorem operands_of_not_isTransaction (hi : ¬IsTransaction i) (ha : tableOf cfg i k = some (.call p a b next)) :
    a = none ∧ b = none := by
  have hk : k < tableLength i := (tableOf_ne_none_iff (cfg := cfg)).1 (by simp [ha])
  cases i with
  | init | start | stop | txAddr _ _ | txByte _ | rxAck | rxNak | decode _ =>
    obtain rfl : k = 0 := by simpa [tableLength] using hk
    cases ha
    exact ⟨rfl, rfl⟩
  | eeWrite _ _ | eeRead _ | eeWait => simp [IsTransaction] at hi

theorem setClock_mem_commandMicros : .setClock ∈ commandMicros i ↔ i = .init := by
  cases i <;> simp [commandMicros, calledPrims, microSteps]

theorem markInited_mem_commandMicros : .markInited ∈ commandMicros i ↔ i = .init := by
  cases i <;> simp [commandMicros, calledPrims, microSteps]

theorem decode_mem_commandMicros : .decode ∈ commandMicros i ↔ ∃ raw, i = .decode raw := by
  cases i <;> simp [commandMicros, calledPrims, microSteps]

theorem readData_mem_commandMicros :
    .readData ∈ commandMicros i ↔ i = .rxAck ∨ i = .rxNak ∨ ∃ o, i = .eeRead o := by
  cases i <;> simp [commandMicros, calledPrims, microSteps]

theorem trigger_ea_mem_commandMicros {sta sto : Bool} (h : .trigger sta sto true ∈ commandMicros i) : i = .rxAck := by
  cases i <;> simp [commandMicros, calledPrims, microSteps] at h ⊢

theorem trigger_sta_mem_commandMicros {sto ea : Bool} (h : .trigger true sto ea ∈ commandMicros i) :
    i = .start ∨ IsTransaction i := by
  cases i <;> simp [commandMicros, calledPrims, microSteps, IsTransaction] at h ⊢

theorem trigger_sto_mem_commandMicros {sta ea : Bool} (h : .trigger sta true ea ∈ commandMicros i) :
    i = .stop ∨ IsTransaction i := by
  cases i <;> simp [commandMicros, calledPrims, microSteps, IsTransaction] at h ⊢

/-- `INIT` and `DECODE` take no micro-step of the bus: none that triggers, uses `DATA` or looks at the contract. -/
theorem notMem_commandMicros_of_offBus {m : Micro} (hi : i = .init ∨ ∃ raw, i = .decode raw)
    (hm : m ≠ .setClock ∧ m ≠ .markInited ∧ m ≠ .decode) : m ∉ commandMicros i := by
  rcases hi with rfl | ⟨raw, rfl⟩ <;> simp [commandMicros, calledPrims, microSteps, hm]

/-- Only the transmitting primitives write `DATA` (R126, R127). -/
theorem writeData_notMem_commandMicros (hi : i = .start ∨ i = .stop ∨ i = .rxAck ∨ i = .rxNak) :
    .writeAddr ∉ commandMicros i ∧ .writeData ∉ commandMicros i := by
  rcases hi with rfl | rfl | rfl | rfl <;> simp [commandMicros, calledPrims, microSteps]

end

/-! ### A step of a command (R42) -/

section

variable {i : Instr} {s t : State}

theorem exec_writtenBy (h : exec i s = .next t) : WrittenBy (commandMicros i) s t := by
  rcases exec_cases h with ⟨-, rfl⟩ | ⟨j, k, -, -, rfl⟩ | ⟨k, act, -, -, -, rfl⟩ |
    ⟨k, p, a, b, next, u, m, -, ha, -, hm, hrun⟩
  · unfold onAccept
    split <;> constructor <;> simp
  · constructor <;> simp
  · cases act <;> constructor <;> simp [startAction]
  · exact runMicro_writtenBy (List.mem_flatMap.2 ⟨p, mem_calledPrims ha, List.mem_of_getElem? hm⟩) hrun

/-- `EE_WAIT` alone has a status test, and alone clears its counters on acceptance (R153). -/
theorem exec_waitCounters (hi : i ≠ .eeWait) (h : exec i s = .next t) :
    t.waitAcked = s.waitAcked ∧ t.probes = s.probes := by
  rcases exec_cases h with ⟨-, rfl⟩ | ⟨j, k, -, -, rfl⟩ | ⟨k, act, -, ha, -, rfl⟩ |
    ⟨k, p, a, b, next, u, m, -, -, -, -, hrun⟩
  · simp [onAccept, hi]
  · exact ⟨rfl, rfl⟩
  · cases act with
    | call p a b next => exact ⟨rfl, rfl⟩
    | test exit again => exact absurd (eeWait_of_test ha).1 hi
    | jump k => exact ⟨rfl, rfl⟩
    | ret => exact ⟨rfl, rfl⟩
  · obtain ⟨-, -, hacked⟩ := runMicro_latches hrun
    exact ⟨hacked, runMicro_probes hrun⟩

/-- A running primitive keeps the operands that its acceptance loaded (R91, R150). -/
theorem exec_operands (ht : s.txn ≠ .idle) (hi : ¬IsTransaction i) (h : exec i s = .next t) :
    t.opA = s.opA ∧ t.opB = s.opB := by
  rcases exec_cases h with ⟨hidle, -⟩ | ⟨j, k, -, -, rfl⟩ | ⟨k, act, -, ha, -, rfl⟩ |
    ⟨k, p, a, b, next, u, m, -, -, -, -, hrun⟩
  · exact absurd hidle ht
  · exact ⟨rfl, rfl⟩
  · cases act with
    | call p a b next =>
      obtain ⟨rfl, rfl⟩ := operands_of_not_isTransaction hi ha
      exact ⟨rfl, rfl⟩
    | test exit again => simp [startAction]
    | jump k => exact ⟨rfl, rfl⟩
    | ret => exact ⟨rfl, rfl⟩
  · obtain ⟨hA, hB, -⟩ := runMicro_latches hrun
    exact ⟨hA, hB⟩

theorem exec_offBus (hi : i = .init ∨ ∃ raw, i = .decode raw) (h : exec i s = .next t) :
    t.ctrl = s.ctrl ∧ t.data = s.data ∧ t.phase = s.phase ∧ t.inflight = s.inflight ∧ t.trace = s.trace ∧
      t.faults = s.faults := by
  have hw := exec_writtenBy h
  have hno : ∀ {m : Micro}, m ≠ .setClock ∧ m ≠ .markInited ∧ m ≠ .decode → m ∉ commandMicros i :=
    notMem_commandMicros_of_offBus hi
  obtain ⟨hinflight, htrace⟩ := hw.bus fun _ _ _ => hno (by simp)
  obtain hctrl | ⟨sta, sto, ea, hmem, -⟩ := hw.ctrl
  · exact ⟨hctrl, hw.data (hno (by simp)) (hno (by simp)), hw.phase (hno (by simp)) (hno (by simp)), hinflight, htrace,
      hw.faults (hno (by simp))⟩
  · exact absurd hmem (hno (by simp))

theorem exec_decode_regLog {raw : Byte} (h : exec (.decode raw) s = .next t) : t.regLog = s.regLog := by
  have hno : ∀ {m : Micro}, m ≠ .setClock ∧ m ≠ .markInited ∧ m ≠ .decode → m ∉ commandMicros (.decode raw) :=
    notMem_commandMicros_of_offBus (.inr ⟨raw, rfl⟩)
  exact (exec_writtenBy h).regLog (by simp [setClock_mem_commandMicros]) (hno (by simp)) (hno (by simp))
    fun _ _ _ => hno (by simp)

end

/-- Settles O56: within the block a command writes what its micro-steps write and its own latches and counters, and no
command reaches outside the block. -/
theorem commandsLeaveTheRestUnchanged : Obligations.CommandsLeaveTheRestUnchanged := by
  intro i s t h
  have hw := exec_writtenBy h
  have hclient : (∀ o v, i ≠ .eeWrite o v) → (∀ o, i ≠ .eeRead o) → i ≠ .eeWait → ¬IsTransaction i := by
    rintro hwr hrd hwt (⟨o, v, hi⟩ | ⟨o, hi⟩ | hi)
    exacts [hwr o v hi, hrd o hi, hwt hi]
  obtain ⟨hport, hstatus, henv, hdev, hmoves, hpcs, htick, hcfg, -⟩ := exec_frame h
  refine ⟨fun hi => ?_, fun hi => exec_offBus hi h, ?_, fun hi => ?_, fun hi => ?_, fun ⟨hA, hN, hR⟩ => ?_,
    fun hi => exec_waitCounters hi h, fun ht hwr hrd hwt => exec_operands ht (hclient hwr hrd hwt) h, hw.tc,
    fun hi => ?_, fun hi hwr hrd hwt => ?_, fun hi hwr hrd hwt => ?_, hstatus, hport, henv, hdev, hmoves, hpcs, htick,
    hcfg, fun a => by rw [hdev]⟩
  · obtain ⟨hpresc, hdiv⟩ := hw.clock (mt setClock_mem_commandMicros.1 hi)
    exact ⟨hpresc, hdiv, hw.inited (mt markInited_mem_commandMicros.1 hi)⟩
  · rintro ⟨raw, rfl⟩
    exact exec_decode_regLog h
  · exact hw.diags fun hmem => (decode_mem_commandMicros.1 hmem).elim hi
  · obtain ⟨hAddr, hByte⟩ := writeData_notMem_commandMicros hi
    exact hw.data hAddr hByte
  · refine hw.res fun hmem => ?_
    rcases readData_mem_commandMicros.1 hmem with hi | hi | ⟨o, hi⟩
    exacts [hA hi, hN hi, hR o hi]
  · exact hw.ea fun sta sto hmem => hi (trigger_ea_mem_commandMicros hmem)
  · exact hw.sta fun sto ea hmem => (trigger_sta_mem_commandMicros hmem).elim hi (hclient hwr hrd hwt)
  · exact hw.sto fun sta ea hmem => (trigger_sto_mem_commandMicros hmem).elim hi (hclient hwr hrd hwt)

end Sys2Proof.Machine
end

section
/-!
PROOFS. The answers of the environment, one by one (spec 20_memory.md R60 to R64, R77 to R82), what the device stores
(R81, R83), the spin that nothing answers (R63, R121, R172), and the register interface as byte accesses (R51 to R58,
R101).
-/

namespace Sys2Proof.Machine

/-! ### One answer (R60 to R62) -/

theorem finishOp_of_ne_stop {op : BusOp} (h : op ≠ .opStop) (st d : Byte) (s : State) :
    finishOp op st d s = complete op st d s := by
  cases op with
  | opStop => exact absurd rfl h
  | opStart | opAddr _ | opData _ | opRxAck | opRxNak => rfl

/-- In contract the reference environment answers as its device does. -/
theorem envAnswer_reference {op : BusOp} {st d st' d' : Byte} {dev' : Device} {s : State} (henv : s.env = .reference)
    (hph : s.phase ≠ .undefined)
    (hans : deviceAnswer s.cfg.device s.phase op st d (Config.freeByte s.tick .ptr) s.dev = .ok (st', d', dev')) :
    envAnswer op st d s = .next (finishOp op st' d' (setDev dev' s)) := by
  simp [envAnswer, henv, hph, hans]

/-- Settles O34: the answer is the draws or the device's answer, and completes the operation. -/
theorem answerCompletesTheOperation : Obligations.AnswerCompletesTheOperation := by
  intro s op st d ms hp hi hop hs hm
  have hstep := step_answer hp hi hs hm
  refine ⟨fun henv => ?_, fun st' d' dev' henv hph hans => ?_⟩
  · rw [hstep, envAnswer_arbitrary (s := dropMove (ticked s)) henv, finishOp_of_ne_stop hop]
    simp [complete, isReceive_iff, dropMove, ticked, hm, Latch.put]
  · rw [hstep, envAnswer_reference (s := dropMove (ticked s)) henv hph hans, finishOp_of_ne_stop hop]
    simp [complete, isReceive_iff, setDev, dropMove, ticked, hm, Latch.put]

/-- The device after a STOP: a pending value is stored and the write cycle begins, or only the selection ends (R81). -/
def stopDevice (dev : Device) : Device :=
  match dev.sel with
  | .wPending v => { dev with mem := dev.mem.write dev.ptr.toNat v, busy := true, sel := .none }
  | .none | .wAddr | .wData | .reading => { dev with sel := .none }

theorem deviceAnswer_opStop (a : Addr7) (ph : Phase) (st d x : Byte) (dev : Device) :
    deviceAnswer a ph .opStop st d x dev = .ok (st, d, stopDevice dev) := by
  cases h : dev.sel <;> simp [deviceAnswer, stopDevice, h]

theorem stopDevice_of_pending {dev : Device} {v : Byte} (h : dev.sel = .wPending v) :
    stopDevice dev = { dev with mem := dev.mem.write dev.ptr.toNat v, busy := true, sel := .none } := by
  simp [stopDevice, h]

theorem stopDevice_of_not_pending {dev : Device} (h : ∀ v, dev.sel ≠ .wPending v) :
    stopDevice dev = { dev with sel := .none } := by
  cases hs : dev.sel with
  | wPending v => exact absurd hs (h v)
  | none | wAddr | wData | reading => simp [stopDevice, hs]

/-- Settles O35: the answer is a `StopSent` of the draw, and the device is `stopDevice`. -/
theorem answerReportsTheStopSent : Obligations.AnswerReportsTheStopSent := by
  intro s st d ms hp hi hs hm
  have hstep := step_answer hp hi hs hm
  refine ⟨fun henv => ?_, fun henv hph => ⟨stopDevice s.dev, ?_, ?_⟩⟩
  · rw [hstep, envAnswer_arbitrary (s := dropMove (ticked s)) henv]
    simp [finishOp, stopSent, dropMove, ticked, hm, Latch.put]
  · rw [hstep, envAnswer_reference (s := dropMove (ticked s)) henv hph (deviceAnswer_opStop _ _ _ _ _ _)]
    simp [finishOp, stopSent, setDev, dropMove, ticked, hm, Latch.put]
  · by_cases hpend : ∃ v, s.dev.sel = .wPending v
    · obtain ⟨v, hv⟩ := hpend
      simp [stopDevice_of_pending hv, hv]
    · have hnot : ∀ v, s.dev.sel ≠ .wPending v := not_exists.1 hpend
      simp [stopDevice_of_not_pending hnot, hnot]

/-! ### The device's status is legal (R64, R77 to R82) -/

/-- R77 to R80: the status of an addressing. -/
theorem deviceAnswer_opAddr {a : Addr7} {ph : Phase} {b st d x st' d' : Byte} {dev dev' : Device}
    (h : deviceAnswer a ph (.opAddr b) st d x dev = .ok (st', d', dev')) :
    (dev.busy = false ∧ byteAddr7 b = a ∧ st' = (if byteDir b = .write then 0x18 else 0x40) ∧
      dev' = { dev with sel := if byteDir b = .write then .wAddr else .reading }) ∨
    ((byteAddr7 b = a → dev.busy = true) ∧ st' = (if byteDir b = .write then 0x20 else 0x48) ∧
      dev' = { dev with sel := .none }) := by
  simp only [deviceAnswer] at h
  split at h
  next hno =>
    simp only [Except.ok.injEq, Prod.mk.injEq] at h
    exact .inr ⟨fun ha => hno.resolve_left (not_not.2 ha), h.1.symm, h.2.2.symm⟩
  next hyes =>
    obtain ⟨haddr, hbusy⟩ : byteAddr7 b = a ∧ dev.busy = false := by simpa using hyes
    cases hdir : byteDir b with
    | write => exact .inl ⟨hbusy, haddr, by simp_all⟩
    | read => exact .inl ⟨hbusy, haddr, by simp_all⟩

/-- The status of a data byte, but to a device addressed for read (R79). -/
theorem deviceAnswer_opData_status {a : Addr7} {ph : Phase} {b st d x st' d' : Byte} {dev dev' : Device}
    (h : deviceAnswer a ph (.opData b) st d x dev = .ok (st', d', dev')) (hsel : dev.sel ≠ .reading) :
    st' = 0x28 ∨ st' = 0x30 := by
  cases hs : dev.sel with
  | reading => exact absurd hs hsel
  | wPending v => simp [deviceAnswer, hs] at h
  | none | wAddr | wData => simp_all [deviceAnswer]

theorem deviceAnswer_opRxAck_status {a : Addr7} {ph : Phase} {st d x st' d' : Byte} {dev dev' : Device}
    (h : deviceAnswer a ph .opRxAck st d x dev = .ok (st', d', dev')) : st' = 0x50 := by
  simp only [deviceAnswer] at h
  split at h <;> simp_all

/-- In contract an operation is triggered in a phase that has a row of R64's table. -/
theorem legalStatus_of_deviceAnswer {a : Addr7} {p : Prim} {dir : Dir} {ph ph' : Phase} {op : BusOp}
    {st d x st' d' : Byte} {dev dev' : Device} (hfits : opFits p op = true) (hph : phaseTable p dir ph = some ph')
    (h : deviceAnswer a ph op st d x dev = .ok (st', d', dev'))
    (hsel : ∀ b, op = .opData b → dev.sel ≠ .reading) : legalStatus op ph st' = true := by
  obtain ⟨hAddr, hByte, hReceive⟩ := phaseTable_transfer hph
  cases op with
  | opStart =>
    obtain rfl : p = .start := by cases p <;> simp [opFits] at hfits ⊢
    obtain ⟨rfl, -⟩ : (if ph = .idle then (0x08 : Byte) else 0x10) = st' ∧ _ := by simpa [deviceAnswer] using h
    cases ph <;> simp [phaseTable] at hph <;> rfl
  | opStop => cases ph <;> rfl
  | opAddr b =>
    obtain rfl : ph = .addressPhase := hAddr (by cases p <;> simp [opFits] at hfits ⊢)
    rcases deviceAnswer_opAddr h with ⟨-, -, rfl, -⟩ | ⟨-, rfl, -⟩ <;> cases hdir : byteDir b <;> simp [legalStatus, hdir]
  | opData b =>
    obtain rfl : ph = .dataWrite := hByte (by cases p <;> simp [opFits] at hfits ⊢)
    rcases deviceAnswer_opData_status h (hsel b rfl) with rfl | rfl <;> rfl
  | opRxAck =>
    obtain rfl : ph = .dataRead := hReceive (.inl (by cases p <;> simp [opFits] at hfits ⊢))
    rw [deviceAnswer_opRxAck_status h]
    rfl
  | opRxNak =>
    obtain rfl : ph = .dataRead := hReceive (.inr (by cases p <;> simp [opFits] at hfits ⊢))
    obtain ⟨rfl, -⟩ : (0x58 : Byte) = st' ∧ _ := by simpa [deviceAnswer] using h
    rfl

/-- The one operation that the device refuses is a third data byte (R79). -/
theorem deviceAnswer_error_iff {a : Addr7} {ph : Phase} {op : BusOp} {st d x : Byte} {dev : Device} :
    (∃ r, deviceAnswer a ph op st d x dev = .error r) ↔ ∃ b v, op = .opData b ∧ dev.sel = .wPending v := by
  constructor
  · rintro ⟨r, h⟩
    cases op with
    | opData b => cases hs : dev.sel <;> simp [deviceAnswer, hs] at h ⊢
    | opStop => simp [deviceAnswer_opStop] at h
    | opStart | opRxNak => cases h
    | opAddr b =>
      simp only [deviceAnswer] at h
      split at h
      · cases h
      · split at h <;> cases h
    | opRxAck =>
      simp only [deviceAnswer] at h
      split at h <;> cases h
  · rintro ⟨b, v, rfl, hs⟩
    exact ⟨.pageWrite, by simp [deviceAnswer, hs]⟩

/-- Settles O38: the refusals are those of `deviceAnswer_error_iff`, and every status stands in its row of the table. -/
theorem referenceDeviceConforms : Obligations.ReferenceDeviceConforms :=
  fun _ _ _ _ _ _ _ _ _ _ hfits hph => ⟨fun _ hr => ⟨deviceAnswer_error_iff.1 ⟨_, hr⟩, deviceAnswer_error hr⟩,
    fun _ _ _ h hsel => legalStatus_of_deviceAnswer hfits hph h hsel⟩

/-! ### What the device stores (R81, R83) -/

/-- Of the operations only a STOP with a value pending reaches the device's bytes, or begins a write cycle. -/
theorem deviceAnswer_mem {a : Addr7} {ph : Phase} {op : BusOp} {st d x st' d' : Byte} {dev dev' : Device}
    (h : deviceAnswer a ph op st d x dev = .ok (st', d', dev')) :
    (dev'.mem = dev.mem ∧ dev'.busy = dev.busy) ∨
      op = .opStop ∧ ∃ v, dev.sel = .wPending v ∧ dev'.mem = dev.mem.write dev.ptr.toNat v := by
  cases op with
  | opStop =>
    obtain ⟨-, -, rfl⟩ : _ ∧ _ ∧ stopDevice dev = dev' := by simpa [deviceAnswer_opStop] using h
    by_cases hpend : ∃ v, dev.sel = .wPending v
    · obtain ⟨v, hv⟩ := hpend
      exact .inr ⟨rfl, v, hv, by rw [stopDevice_of_pending hv]⟩
    · rw [stopDevice_of_not_pending (not_exists.1 hpend)]
      exact .inl ⟨rfl, rfl⟩
  | opStart | opRxNak => simp_all [deviceAnswer, eq_comm]
  | opAddr b => rcases deviceAnswer_opAddr h with ⟨-, -, -, rfl⟩ | ⟨-, -, rfl⟩ <;> exact .inl ⟨rfl, rfl⟩
  | opData b => cases hs : dev.sel <;> simp [deviceAnswer, hs] at h <;> simp [← h.2.2]
  | opRxAck =>
    simp only [deviceAnswer] at h
    split at h <;> simp at h <;> simp [← h.2.2]

theorem powerCycle_mem (s : State) : (powerCycle s).dev.mem = s.dev.mem := by
  simp only [powerCycle]
  split <;> rfl

/-- Settles O57: of a step's acts only an answer of the device reaches its bytes, and of its answers only the STOP's. -/
theorem onlyAStopStoresInTheDevice : Obligations.OnlyAStopStoresInTheDevice := by
  intro s t a hwf hstep hne
  rcases step_next_cases hstep with ⟨rest, -, rfl⟩ | ⟨ws, ms, pcs, ⟨op, st, d, hop, ha⟩ | rfl | rfl | ⟨i, -, hx⟩⟩
  · exact absurd (by rw [powerCycle_mem]; rfl) hne
  · rcases envAnswer_cases ha with ⟨-, rfl⟩ | ⟨st', d', dev', rfl, henv, -, hans⟩
    · exact absurd (by simp [counted]) hne
    · rcases deviceAnswer_mem hans with ⟨hmem, -⟩ | ⟨rfl, v, hsel, hmem⟩
      · exact absurd (by simp [hmem, counted]) hne
      · replace hmem : (finishOp .opStop st' d' (setDev dev' (counted ws ms pcs s))).dev.mem =
          s.dev.mem.write s.dev.ptr.toNat v := hmem
        rw [hmem] at hne ⊢
        have ha : a = s.dev.ptr.toNat := by
          by_contra hother
          exact hne (Memory.read_write_other v hother)
        subst ha
        exact ⟨henv, hop, rfl, by rw [Memory.read_write_same hwf]; exact hsel⟩
  · exact absurd rfl hne
  · exact absurd rfl hne
  · obtain ⟨-, -, -, hdev, -⟩ := exec_frame hx
    exact absurd (by rw [hdev]; rfl) hne

/-! ### The spin that nothing answers (R63, R121, R172) -/

/-- An operation in flight belongs to a primitive that the running command calls, and that waits at its spin. -/
theorem MachineInv.waits {s : State} {op : BusOp} (h : MachineInv s) (hi : s.inflight = some op) :
    ∃ i k p a b next u, s.txn = .run i k ∧ tableOf s.cfg i k = some (.call p a b next) ∧ s.eng = .exec p u ∧
      ¬SpinPast p u s ∧ opFits p op = true := by
  obtain ⟨-, -, p, u, he, hfits⟩ := h.flight.1 op hi
  have hseq := h.seq
  cases ht : s.txn with
  | idle => simp [hseq.eng_of_idle ht] at he
  | run i k =>
    obtain ⟨-, ⟨a, b, next, ha⟩, -⟩ : _ ∧ (∃ a b next, tableOf s.cfg i k = some (.call p a b next)) ∧ _ := by
      simpa only [SeqInv, ht, he] using hseq
    refine ⟨i, k, p, a, b, next, u, rfl, ha, he, fun hpast => ?_, hfits⟩
    simp [h.flight.none_of_spinPast he hpast] at hi

/-- Settles O37: the operation in flight keeps its primitive at a spin, which repeats while the environment is quiet. -/
theorem spinHangsWithoutAnAnswer : Obligations.SpinHangsWithoutAnAnswer := by
  intro n s ms hinv hp hi hmoves
  obtain ⟨op, hop⟩ := Option.ne_none_iff_exists'.1 hi
  obtain ⟨i, k, p, a, b, next, u, ht, ha, he, hw, -⟩ := hinv.waits hop
  have hcalls : Calls i p next s := ⟨hp, k, a, b, ht, ha⟩
  exact hcalls.runs_quiet he hw hi hmoves

/-! ### Byte accesses (R51 to R58, R101) -/

/-- Where the byte image of a trigger has its four bits (R53). -/
theorem triggerImage_bits (sta sto ea : Bool) :
    (triggerImage sta sto ea).getLsbD 7 = true ∧ (triggerImage sta sto ea).getLsbD 6 = ea ∧
      (triggerImage sta sto ea).getLsbD 5 = sta ∧ (triggerImage sta sto ea).getLsbD 4 = sto ∧
      (triggerImage sta sto ea).extractLsb' 0 4 = 0 := by
  cases sta <;> cases sto <;> cases ea <;> decide

/-- Where the byte image of `CTRL` has its four flags (R23). -/
theorem ctrlImage_bits (c : Ctrl) :
    (ctrlImage c).getLsbD 7 = c.tc ∧ (ctrlImage c).getLsbD 4 = c.sto ∧ (ctrlImage c).getLsbD 6 = c.ea ∧
      (ctrlImage c).getLsbD 5 = c.sta ∧ (ctrlImage c).extractLsb' 0 4 = 0 := by
  obtain ⟨tc, ea, sta, sto⟩ := c
  cases tc <;> cases ea <;> cases sta <;> cases sto <;> decide

theorem memWrite_triggerImage {sta sto : Bool} (h : (sta && sto) = false) (p : Prim) (ea : Bool) (s : State) :
    memWrite p 2 (triggerImage sta sto ea) s = trigger p sta sto ea s := by
  obtain ⟨h7, h6, h5, h4, hlow⟩ := triggerImage_bits sta sto ea
  simp only [memWrite, h7, h6, h5, h4, hlow, h]
  rfl

theorem memWrite_reserved_image {v : Byte}
    (h : v.getLsbD 7 = false ∨ (v.getLsbD 5 = true ∧ v.getLsbD 4 = true) ∨ v.extractLsb' 0 4 ≠ 0) (p : Prim)
    (s : State) : memWrite p 2 v s = .refused (.reservedAccess 2) := by
  rw [memWrite, if_neg]
  rcases h with h7 | ⟨h5, h4⟩ | hlow
  · simp only [h7, Bool.false_and, Bool.false_eq_true, not_false_eq_true]
  · simp [h5, h4]
  · simp only [hlow, decide_false, Bool.and_false, Bool.false_and, Bool.false_eq_true, not_false_eq_true]

theorem memRead_reserved {off : Nat} (h : off < 2 ∨ 5 ≤ off) (s : State) :
    memRead off s = .error (.reservedAccess off) := by
  rcases off with _ | _ | _ | _ | _ | off
  · rfl
  · rfl
  · omega
  · omega
  · omega
  · rfl

theorem memWrite_reserved {off : Nat} (h : 5 ≤ off) (p : Prim) (v : Byte) (s : State) :
    memWrite p off v s = .refused (.reservedAccess off) := by
  rcases off with _ | _ | _ | _ | _ | off
  · omega
  · omega
  · omega
  · omega
  · omega
  · rfl

/-- Settles O45: each offset's access, read off `memRead` and `memWrite`. -/
theorem registerOperationsAreByteAccesses : Obligations.RegisterOperationsAreByteAccesses := by
  refine ⟨fun _ _ _ => rfl, fun _ _ _ => rfl, fun p sta sto ea s h => memWrite_triggerImage h p ea s,
    fun s => ⟨ctrlImage s.ctrl, rfl, ctrlImage_bits s.ctrl⟩, fun s hi => by simp [memRead, hi], fun _ => rfl,
    fun p v s h => memWrite_reserved_image h p s, fun p v s hv => if_neg hv, fun _ _ _ => rfl,
    fun off s h => memRead_reserved h s, fun p off v s h => memWrite_reserved h p v s⟩

end Sys2Proof.Machine
end

section
/-!
PROOFS. The reference environment completes what it owes (spec 20_memory.md R63, R81, R82): a spin against it, whatever
moves are listed and whether its write cycle ends meanwhile, up to the answer.
-/

namespace Sys2Proof.Machine

/-! ### Turns that the environment does not answer in (R81, R121) -/

/-- `dev'` is the device `dev`, its write cycle ended or not. -/
def MayEndCycle (dev dev' : Device) : Prop :=
  dev' = dev ∨ dev' = { dev with busy := false }

theorem MayEndCycle.refl (dev : Device) : MayEndCycle dev dev := .inl rfl

theorem MayEndCycle.trans {dev dev' dev'' : Device} (h : MayEndCycle dev dev') (h' : MayEndCycle dev' dev'') :
    MayEndCycle dev dev'' := by
  rcases h with rfl | rfl
  · exact h'
  · rcases h' with rfl | rfl <;> exact .inr rfl

theorem MayEndCycle.sel {dev dev' : Device} (h : MayEndCycle dev dev') : dev'.sel = dev.sel := by
  rcases h with rfl | rfl <;> rfl

theorem MayEndCycle.mem {dev dev' : Device} (h : MayEndCycle dev dev') : dev'.mem = dev.mem := by
  rcases h with rfl | rfl <;> rfl

theorem MayEndCycle.ptr {dev dev' : Device} (h : MayEndCycle dev dev') : dev'.ptr = dev.ptr := by
  rcases h with rfl | rfl <;> rfl

theorem MayEndCycle.idle {dev dev' : Device} (h : MayEndCycle dev dev') (hb : dev.busy = false) :
    dev'.busy = false := by
  rcases h with rfl | rfl
  · exact hb
  · rfl

/-- `s` after `n` steps in which only time has passed, listed moves were used up and the device's write cycle may have
ended. -/
def waited (n : Nat) (ms : List EnvMove) (dev : Device) (s : State) : State :=
  { s with dev := dev, moves := ms, tick := s.tick + n }

theorem runs_one_eq (s : State) : runs 1 s = step s := by
  cases hs : step s with
  | next t => exact runs_one hs
  | fault e =>
    simp only [runs, Host.Core.run, show Sys2Proof.core.step s = .fault e from hs]
    rfl
  | refused r =>
    simp only [runs, Host.Core.run, show Sys2Proof.core.step s = .refused r from hs]
    rfl

section

variable {i : Instr} {p : Prim} {next : Option Nat} {s : State} {u : Nat} {m : Micro} {op : BusOp}

/-- The environment ends its device's write cycle, at a spin. -/
theorem step_endsCycle (hp : s.powerCycles = []) (hs : atSpin s = true) (hb : deviceBusy s = true)
    (hm : nextMove (ticked s) = .writeCycleDone) :
    step s = .next (waited 1 s.moves.tail { s.dev with busy := false } s) := by
  have hturn : envTurn (ticked s) = true := by
    have hspin : atSpin (ticked s) = true := hs
    have hbusy : deviceBusy (ticked s) = true := hb
    simp [envTurn, envEnabled, hspin, hbusy]
  have hbusy : deviceBusy (dropMove (ticked s)) = true := hb
  have hstep : step s = .next (writeCycleDone (dropMove (ticked s))) := by
    simp [step, stepWith, hp, turn, hturn, hm, envMove, hbusy]
  exact hstep

/-- A move that the environment cannot take leaves a micro-step to the block. -/
theorem Calls.step_untaken (h : Calls i p next s) (he : s.eng = .exec p u) (hm : (microSteps p)[u]? = some m)
    (hturn : envTurn s = true) (hnone : envMove (nextMove (ticked s)) (dropMove (ticked s)) = none) :
    step s = runMicro m p u (leaveTo i next) (waited 1 s.moves.tail s.dev s) := by
  obtain ⟨k, a, b, ht, ha⟩ := h.call
  have hturn' : envTurn (ticked s) = true := hturn
  have hblock : step s = exec i (dropMove (ticked s)) := by
    simp [step, stepWith, h.powerCycles, turn, hturn', hnone, blockTurn, ht]
  exact hblock.trans (exec_micro (s := dropMove (ticked s)) ht ha he hm)

/-- A waiting spin whose turn brings no answer: only time passes, or the write cycle ends. -/
theorem Calls.step_waits (h : Calls i p next s) (he : s.eng = .exec p u) (hw : ¬SpinPast p u s)
    (hi : s.inflight ≠ none) (hno : ∀ st d, nextMove (ticked s) ≠ .answer st d) :
    ∃ dev', MayEndCycle s.dev dev' ∧ (nextMove (ticked s) = .writeCycleDone → s.env = .reference → dev'.busy = false) ∧
      step s = .next (waited 1 s.moves.tail dev' s) := by
  have hspin := atSpin_of_waits he hw
  have hturn : envTurn s = true := by simp [envTurn, envEnabled, hspin, Option.isSome_iff_ne_none.2 hi]
  obtain ⟨m, hm, -, hrepeats⟩ := exists_spin_of_waits (s := waited 1 s.moves.tail s.dev s) hw
  have hpasses (hnone : envMove (nextMove (ticked s)) (dropMove (ticked s)) = none) :
      step s = .next (waited 1 s.moves.tail s.dev s) :=
    (h.step_untaken he hm hturn hnone).trans (hrepeats _)
  cases hmove : nextMove (ticked s) with
  | answer st d => exact absurd hmove (hno st d)
  | quiet => exact ⟨s.dev, .refl _, by simp, hpasses (by rw [hmove]; rfl)⟩
  | writeCycleDone =>
    cases hb : deviceBusy s with
    | true => exact ⟨_, .inr rfl, fun _ _ => rfl, step_endsCycle h.powerCycles hspin hb hmove⟩
    | false =>
      have hb' : deviceBusy (dropMove (ticked s)) = false := hb
      exact ⟨s.dev, .refl _, fun _ henv => by simpa [deviceBusy, henv] using hb,
        hpasses (by simp [hmove, envMove, hb'])⟩

/-- With nothing in flight the block takes its next micro-step, after at most one step in which a write cycle ends. -/
theorem Calls.runs_micro (h : Calls i p next s) (he : s.eng = .exec p u) (hm : (microSteps p)[u]? = some m)
    (hi : s.inflight = none) :
    ∃ n ms dev', MayEndCycle s.dev dev' ∧ runs n s = runMicro m p u (leaveTo i next) (waited n ms dev' s) := by
  cases hturn : envTurn s with
  | false =>
    obtain ⟨k, a, b, ht, ha⟩ := h.call
    exact ⟨1, s.moves, s.dev, .refl _, (runs_one_eq s).trans (step_micro h.powerCycles ht ha he hm hturn)⟩
  | true =>
    by_cases hdone : nextMove (ticked s) = .writeCycleDone ∧ deviceBusy s = true
    · obtain ⟨hmove, hb⟩ := hdone
      have hspin : atSpin s = true := by
        obtain ⟨k, a, b, ht, -⟩ := h.call
        simpa [envTurn, waiting, ht, envEnabled, hb] using hturn
      let t := waited 1 s.moves.tail { s.dev with busy := false } s
      obtain ⟨k, a, b, ht, ha⟩ := h.call
      have hsettled : envTurn t = false := envTurn_settled hi (by simp [deviceBusy, t, waited])
      refine ⟨2, s.moves.tail, { s.dev with busy := false }, .inr rfl, ?_⟩
      rw [runs_next (step_endsCycle h.powerCycles hspin hb hmove), runs_one_eq,
        step_micro (s := t) h.powerCycles ht ha he hm hsettled]
      rfl
    · refine ⟨1, s.moves.tail, s.dev, .refl _, (runs_one_eq s).trans (h.step_untaken he hm hturn ?_)⟩
      cases hmove : nextMove (ticked s) with
      | quiet => rfl
      | answer st d => simp [envMove, hi]
      | writeCycleDone =>
        have hb : deviceBusy (dropMove (ticked s)) = false := by
          have hb : deviceBusy s = false := by simpa [hmove] using hdone
          exact hb
        simp [envMove, hb]

/-! ### The wait for the answer (R82) -/

/-- With no move listed and the device not busy, the next move of the reference environment is its answer. -/
theorem nextMove_answers (hmoves : s.moves = []) (henv : s.env = .reference) (hph : s.phase ≠ .undefined)
    (hi : s.inflight = some op) :
    (∃ st d, nextMove (ticked s) = .answer st d) ∨
      (s.dev.busy = true ∧ nextMove (ticked s) = .writeCycleDone) := by
  have howes : owesAnswer (ticked s) = true := by simp [owesAnswer, henv, hph, hi]
  simpa [nextMove, hmoves] using unlistedMove_cases howes

/-- In contract the reference environment comes to its answer, whatever moves are listed. -/
theorem Calls.runs_toAnswer (h : Calls i p next s) (he : s.eng = .exec p u) (hw : ¬SpinPast p u s)
    (hi : s.inflight = some op) (henv : s.env = .reference) (hph : s.phase ≠ .undefined) :
    ∃ n ms dev' st d, MayEndCycle s.dev dev' ∧ runs n s = .next (waited n ms dev' s) ∧
      nextMove (ticked (waited n ms dev' s)) = .answer st d := by
  have hstay {st d : Byte} (hnext : nextMove (ticked s) = .answer st d) :
      ∃ n ms dev' st d, MayEndCycle s.dev dev' ∧ runs n s = .next (waited n ms dev' s) ∧
        nextMove (ticked (waited n ms dev' s)) = .answer st d :=
    ⟨0, s.moves, s.dev, st, d, .refl _, rfl, hnext⟩
  induction hmoves : s.moves generalizing s with
  | nil =>
    rcases nextMove_answers hmoves henv hph hi with ⟨st, d, hnext⟩ | ⟨-, hnext⟩
    · exact hstay hnext
    · obtain ⟨dev', hdev, hdone, hstep⟩ := h.step_waits he hw (by simp [hi]) (by simp [hnext])
      have hidle : dev'.busy = false := hdone hnext henv
      let t := waited 1 s.moves.tail dev' s
      rcases nextMove_answers (s := t) (by simp [t, waited, hmoves]) henv hph hi with ⟨st, d, hnext'⟩ | ⟨hb, -⟩
      · exact ⟨1, s.moves.tail, dev', st, d, hdev, runs_one hstep, hnext'⟩
      · simp [t, waited, hidle] at hb
  | cons m ms ih =>
    have hnext : nextMove (ticked s) = m := by simp [nextMove, hmoves]
    by_cases hanswer : ∃ st d, m = .answer st d
    · obtain ⟨st, d, rfl⟩ := hanswer
      exact hstay hnext
    · obtain ⟨dev', hdev, -, hstep⟩ := h.step_waits he hw (by simp [hi])
        fun st d hm => hanswer ⟨st, d, hnext.symm.trans hm⟩
      let t := waited 1 s.moves.tail dev' s
      obtain ⟨n, ms', dev'', st, d, hdev', hrun, hnext'⟩ := ih (s := t) ⟨h.powerCycles, h.call⟩ he hw hi henv hph
        (fun hn => ⟨0, t.moves, t.dev, _, _, .refl _, rfl, hn⟩) (by simp [t, waited, hmoves])
      have hsum : waited n ms' dev'' t = waited (n + 1) ms' dev'' s := by
        simp [t, waited, Nat.add_assoc, Nat.add_comm 1]
      exact ⟨n + 1, ms', dev'', st, d, hdev.trans hdev', by rw [runs_next hstep, hrun, hsum], hsum ▸ hnext'⟩

end

end Sys2Proof.Machine
end

section
/-!
PROOFS. The reference environment conforms and is live (spec 20_memory.md R63, R64, R77 to R82): it completes or, as a
page write, refuses what is in flight; and while it serves a host that is confined to the public interface (R156) no page
write comes to it, and every status is legal.
-/

namespace Sys2Proof.Machine

/-! ### The answer as a step (R61, R62, R79) -/

/-- The reference environment's answer in contract completes the operation, but for a page write. -/
theorem step_completes_or_refuses {s : State} {op : BusOp} {st d : Byte} (hp : s.powerCycles = [])
    (hi : s.inflight = some op) (hs : atSpin s = true) (henv : s.env = .reference) (hph : s.phase ≠ .undefined)
    (hm : nextMove (ticked s) = .answer st d) :
    (∃ t, Completes s t op) ∨ (step s = .refused .pageWrite ∧ ∃ b v, op = .opData b ∧ s.dev.sel = .wPending v) := by
  have hstep := step_nextMove hp hi hs hm
  cases hans : deviceAnswer s.cfg.device s.phase op st d (Config.freeByte (s.tick + 1) .ptr) s.dev with
  | ok r =>
    obtain ⟨st', d', dev'⟩ := r
    rw [envAnswer_reference (s := dropMove (ticked s)) henv hph hans] at hstep
    exact .inl ⟨_, hstep, hi, by simp, by simp [hp]⟩
  | error r =>
    obtain rfl := deviceAnswer_error hans
    refine .inr ⟨?_, deviceAnswer_error_iff.1 ⟨_, hans⟩⟩
    rw [hstep, envAnswer]
    simp [henv, hph, hans]

/-- The reference environment comes to complete every operation in contract, or to refuse it as a page write. -/
theorem MachineInv.runs_completes_or_refuses {s : State} {op : BusOp} (h : MachineInv s) (henv : s.env = .reference)
    (hph : s.phase ≠ .undefined) (hp : s.powerCycles = []) (hi : s.inflight = some op) :
    ∃ n u, runs n s = .next u ∧ u.inflight = some op ∧ ((∃ t, Completes u t op) ∨
      (step u = .refused .pageWrite ∧ ∃ b v, op = .opData b ∧ u.dev.sel = .wPending v)) := by
  obtain ⟨i, k, p, a, b, next, u, ht, ha, he, hw, -⟩ := h.waits hi
  have hcalls : Calls i p next s := ⟨hp, k, a, b, ht, ha⟩
  obtain ⟨n, ms, dev', st, d, -, hrun, hnext⟩ := hcalls.runs_toAnswer he hw hi henv hph
  exact ⟨n, _, hrun, hi, step_completes_or_refuses hp hi (atSpin_of_waits he hw) henv hph hnext⟩

theorem exec_inflight {i : Instr} {s t : State} {op : BusOp} (hs : s.inflight = some op) (h : exec i s = .next t) :
    t.inflight = some op := by
  rcases exec_cases h with ⟨-, rfl⟩ | ⟨j, k, -, -, rfl⟩ | ⟨k, act, -, -, -, rfl⟩ |
    ⟨k, p, a, b, next, u, m, -, -, -, -, hrun⟩
  · unfold onAccept
    split <;> simp [hs]
  · exact hs
  · cases act <;> simp [startAction, hs]
  · exact runMicro_inflight hs hrun

/-- What completes an operation is an answer of the environment. -/
theorem Completes.answered {u t : State} {op : BusOp} (h : Completes u t op) :
    ∃ ws ms pcs st d, envAnswer op st d (counted ws ms pcs u) = .next t := by
  obtain ⟨hstep, hi, hnone, hp⟩ := h
  rcases step_next_cases hstep with ⟨rest, h0, -⟩ | ⟨ws, ms, pcs, ⟨op', st, d, hop, ha⟩ | rfl | rfl | ⟨i, -, hx⟩⟩
  · exact absurd h0 (hp rest)
  · obtain rfl : op = op' := Option.some.inj (hi.symm.trans hop)
    exact ⟨ws, ms, pcs, st, d, ha⟩
  · simp [counted, hi] at hnone
  · simp [counted, hi] at hnone
  · have hstill := exec_inflight (s := counted ws ms pcs u) hi hx
    simp [hnone] at hstill

/-! ### What a public transaction has done to the device's selection (R76 to R81, R151, R152) -/

/-- The operation of the primitive that the engine runs is completed. -/
def OpDone (s : State) : Prop :=
  s.inflight = none ∧ ∃ p u, s.eng = .exec p u ∧ spinAt p ≤ u

/-- The device's selection once `c` of a transaction's operations are completed, as far as it matters to a data byte:
after the START none, after the address byte none or addressed, after the first data byte none or with its pointer
loaded. -/
def SelAfter (c : Nat) (sel : Sel) : Prop :=
  (c = 1 → sel = .none) ∧ (c = 2 → sel = .none ∨ sel = .wAddr) ∧ (c = 3 → sel = .none ∨ sel = .wData)

/-- A transaction that sends data bytes. -/
def SendsData (i : Instr) : Prop :=
  (∃ o v, i = .eeWrite o v) ∨ ∃ o, i = .eeRead o

/-- While a transaction that sends data bytes runs, the device's selection is as its completed operations left it. -/
def SelKept (s : State) : Prop :=
  ∀ i k, s.txn = .run i k → SendsData i →
    (¬OpDone s → SelAfter k s.dev.sel) ∧ (OpDone s → SelAfter (k + 1) s.dev.sel)

/-- The address byte that is sent has the direction of the walk, from its write to `DATA` on. -/
def AddrSent (s : State) : Prop :=
  ∀ i k, s.txn = .run i k →
    (s.eng = .exec .txAddr 2 → ∃ b, s.data = .put b ∧ byteDir b = walkDir k) ∧
    (∀ b, s.inflight = some (.opAddr b) → byteDir b = walkDir k)

theorem not_opDone_of_eng_idle {s : State} (he : s.eng = .idle) : ¬OpDone s := by
  rintro ⟨-, p, u, hpu, -⟩
  simp [he] at hpu

theorem not_opDone_of_inflight {s : State} {op : BusOp} (hi : s.inflight = some op) : ¬OpDone s := by
  rintro ⟨hnone, -⟩
  simp [hi] at hnone

theorem opDone_iff {s : State} {p : Prim} {u : Nat} (he : s.eng = .exec p u) (hi : s.inflight = none) :
    OpDone s ↔ spinAt p ≤ u := by
  simp [OpDone, hi, he]

/-- A transaction that sends data goes through its table step by step, each but the last a call of a bus primitive. -/
theorem tableOf_sendsData {cfg : Config} {i : Instr} {k : Nat} {act : Action} (hi : SendsData i)
    (ha : tableOf cfg i k = some act) :
    act = .ret ∨ ∃ p a b, act = .call p a b (some (k + 1)) ∧ isBusPrim p = true := by
  have hk : k < tableLength i := (tableOf_ne_none_iff (cfg := cfg)).1 (by simp [ha])
  rcases hi with ⟨o, v, rfl⟩ | ⟨o, rfl⟩ <;> simp only [tableLength] at hk <;> interval_cases k <;>
    obtain rfl := Option.some.inj ha <;> simp [callAddr, isBusPrim]

/-- The primitives of its first four steps, but for the last of `EE_READ`'s (R151, R152). -/
theorem tableOf_sendsData_prim {cfg : Config} {i : Instr} {k : Nat} {p : Prim} {a b : Option Byte} {next : Option Nat}
    (hi : SendsData i) (ha : tableOf cfg i k = some (.call p a b next)) :
    (k = 0 → p = .start) ∧ (k = 1 → p = .txAddr) ∧ (k = 2 → p = .txByte) ∧ (p = .txByte → k = 2 ∨ k = 3) := by
  have hk : k < tableLength i := (tableOf_ne_none_iff (cfg := cfg)).1 (by simp [ha])
  rcases hi with ⟨o, v, rfl⟩ | ⟨o, rfl⟩ <;> simp only [tableLength] at hk <;> interval_cases k <;>
    cases Option.some.inj ha <;> simp

/-- The trigger stands right before the spin. -/
theorem spinAt_trigger {p : Prim} {u : Nat} {sta sto ea : Bool} (hm : (microSteps p)[u]? = some (.trigger sta sto ea)) :
    u + 1 = spinAt p := by
  cases p <;> rcases u with _ | _ | _ | _ | _ | u <;> simp_all [microSteps, spinAt]

/-- Before the spin's place stands a trigger. -/
theorem trigger_of_spinAt {p : Prim} {u : Nat} (hp : isBusPrim p = true) (hu : u + 1 = spinAt p) :
    ∃ sta sto ea, (microSteps p)[u]? = some (.trigger sta sto ea) := by
  cases p <;> simp_all [isBusPrim, spinAt, microSteps]

theorem spinAt_of_spin {p : Prim} {u : Nat}
    (hm : (microSteps p)[u]? = some .spinTC ∨ (microSteps p)[u]? = some .spinStop) : u = spinAt p := by
  cases p <;> rcases u with _ | _ | _ | _ | _ | u <;> simp_all [microSteps, spinAt]

/-- A bus primitive returns behind its spin. -/
theorem spinAt_le_of_last {p : Prim} {u : Nat} {m : Micro} (hp : isBusPrim p = true) (hm : (microSteps p)[u]? = some m)
    (hlast : m = .markInited ∨ m = .decode ∨ m = .ret) : spinAt p ≤ u := by
  obtain rfl | rfl | rfl := hlast <;> cases p <;> rcases u with _ | _ | _ | _ | _ | _ | u <;>
    simp_all [isBusPrim, microSteps, spinAt]

theorem runMicro_trigger_inflight {p : Prim} {u : Nat} {sta sto ea : Bool} {leave : State → State} {s t : State}
    (h : runMicro (.trigger sta sto ea) p u leave s = .next t) : t.inflight ≠ none := by
  obtain ⟨r, hr, hadv⟩ := andThen_next.1 h
  obtain ⟨op, -, -, -, rfl⟩ := trigger_next.1 hr
  obtain rfl := next_inj hadv
  simp

/-- A micro-step that leaves the engine idle is the one that its primitive returns from. -/
theorem runMicro_last {m : Micro} {p : Prim} {u : Nat} {leave : State → State} {s t : State}
    (h : runMicro m p u leave s = .next t) (hs : s.eng = .exec p u) (ht : t.eng = .idle) :
    m = .markInited ∨ m = .decode ∨ m = .ret := by
  rcases runMicro_cases h with ⟨-, rfl⟩ | ⟨-, rfl⟩ | ⟨rfl, -⟩ | ⟨-, -, rfl⟩ | ⟨-, -, rfl⟩ |
    ⟨sta, sto, ea, op, -, -, -, rfl⟩ | ⟨-, -, rfl⟩ | ⟨-, -, rfl⟩ | ⟨-, -, rfl⟩ | ⟨-, -, rfl⟩ | ⟨-, -, rfl⟩ | ⟨rfl, -⟩ |
    ⟨rfl, -⟩
  case inr.inr.inl | inr.inr.inr.inr.inr.inr.inr.inr.inr.inr.inr.inl | inr.inr.inr.inr.inr.inr.inr.inr.inr.inr.inr.inr =>
    simp
  all_goals simp [hs] at ht

section

variable {s t : State}

theorem SelKept.of_idle (ht : t.txn = .idle) : SelKept t := by
  simp [SelKept, ht]

/-- The condition looks at the sequencers, at whether something is in flight, and at the device's selection. -/
theorem SelKept.of_same (h : SelKept s) (htxn : t.txn = s.txn) (heng : t.eng = s.eng) (hi : t.inflight = s.inflight)
    (hsel : t.dev.sel = s.dev.sel) : SelKept t := by
  have hdone : OpDone t ↔ OpDone s := by rw [OpDone, OpDone, heng, hi]
  intro i k ht
  rw [hdone, hsel]
  exact h i k (htxn ▸ ht)

theorem SelKept.of_startAction {i : Instr} {k : Nat} {act : Action} (h : SelKept s) (hseq : s.txn = .run i k)
    (ha : tableOf s.cfg i k = some act) (he : s.eng = .idle) : SelKept (startAction i act s) := by
  by_cases hsend : SendsData i
  · rcases tableOf_sendsData hsend ha with rfl | ⟨p, a, b, rfl, hbus⟩
    · exact .of_idle rfl
    · have hnot : ¬OpDone (startAction i (.call p a b (some (k + 1))) s) := by
        rintro ⟨-, q, u, hq, hu⟩
        obtain ⟨rfl, rfl⟩ : p = q ∧ 0 = u := by simpa [startAction] using hq
        cases p <;> simp [spinAt] at hu
      intro j l hj hs
      obtain ⟨rfl, rfl⟩ : i = j ∧ k = l := by simpa [startAction, hseq] using hj
      exact ⟨fun _ => (h i k hseq hs).1 (not_opDone_of_eng_idle he), fun hd => absurd hd hnot⟩
  · intro j l hj hs
    have hji : j = i := by
      cases act with
      | call p a b next =>
        obtain ⟨rfl, -⟩ : i = j ∧ k = l := by simpa [startAction, hseq] using hj
        rfl
      | test exit again =>
        obtain ⟨n, -, htxn⟩ := probeTest_txn i exit again s
        obtain ⟨rfl, -⟩ : i = j ∧ n = l := by simpa [startAction, htxn] using hj
        rfl
      | jump n =>
        obtain ⟨rfl, -⟩ : i = j ∧ n = l := by simpa [startAction] using hj
        rfl
      | ret => simp [startAction] at hj
    exact absurd (hji ▸ hs) hsend

theorem SelKept.of_runMicro {i : Instr} {k u : Nat} {p : Prim} {a b : Option Byte} {next : Option Nat} {m : Micro}
    (h : SelKept s) (hf : FlightInv s) (ht : s.txn = .run i k) (ha : tableOf s.cfg i k = some (.call p a b next))
    (he : s.eng = .exec p u) (hm : (microSteps p)[u]? = some m) (hrun : runMicro m p u (leaveTo i next) s = .next t) :
    SelKept t := by
  obtain ⟨-, -, -, hdev, -⟩ := runMicro_frame hrun
  have hbus : SendsData i → next = some (k + 1) ∧ isBusPrim p = true := fun hs => by
    simpa using tableOf_sendsData hs ha
  cases runMicro_move hm hrun with
  | spins => exact h
  | @triggers sta sto ea op htrig hk =>
    intro j l hj hs
    obtain ⟨rfl, rfl⟩ : i = j ∧ k = l := by simpa [ht] using hj
    have hnot : ¬OpDone s := by
      rintro ⟨-, q, v, hq, hv⟩
      obtain ⟨rfl, rfl⟩ : p = q ∧ u = v := by simpa [he] using hq
      have := spinAt_trigger htrig
      omega
    exact ⟨fun _ => (h i k ht hs).1 hnot, fun hd => absurd hd (not_opDone_of_inflight rfl)⟩
  | goesOn past inflight ctrl txn eng lt noSpin =>
    have hi := hf.none_of_spinPast he past
    intro j l hj hs
    obtain ⟨rfl, rfl⟩ : i = j ∧ k = l := by simpa [txn, ht] using hj
    have hdone : OpDone t ↔ OpDone s := by
      rw [opDone_iff eng (inflight.trans hi), opDone_iff he hi]
      have hne : u + 1 ≠ spinAt p := fun hu => by
        obtain ⟨sta, sto, ea, htrig⟩ := trigger_of_spinAt (hbus hs).2 hu
        obtain rfl := Option.some.inj (hm.symm.trans htrig)
        exact runMicro_trigger_inflight hrun (inflight.trans hi)
      omega
    rw [hdone, hdev]
    exact h i k ht hs
  | returns past inflight ctrl txn eng =>
    have hi := hf.none_of_spinPast he past
    intro j l hj hs
    rw [txn] at hj
    refine ⟨fun _ => ?_, fun hd => absurd hd (not_opDone_of_eng_idle eng)⟩
    cases hn : next with
    | none => simp [hn] at hj
    | some n =>
      obtain ⟨rfl, rfl⟩ : i = j ∧ n = l := by simpa [hn] using hj
      obtain ⟨hnext, hp⟩ := hbus hs
      obtain rfl : n = k + 1 := by simpa [hn] using hnext
      rw [hdev]
      exact (h i k ht hs).2 ((opDone_iff he hi).2 (spinAt_le_of_last hp hm (runMicro_last hrun he eng)))

theorem SelKept.of_exec {i : Instr} (h : SelKept s) (hf : FlightInv s) (hseq : SeqInv s) (hx : exec i s = .next t) :
    SelKept t := by
  rcases exec_cases hx with ⟨ht, rfl⟩ | ⟨j, k, -, -, rfl⟩ | ⟨k, act, ht, ha, he, rfl⟩ |
    ⟨k, p, a, b, next, u, m, ht, ha, he, hm, hrun⟩
  · have he : (accept i (onAccept i s)).eng = .idle := by
      unfold onAccept
      split <;> exact hseq.eng_of_idle ht
    intro j l hj hs
    obtain ⟨rfl, rfl⟩ : i = j ∧ 0 = l := by simpa [accept] using hj
    exact ⟨fun _ => by simp [SelAfter], fun hd => absurd hd (not_opDone_of_eng_idle he)⟩
  · exact h
  · exact h.of_startAction ht ha he
  · exact h.of_runMicro hf ht ha he hm hrun

/-- The device's answer to a transaction's operation `k` leaves the selection as it should be after it. -/
theorem selAfter_deviceAnswer {cfg : Config} {i : Instr} {k : Nat} {p : Prim} {x y : Option Byte} {next : Option Nat}
    {a : Addr7} {ph : Phase} {op : BusOp} {st d z st' d' : Byte} {dev dev' : Device} (hs : SendsData i)
    (ha : tableOf cfg i k = some (.call p x y next)) (hfits : opFits p op = true)
    (haddr : ∀ b, op = .opAddr b → byteDir b = walkDir k) (hsel : SelAfter k dev.sel)
    (hans : deviceAnswer a ph op st d z dev = .ok (st', d', dev')) : SelAfter (k + 1) dev'.sel := by
  obtain ⟨h0, h1, h2, -⟩ := tableOf_sendsData_prim hs ha
  refine ⟨fun hk => ?_, fun hk => ?_, fun hk => ?_⟩
  · obtain rfl := h0 (by omega)
    obtain rfl : op = .opStart := by cases op <;> simp [opFits] at hfits ⊢
    cases hans
    rfl
  · obtain rfl : k = 1 := by omega
    obtain rfl := h1 rfl
    obtain ⟨b, rfl⟩ : ∃ b, op = .opAddr b := by cases op <;> simp [opFits] at hfits ⊢
    have hdir : byteDir b = .write := haddr b rfl
    rcases deviceAnswer_opAddr hans with ⟨-, -, -, rfl⟩ | ⟨-, -, rfl⟩ <;> simp [hdir]
  · obtain rfl : k = 2 := by omega
    obtain rfl := h2 rfl
    obtain ⟨b, rfl⟩ : ∃ b, op = .opData b := by cases op <;> simp [opFits] at hfits ⊢
    rcases hsel.2.1 rfl with hnone | hw
    · obtain ⟨-, -, rfl⟩ : _ ∧ _ ∧ dev = dev' := by simpa [deviceAnswer, hnone] using hans
      exact .inl hnone
    · obtain ⟨-, -, rfl⟩ : _ ∧ _ ∧ { dev with ptr := b, sel := .wData } = dev' := by simpa [deviceAnswer, hw] using hans
      exact .inr rfl

/-! ### The direction of the address byte (R95, R150) -/

theorem AddrSent.of_none (he : t.eng ≠ .exec .txAddr 2) (hi : t.inflight = none) : AddrSent t := by
  simp [AddrSent, he, hi]

theorem AddrSent.of_same (h : AddrSent s) (htxn : t.txn = s.txn) (heng : t.eng = s.eng) (hi : t.inflight = s.inflight)
    (hdata : t.data = s.data) : AddrSent t := by
  intro i k ht
  rw [heng, hi, hdata]
  exact h i k (htxn ▸ ht)

/-- At its second micro-step `TXADDR` writes the byte that it sends. -/
theorem AddrSent.of_runMicro {i : Instr} {k u : Nat} {p : Prim} {next : Option Nat} {m : Micro}
    (h : AddrSent s) (hpub : PublicInv s) (hf : FlightInv s) (ht : s.txn = .run i k) (he : s.eng = .exec p u)
    (hm : (microSteps p)[u]? = some m) (hrun : runMicro m p u (leaveTo i next) s = .next t) : AddrSent t := by
  cases runMicro_move hm hrun with
  | spins => exact h
  | @triggers sta sto ea op htrig hk =>
    intro j l hj
    obtain ⟨rfl, rfl⟩ : i = j ∧ k = l := by simpa [ht] using hj
    refine ⟨fun heng => ?_, fun b hb => ?_⟩
    · obtain ⟨rfl, rfl⟩ : p = .txAddr ∧ u = 1 := by simpa using heng
      simp [microSteps] at htrig
    · obtain rfl : op = .opAddr b := by simpa using hb
      obtain rfl : p = .txAddr := by cases p <;> simp [kindOf] at hk ⊢
      obtain rfl : u = 2 := by have := spinAt_trigger htrig; simpa [spinAt] using this
      obtain ⟨x, hx, hdir⟩ := (h i k ht).1 he
      obtain rfl : dataValue s = b := by simpa [kindOf] using hk
      rwa [dataValue_of_put hx]
  | goesOn past inflight ctrl txn eng lt noSpin =>
    have hi := inflight.trans (hf.none_of_spinPast he past)
    intro j l hj
    obtain ⟨rfl, rfl⟩ : i = j ∧ k = l := by simpa [txn, ht] using hj
    refine ⟨fun heng => ?_, by simp [hi]⟩
    obtain ⟨rfl, rfl⟩ : p = .txAddr ∧ u = 1 := by simpa [eng] using heng
    obtain rfl : m = .writeAddr := by simpa [microSteps, eq_comm] using hm
    obtain ⟨-, rfl⟩ : _ ∧ t = _ := by simpa using runMicro_cases hrun
    exact ⟨_, rfl, (addressBytePacksBoth _ _).2.1.trans (hpub.opDir_eq ht he)⟩
  | returns past inflight ctrl txn eng => exact .of_none (by simp [eng]) (inflight.trans (hf.none_of_spinPast he past))

theorem AddrSent.of_exec {i : Instr} (h : AddrSent s) (hpub : PublicInv s) (hinv : MachineInv s)
    (hx : exec i s = .next t) : AddrSent t := by
  have fromIdle (he : s.eng = .idle) : AddrSent t := by
    obtain ⟨⟨hi, -⟩, -, heng⟩ := exec_of_eng_idle he hx
    refine .of_none ?_ (hi.trans (hinv.flight.none_of_idle he))
    rcases heng with heng | ⟨p, heng⟩ <;> simp [heng]
  rcases exec_cases hx with ⟨ht, -⟩ | ⟨j, k, -, -, rfl⟩ | ⟨k, act, -, -, he, -⟩ |
    ⟨k, p, a, b, next, u, m, ht, ha, he, hm, hrun⟩
  · exact fromIdle (hinv.seq.eng_of_idle ht)
  · exact h
  · exact fromIdle he
  · exact h.of_runMicro hpub hinv.flight ht he hm hrun

end

/-! ### The reference device serves a public host (R156) -/

/-- A host that is confined to the public interface runs against the reference device. -/
structure Served (s : State) : Prop where
  hidden : s.cfg.exposePrimitives = false
  inv : MachineInv s
  pub : PublicInv s
  env : s.env = .reference
  sel : SelKept s
  addr : AddrSent s

section

variable {s t : State} {op : BusOp}

/-- Between commands nothing is asked of the device. -/
theorem Served.of_idle (hcfg : s.cfg.exposePrimitives = false) (hinv : MachineInv s) (hpub : PublicInv s)
    (henv : s.env = .reference) (ht : s.txn = .idle) : Served s :=
  ⟨hcfg, hinv, hpub, henv, .of_idle ht, by simp [AddrSent, ht]⟩

theorem Served.phase_defined (h : Served s) : s.phase ≠ .undefined :=
  fun hph => h.inv.marks.2.1 hph h.pub.noMark

/-- An operation in flight belongs to the step that the running command stands at, is in contract there, and finds the
device's selection as the operations before it left it. -/
theorem Served.inflight (h : Served s) (hi : s.inflight = some op) :
    ∃ i k p a b next q, s.txn = .run i k ∧ tableOf s.cfg i k = some (.call p a b next) ∧ opFits p op = true ∧
      (∃ u, s.eng = .exec p u ∧ u = spinAt p) ∧ phaseTable p (walkDir k) s.phase = some q ∧
      (SendsData i → SelAfter k s.dev.sel) := by
  obtain ⟨i, k, p, a, b, next, u, ht, ha, he, hw, hfits⟩ := h.inv.waits hi
  obtain ⟨⟨q, hq, -⟩, -⟩ := keepsWalk_of_table (h.pub.walkPhase_of_run ht) ha
  have hspin : u = spinAt p := spinAt_of_spin (by simpa [atSpin, he] using atSpin_of_waits he hw)
  exact ⟨i, k, p, a, b, next, q, ht, ha, hfits, ⟨u, he, hspin⟩, hq, fun hs => (h.sel i k ht hs).1 (not_opDone_of_inflight hi)⟩

/-- No data byte comes to a device that is addressed for read, or that has a value pending. -/
theorem Served.dataSel {b : Byte} (h : Served s) (hi : s.inflight = some (.opData b)) :
    s.dev.sel ≠ .reading ∧ ∀ v, s.dev.sel ≠ .wPending v := by
  obtain ⟨i, k, p, x, y, next, q, ht, ha, hfits, -, hq, hsel⟩ := h.inflight hi
  obtain rfl : p = .txByte := by cases p <;> simp [opFits] at hfits ⊢
  have hs : SendsData i := by
    have hk := walkPhase_lt (h.pub.walkPhase_of_run ht)
    cases i with
    | start | stop | txAddr _ _ | txByte _ | rxAck | rxNak | decode _ => simp [walkPhases] at hk
    | eeWrite o v => exact .inl ⟨o, v, rfl⟩
    | eeRead o => exact .inr ⟨o, rfl⟩
    | init =>
      obtain rfl : k = 0 := by simpa [walkPhases] using hk
      cases ha
    | eeWait =>
      simp only [walkPhases, List.length_cons, List.length_nil] at hk
      interval_cases k
      · cases ha
      · cases ha
      · cases ha
      · rw [eeWaitTable_loopBack] at ha
        cases hp : s.cfg.probeStop <;> simp [hp] at ha
      · rw [eeWaitTable_finish] at ha
        cases hp : s.cfg.waitFinalStop <;> simp [hp] at ha
  obtain ⟨-, h2, h3⟩ := hsel hs
  rcases (tableOf_sendsData_prim hs ha).2.2.2 rfl with hk | hk
  · rcases h2 hk with hsel | hsel <;> simp [hsel]
  · rcases h3 hk with hsel | hsel <;> simp [hsel]

/-- What the device's answer is, in contract. -/
theorem Served.answered {st d : Byte} (h : Served s) (ha : envAnswer op st d s = .next t) :
    ∃ st' d' dev', t = finishOp op st' d' (setDev dev' s) ∧
      deviceAnswer s.cfg.device s.phase op st d (Config.freeByte s.tick .ptr) s.dev = .ok (st', d', dev') := by
  rcases envAnswer_cases ha with ⟨harb | hund, -⟩ | ⟨st', d', dev', rfl, -, -, hans⟩
  · simp [h.env] at harb
  · exact absurd hund h.phase_defined
  · exact ⟨st', d', dev', rfl, hans⟩

theorem Served.sel_of_envAnswer {st d : Byte} (h : Served s) (hi : s.inflight = some op)
    (ha : envAnswer op st d s = .next t) : SelKept t := by
  obtain ⟨st', d', dev', rfl, hans⟩ := h.answered ha
  obtain ⟨i, k, p, x, y, next, q, ht, hcall, hfits, ⟨u, he, hu⟩, -, hsel⟩ := h.inflight hi
  intro j l hj hs
  obtain ⟨rfl, rfl⟩ : i = j ∧ k = l := by simpa [ht] using hj
  have hdone : OpDone (finishOp op st' d' (setDev dev' s)) :=
    (opDone_iff (by simpa using he) (by simp)).2 hu.ge
  refine ⟨fun hnot => absurd hdone hnot, fun _ => ?_⟩
  have hdir : ∀ b, op = .opAddr b → byteDir b = walkDir k := fun b hb => (h.addr i k ht).2 b (hb ▸ hi)
  simpa using selAfter_deviceAnswer hs hcall hfits hdir (hsel hs) hans

theorem Served.addr_of_envAnswer {st d : Byte} (h : Served s) (hi : s.inflight = some op)
    (ha : envAnswer op st d s = .next t) : AddrSent t := by
  obtain ⟨st', d', dev', rfl, -⟩ := h.answered ha
  obtain ⟨i, k, p, a, b, next, q, -, -, -, ⟨u, he, hu⟩, -⟩ := h.inflight hi
  refine .of_none (fun heng => ?_) (by simp)
  obtain ⟨rfl, rfl⟩ : p = .txAddr ∧ u = 2 := by simpa [he] using heng
  simp [spinAt] at hu

theorem Served.of_counted (h : Served s) (ws : List CmdWord) (ms : List EnvMove) (pcs : List Nat) :
    Served (counted ws ms pcs s) :=
  ⟨h.hidden, h.inv.of_counted ws ms pcs, h.pub.of_counted ws ms pcs, h.env, h.sel.of_same rfl rfl rfl rfl,
    h.addr.of_same rfl rfl rfl rfl⟩

/-- Every step of such a host's run, but a power cycle, serves it on. -/
theorem Served.of_step (h : Served s) (hp : ∀ rest, s.powerCycles ≠ 0 :: rest) (hstep : step s = .next t) :
    Served t := by
  have hcfg : t.cfg = s.cfg := configurationNeverChanges s t hstep
  suffices hrest : t.env = .reference ∧ SelKept t ∧ AddrSent t from
    ⟨hcfg ▸ h.hidden, invIsKeptByEveryStep s t h.inv hstep, publicCommandsKeepTheContract s t h.hidden h.pub hp hstep,
      hrest.1, hrest.2.1, hrest.2.2⟩
  rcases step_next_cases hstep with ⟨rest, h0, -⟩ | ⟨ws, ms, pcs, hact⟩
  · exact absurd h0 (hp rest)
  have hc := h.of_counted ws ms pcs
  rcases hact with ⟨op, st, d, hop, ha⟩ | rfl | rfl | ⟨i, -, hx⟩
  · refine ⟨?_, hc.sel_of_envAnswer hop ha, hc.addr_of_envAnswer hop ha⟩
    obtain ⟨st', d', dev', rfl, -⟩ := hc.answered ha
    simpa using hc.env
  · exact ⟨h.env, h.sel.of_same rfl rfl rfl rfl, h.addr.of_same rfl rfl rfl rfl⟩
  · exact ⟨hc.env, hc.sel, hc.addr⟩
  · obtain ⟨-, -, henv, -⟩ := exec_frame hx
    exact ⟨henv.trans hc.env, hc.sel.of_exec hc.inv.flight hc.inv.seq hx, hc.addr.of_exec hc.pub hc.inv hx⟩

theorem Served.of_runs {n : Nat} (h : Served s) (hp : s.powerCycles = []) (hrun : runs n s = .next t) : Served t := by
  induction n generalizing s with
  | zero => exact next_inj hrun ▸ h
  | succ n ih =>
    obtain ⟨u, hu, hrun⟩ := runs_succ.1 hrun
    exact ih (h.of_step (by simp [hp]) hu) (step_powerCycles hp hu) hrun

/-- A completion that the device gives such a host has a legal status. -/
theorem Served.legalStatus (h : Served s) (hc : Completes s t op) : legalStatus op s.phase t.status.val = true := by
  obtain ⟨ws, ms, pcs, st, d, ha⟩ := hc.answered
  obtain ⟨-, hi, -⟩ := hc
  obtain ⟨st', d', dev', rfl, hans⟩ := (h.of_counted ws ms pcs).answered ha
  obtain ⟨i, k, p, a, b, next, q, -, -, hfits, -, hq, -⟩ := h.inflight hi
  rw [finishOp_status]
  exact legalStatus_of_deviceAnswer hfits hq hans fun b hb => (h.dataSel (hb ▸ hi)).1

/-- The device completes every operation of such a host. -/
theorem Served.envLive (h : Served s) (hp : s.powerCycles = []) : EnvLive s := by
  intro n u op hrun hi
  have hu := h.of_runs hp hrun
  have hpu := runs_powerCycles hp hrun
  obtain ⟨m, v, hv, hiv, ⟨t, ht, -, hnone, -⟩ | ⟨-, b, x, rfl, hsel⟩⟩ :=
    hu.inv.runs_completes_or_refuses hu.env hu.phase_defined hpu hi
  · exact completes_within hpu ((runs_add hv).trans (runs_one ht)) hi hnone
  · exact absurd hsel (((hu.of_runs hpu hv).dataSel hiv).2 x)

end

/-- Settles O60: the wait for the answer, and the run of a public host, which brings no page write. -/
theorem referenceEnvironmentConformsAndIsLive : Obligations.ReferenceEnvironmentConformsAndIsLive := by
  refine ⟨fun s op hinv henv hph hp hi => ?_, fun s hcfg hinv hpub henv ht hp => ?_⟩
  · obtain ⟨n, u, hrun, -, hend⟩ := hinv.runs_completes_or_refuses henv hph hp hi
    exact ⟨n, u, hrun, hend⟩
  · have h : Served s := .of_idle hcfg hinv hpub henv ht
    exact ⟨fun n u t op hrun hc _ _ => (h.of_runs hp hrun).legalStatus hc, h.envLive hp⟩

end Sys2Proof.Machine
end

section
/-!
PROOFS. Runs under `ENV_LIVE` (spec 20_memory.md R63, 40_bus_engine.md R120, R121): whatever the environment answers, in
contract or not, a called primitive comes to its return, and so does every command whose table has no loop.
-/

namespace Sys2Proof.Machine

/-! ### The spins of a run (R24, R25, R121) -/

/-- An operation is in flight exactly while a primitive waits at its spin, and the primitive is the operation's own. Unlike
`FlightInv` this says nothing of flags that no spin looks at, so it holds of every idle block with nothing in flight. -/
structure SpinInv (s : State) : Prop where
  past : s.inflight = none → ∀ p u, s.eng = .exec p u → SpinPast p u s
  waits : ∀ op, s.inflight = some op → ∃ p u, s.eng = .exec p u ∧ opFits p op = true ∧ ¬SpinPast p u s

section

variable {s t : State} {p : Prim} {u : Nat} {op : BusOp}

theorem SpinInv.of_eng_idle (he : s.eng = .idle) (hi : s.inflight = none) : SpinInv s :=
  ⟨by simp [he], by simp [hi]⟩

theorem SpinInv.none_of_eng_idle (h : SpinInv s) (he : s.eng = .idle) : s.inflight = none := by
  by_contra hne
  obtain ⟨op, hop⟩ := Option.ne_none_iff_exists'.1 hne
  obtain ⟨p, u, hpu, -⟩ := h.waits op hop
  simp [he] at hpu

theorem SpinInv.none_of_spinPast (h : SpinInv s) (he : s.eng = .exec p u) (hpast : SpinPast p u s) :
    s.inflight = none := by
  by_contra hne
  obtain ⟨op, hop⟩ := Option.ne_none_iff_exists'.1 hne
  obtain ⟨q, v, hqv, -, hw⟩ := h.waits op hop
  obtain ⟨rfl, rfl⟩ : p = q ∧ u = v := by simpa [he] using hqv
  exact hw hpast

theorem SpinInv.waits_at (h : SpinInv s) (he : s.eng = .exec p u) (hi : s.inflight = some op) :
    opFits p op = true ∧ ¬SpinPast p u s := by
  obtain ⟨q, v, hqv, hfits, hw⟩ := h.waits op hi
  obtain ⟨rfl, rfl⟩ : p = q ∧ u = v := by simpa [he] using hqv
  exact ⟨hfits, hw⟩

theorem SpinInv.of_machineInv (h : MachineInv s) : SpinInv s where
  past hi p u he := by
    refine ⟨fun hm => h.flight.2.2 p u he hm hi, fun _ => h.flight.sto_of_none hi⟩
  waits op hi := by
    obtain ⟨i, k, p, a, b, next, u, -, -, he, hw, hfits⟩ := h.waits hi
    exact ⟨p, u, he, hfits, hw⟩

/-- The condition looks at the engine, the flags and the operation in flight. -/
theorem SpinInv.of_same (h : SpinInv s) (he : t.eng = s.eng) (hc : t.ctrl = s.ctrl) (hi : t.inflight = s.inflight) :
    SpinInv t := by
  obtain ⟨hpast, hwaits⟩ := h
  constructor
  · simpa [SpinPast, he, hc, hi] using hpast
  · simpa [SpinPast, he, hc, hi] using hwaits

/-- No primitive begins with a spin. -/
theorem spinPast_zero (p : Prim) (s : State) : SpinPast p 0 s := by
  cases p <;> simp [SpinPast, microSteps]

/-- A micro-step that is no spin has nothing to wait for. -/
theorem spinPast_of_ne_spinAt (hu : u ≠ spinAt p) (s : State) : SpinPast p u s :=
  ⟨fun hm => absurd (spinAt_of_spin (.inl hm)) hu, fun hm => absurd (spinAt_of_spin (.inr hm)) hu⟩

/-- The completion of a primitive's operation sets the flag that the primitive waits for (R61, R62). -/
theorem spinPast_of_finishOp (hfits : opFits p op = true) (u : Nat) (st d : Byte) (s : State) :
    SpinPast p u (finishOp op st d s) := by
  have hstop := opFits_stop hfits
  constructor
  · intro hm
    have hop : op ≠ .opStop := mt hstop.1 (microSteps_spinTC hm).1
    simp [hop]
  · intro hm
    simp [hstop.2 (microSteps_spinStop hm)]

theorem SpinInv.of_finishOp (h : SpinInv s) (hi : s.inflight = some op) (st d : Byte) : SpinInv (finishOp op st d s) := by
  refine ⟨fun _ p u he => ?_, by simp⟩
  obtain ⟨hfits, -⟩ := h.waits_at (p := p) (u := u) (by simpa using he) hi
  exact spinPast_of_finishOp hfits u st d s

theorem SpinInv.of_envAnswer {st d : Byte} (h : SpinInv s) (hi : s.inflight = some op)
    (ha : envAnswer op st d s = .next t) : SpinInv t := by
  obtain ⟨st', d', s', rfl, rfl | ⟨dev', rfl, -⟩⟩ := envAnswer_finishOp ha
  · exact (h.of_same (t := freeEnv s) rfl rfl rfl).of_finishOp hi st' d'
  · exact (h.of_same (t := setDev dev' s) rfl rfl rfl).of_finishOp hi st' d'

/-- The operation that a trigger starts keeps its primitive waiting (R53). -/
theorem triggered_waits {sta sto ea : Bool} (hm : (microSteps p)[u]? = some (.trigger sta sto ea)) (s : State) :
    ¬SpinPast p (u + 1) (advance p u (triggered op sta sto ea s)) := by
  obtain ⟨-, -, hsto, hspin⟩ := microSteps_trigger hm
  rintro ⟨hTC, hStop⟩
  rcases hspin with hm' | hm'
  · simpa [triggeredCtrl] using hTC hm'
  · simpa [triggeredCtrl, hsto.2 (microSteps_spinStop hm')] using hStop hm'

theorem SpinInv.of_runMicro {i : Instr} {next : Option Nat} {m : Micro} (h : SpinInv s) (he : s.eng = .exec p u)
    (hm : (microSteps p)[u]? = some m) (hrun : runMicro m p u (leaveTo i next) s = .next t) : SpinInv t := by
  cases runMicro_move hm hrun with
  | spins => exact h
  | triggers htrig hk =>
    refine ⟨by simp, fun op' hop => ⟨p, u + 1, rfl, ?_, triggered_waits htrig s⟩⟩
    obtain rfl : _ = op' := by simpa using hop
    exact opFits_of_kindOf hk
  | goesOn past inflight ctrl txn eng lt noSpin =>
    have hi := inflight.trans (h.none_of_spinPast he past)
    refine ⟨fun _ q v hqv => ?_, by simp [hi]⟩
    obtain ⟨rfl, rfl⟩ : p = q ∧ u + 1 = v := by simpa [eng] using hqv
    refine ⟨fun hspin => absurd hspin noSpin, fun hspin => ?_⟩
    obtain rfl := microSteps_spinStop hspin
    have hu : u + 1 = 2 := spinAt_of_spin (.inr hspin)
    obtain rfl : u = 1 := by omega
    obtain rfl : Micro.trigger false true false = m := Option.some.inj hm
    exact absurd hi (runMicro_trigger_inflight hrun)
  | returns past inflight ctrl txn eng => exact .of_eng_idle eng (inflight.trans (h.none_of_spinPast he past))

theorem SpinInv.of_exec {i : Instr} (h : SpinInv s) (hseq : SeqInv s) (hx : exec i s = .next t) : SpinInv t := by
  have fromIdle (he : s.eng = .idle) : SpinInv t := by
    obtain ⟨⟨hi, -⟩, -, heng⟩ := exec_of_eng_idle he hx
    have hnone := hi.trans (h.none_of_eng_idle he)
    refine ⟨fun _ p u hpu => ?_, by simp [hnone]⟩
    rcases heng with heng | ⟨q, heng⟩
    · simp [heng] at hpu
    · obtain ⟨rfl, rfl⟩ : q = p ∧ 0 = u := by simpa [heng] using hpu
      exact spinPast_zero q t
  rcases exec_cases hx with ⟨ht, -⟩ | ⟨j, k, -, -, rfl⟩ | ⟨k, act, -, -, he, -⟩ |
    ⟨k, p, a, b, next, u, m, -, -, he, hm, hrun⟩
  · exact fromIdle (hseq.eng_of_idle ht)
  · exact h
  · exact fromIdle he
  · exact h.of_runMicro he hm hrun

end

/-! ### A live run (R63) -/

/-- The run from `s` is live, and the block stands where its tables let it, with no power cycle to come. -/
structure Lively (s : State) : Prop where
  powerCycles : s.powerCycles = []
  seq : SeqInv s
  spin : SpinInv s
  live : EnvLive s

section

variable {s t : State}

theorem Lively.of_offers {i : Instr} {rest : List CmdWord} (h : Offers s i rest) (hl : EnvLive s) : Lively s :=
  ⟨h.powerCycles, .of_idle h.txn h.eng, .of_eng_idle h.eng h.inflight, hl⟩

theorem SeqInv.of_same (h : SeqInv s) (ht : t.txn = s.txn) (he : t.eng = s.eng) (hc : t.cfg = s.cfg) : SeqInv t := by
  rwa [SeqInv, ht, he, hc]

theorem Lively.of_step (h : Lively s) (hstep : step s = .next t) : Lively t := by
  suffices hinv : SeqInv t ∧ SpinInv t from
    ⟨step_powerCycles h.powerCycles hstep, hinv.1, hinv.2, EnvLive_of_runs h.live (runs_one hstep)⟩
  rcases step_next_cases hstep with ⟨rest, h0, -⟩ | ⟨ws, ms, pcs, ⟨op, st, d, hop, ha⟩ | rfl | rfl | ⟨i, hi, hx⟩⟩
  · simp [h.powerCycles] at h0
  · have hspin : SpinInv (counted ws ms pcs s) := h.spin.of_same rfl rfl rfl
    refine ⟨?_, hspin.of_envAnswer hop ha⟩
    obtain ⟨st', d', s', rfl, rfl | ⟨dev', rfl, -⟩⟩ := envAnswer_finishOp ha <;>
      exact h.seq.of_same (by simp [counted]) (by simp [counted]) (by simp [counted])
  · exact ⟨h.seq, h.spin.of_same rfl rfl rfl⟩
  · exact ⟨h.seq, h.spin.of_same rfl rfl rfl⟩
  · have hseq : SeqInv (counted ws ms pcs s) := h.seq
    have hspin : SpinInv (counted ws ms pcs s) := h.spin.of_same rfl rfl rfl
    exact ⟨hseq.of_exec hi hx, hspin.of_exec hseq hx⟩

theorem Lively.of_runs {n : Nat} (h : Lively s) (hrun : runs n s = .next t) : Lively t := by
  induction n generalizing s with
  | zero => exact next_inj hrun ▸ h
  | succ n ih =>
    obtain ⟨u, hu, hrun⟩ := runs_succ.1 hrun
    exact ih (h.of_step hu) hrun

theorem runs_cfg {n : Nat} (hrun : runs n s = .next t) : t.cfg = s.cfg := by
  induction n generalizing s with
  | zero => exact next_inj hrun ▸ rfl
  | succ n ih =>
    obtain ⟨u, hu, hrun⟩ := runs_succ.1 hrun
    exact (ih hrun).trans (configurationNeverChanges s u hu)

end

/-! ### A micro-step within a command -/

/-- Within a primitive a command's position, its flag and the host's side are as before. -/
structure InCommand (s t : State) : Prop where
  txn : t.txn = s.txn
  returns : t.returns = s.returns
  waitAcked : t.waitAcked = s.waitAcked

theorem InCommand.refl (s : State) : InCommand s s := ⟨rfl, rfl, rfl⟩

theorem InCommand.trans {s t u : State} (h : InCommand s t) (h' : InCommand t u) : InCommand s u :=
  ⟨h'.txn.trans h.txn, h'.returns.trans h.returns, h'.waitAcked.trans h.waitAcked⟩

/-- From `s` to `t` a micro-step numbered `u` of `p` stays within its primitive. -/
structure StaysIn (p : Prim) (u : Nat) (s t : State) : Prop where
  inCommand : InCommand s t
  status : t.status = s.status
  eng : SpinPast p u s → t.eng = .exec p (u + 1)
  inflight : spinAt p ≤ u → t.inflight = s.inflight

/-- A micro-step stays within its primitive, or is the last one, behind which the command goes on. -/
theorem runMicro_stays_or_leaves {m : Micro} {p : Prim} {u : Nat} {leave : State → State} {s t : State}
    (hm : (microSteps p)[u]? = some m) (h : runMicro m p u leave s = .next t) :
    StaysIn p u s t ∨ ∃ r, t = leave r ∧ InCommand s r ∧ r.status = s.status := by
  have hc := runMicro_cases h
  cases m with
  | markInited | decode =>
    obtain rfl : t = _ := by simpa using hc
    exact .inr ⟨_, rfl, ⟨rfl, rfl, rfl⟩, rfl⟩
  | ret =>
    obtain rfl : t = _ := by simpa using hc
    exact .inr ⟨_, rfl, ⟨by simp, by simp, by simp⟩, by simp⟩
  | contract | setClock =>
    obtain rfl : t = _ := by simpa using hc
    exact .inl ⟨⟨by simp, by simp, by simp⟩, by simp, fun _ => rfl, by simp⟩
  | writeAddr | writeData | readData =>
    obtain ⟨-, rfl⟩ : _ ∧ t = _ := by simpa using hc
    exact .inl ⟨⟨rfl, rfl, rfl⟩, rfl, fun _ => rfl, fun _ => rfl⟩
  | trigger sta sto ea =>
    obtain ⟨r, hr, hadv⟩ := andThen_next.1 h
    obtain ⟨op, -, -, -, rfl⟩ := trigger_next.1 hr
    obtain rfl := next_inj hadv
    have hu := spinAt_trigger hm
    exact .inl ⟨⟨rfl, rfl, rfl⟩, rfl, fun _ => rfl, fun hle => by omega⟩
  | spinTC =>
    obtain ⟨-, rfl⟩ | ⟨htc, rfl⟩ : (_ ∧ t = _) ∨ (_ ∧ t = s) := by simpa using hc
    · exact .inl ⟨⟨rfl, rfl, rfl⟩, rfl, fun _ => rfl, fun _ => rfl⟩
    · exact .inl ⟨.refl t, rfl, fun hpast => by simp [hpast.1 hm] at htc, fun _ => rfl⟩
  | spinStop =>
    obtain ⟨-, rfl⟩ | ⟨hsto, rfl⟩ : (_ ∧ t = _) ∨ (_ ∧ t = s) := by simpa using hc
    · exact .inl ⟨⟨rfl, rfl, rfl⟩, rfl, fun _ => rfl, fun _ => rfl⟩
    · exact .inl ⟨.refl t, rfl, fun hpast => by simp [hpast.2 hm] at hsto, fun _ => rfl⟩

/-- With nothing in flight every micro-step has a next state. -/
theorem runMicro_next_of_none {m : Micro} {p : Prim} {u : Nat} {leave : State → State} {s : State}
    (hm : (microSteps p)[u]? = some m) (hi : s.inflight = none) : ∃ t, runMicro m p u leave s = .next t := by
  cases m with
  | contract | setClock | markInited | spinTC | spinStop | decode | ret => exact ⟨_, rfl⟩
  | writeAddr | writeData => exact ⟨_, andThen_next.2 ⟨_, writeData_next.2 ⟨hi, rfl⟩, rfl⟩⟩
  | readData => exact ⟨_, runMicro_readData hi⟩
  | trigger sta sto ea =>
    obtain ⟨hbus, hflags, -, -⟩ := microSteps_trigger hm
    obtain ⟨op, hop⟩ := kindOf_of_isBusPrim (dataValue s) hbus
    exact ⟨_, runMicro_trigger hop hi hflags⟩

/-! ### A primitive comes to its return (R63, R120, R121) -/

section

variable {i : Instr} {p : Prim} {next : Option Nat} {s t : State} {u : Nat} {op : BusOp}

/-- While an operation is in flight the block stays at its spin. -/
theorem step_inFlight {k : Nat} (hp : s.powerCycles = []) (ht : s.txn = .run i k) (he : s.eng = .exec p u)
    (hw : ¬SpinPast p u s) (hstep : step s = .next t) :
    InCommand s t ∧ t.eng = s.eng := by
  rcases step_eq s with ⟨rest, h0, -⟩ | ⟨ms, pcs, ⟨op', st, d, -, hact⟩ | hact | hact⟩
  · simp [hp] at h0
  · obtain ⟨st', d', s', rfl, rfl | ⟨dev', rfl, -⟩⟩ := envAnswer_finishOp (hact.symm.trans hstep) <;>
      exact ⟨⟨by simp [counted], by simp [counted], by simp [counted]⟩, by simp [counted]⟩
  · obtain rfl := next_inj (hact.symm.trans hstep)
    exact ⟨⟨rfl, rfl, rfl⟩, rfl⟩
  · have hx : exec i (counted s.port ms pcs s) = .next t := by simpa [blockTurn, counted, ht] using hact.symm.trans hstep
    rcases exec_cases hx with ⟨ht', -⟩ | ⟨j, l, hj, hne, -⟩ | ⟨l, act, -, -, he', -⟩ |
      ⟨l, q, a, b, next, v, m, -, -, he', hm, hrun⟩
    · simp [counted, ht] at ht'
    · obtain ⟨rfl, -⟩ : i = j ∧ k = l := by simpa [counted, ht] using hj
      exact absurd rfl hne
    · simp [counted, he] at he'
    · obtain ⟨rfl, rfl⟩ : p = q ∧ u = v := by simpa [counted, he] using he'
      cases runMicro_move hm hrun with
      | spins => exact ⟨⟨rfl, rfl, rfl⟩, rfl⟩
      | triggers htrig hk =>
        have hu := spinAt_trigger htrig
        exact absurd (spinPast_of_ne_spinAt (by omega) s) hw
      | goesOn past => exact absurd past hw
      | returns past => exact absurd past hw

theorem runs_inFlight {n k : Nat} (hl : Lively s) (ht : s.txn = .run i k) (he : s.eng = .exec p u)
    (hrun : runs n s = .next t) (hstays : ∀ j w, j ≤ n → runs j s = .next w → w.inflight = some op) :
    InCommand s t ∧ t.eng = s.eng := by
  induction n generalizing s with
  | zero => exact next_inj hrun ▸ ⟨.refl s, rfl⟩
  | succ n ih =>
    obtain ⟨v, hv, hrun⟩ := runs_succ.1 hrun
    have hi : s.inflight = some op := hstays 0 s (by omega) rfl
    obtain ⟨hin, heng⟩ := step_inFlight hl.powerCycles ht he (hl.spin.waits_at he hi).2 hv
    obtain ⟨hin', heng'⟩ := ih (hl.of_step hv) (hin.txn.trans ht) (heng.trans he) hrun
      fun j w hj hw => hstays (j + 1) w (by omega) ((runs_next hv).trans hw)
    exact ⟨hin.trans hin', heng'.trans heng⟩

/-- Under `ENV_LIVE` the operation in flight is completed, with the block still at its spin. -/
theorem Lively.runs_completes {k : Nat} (hl : Lively s) (ht : s.txn = .run i k) (he : s.eng = .exec p u)
    (hi : s.inflight = some op) :
    ∃ n v t, runs n s = .next v ∧ Completes v t op ∧ InCommand s t ∧ t.eng = s.eng ∧ t.inflight = none := by
  obtain ⟨n, v, t, hv, hstays, hc⟩ := hl.live 0 s op rfl hi
  obtain ⟨hin, heng⟩ := runs_inFlight hl ht he hv hstays
  have hlv := hl.of_runs hv
  have hev := heng.trans he
  obtain ⟨hin', heng'⟩ :=
    step_inFlight hlv.powerCycles (hin.txn.trans ht) hev (hlv.spin.waits_at hev hc.2.1).2 hc.1
  exact ⟨n, v, t, hv, hc, hin.trans hin', heng'.trans heng, hc.2.2.1⟩

theorem Calls.of_inCommand (h : Calls i p next s) (hin : InCommand s t) (hc : t.cfg = s.cfg) (hl : Lively t) :
    Calls i p next t :=
  h.of_same (hl.powerCycles.trans h.powerCycles.symm) hin.txn hc

/-- Under `ENV_LIVE` a called primitive comes to its return, and behind its spin `STATUS` stays as it is. -/
theorem Calls.runs_live (h : Calls i p next s) (hl : Lively s) (he : s.eng = .exec p u) :
    ∃ n t, runs n s = .next (leaveTo i next t) ∧ InCommand s t ∧
      (s.inflight = none → spinAt p ≤ u → t.status = s.status) := by
  obtain ⟨c, hc⟩ : ∃ c, c + u = (microSteps p).length := by
    obtain ⟨k, a, b, ht, ha⟩ := h.call
    have hseq := hl.seq
    simp only [SeqInv, ht, he] at hseq
    exact ⟨_, Nat.sub_add_cancel hseq.2.2.le⟩
  induction c generalizing s u with
  | zero =>
    obtain ⟨k, a, b, ht, ha⟩ := h.call
    have hseq := hl.seq
    simp only [SeqInv, ht, he] at hseq
    omega
  | succ c ih =>
    have goesOn {s : State} (h : Calls i p next s) (hl : Lively s) (he : s.eng = .exec p u) (hi : s.inflight = none) :
        ∃ n t, runs n s = .next (leaveTo i next t) ∧ InCommand s t ∧ (spinAt p ≤ u → t.status = s.status) := by
      have hm : (microSteps p)[u]? = some (microSteps p)[u] := List.getElem?_eq_getElem (by omega)
      obtain ⟨n, ms, dev', -, hrun⟩ := h.runs_micro he hm hi
      obtain ⟨t, ht⟩ := runMicro_next_of_none (leave := leaveTo i next) (s := waited n ms dev' s) hm hi
      have hrun := hrun.trans ht
      have hlt := hl.of_runs hrun
      rcases runMicro_stays_or_leaves hm ht with hstays | ⟨r, rfl, hin, hst⟩
      · have hin : InCommand s t := ⟨hstays.inCommand.txn, hstays.inCommand.returns, hstays.inCommand.waitAcked⟩
        obtain ⟨n', r, hrun', hin', hst⟩ := ih (h.of_inCommand hin (runs_cfg hrun) hlt) hlt
          (hstays.eng (hl.spin.past hi p u he)) (by omega)
        refine ⟨n + n', r, (runs_add hrun).trans hrun', hin.trans hin', fun hu => ?_⟩
        exact (hst ((hstays.inflight hu).trans hi) (by omega)).trans hstays.status
      · exact ⟨n, r, hrun, ⟨hin.txn, hin.returns, hin.waitAcked⟩, fun _ => hst⟩
    cases hi : s.inflight with
    | none => simpa using goesOn h hl he hi
    | some op =>
      obtain ⟨k, a, b, ht, -⟩ := h.call
      obtain ⟨n, v, t, hv, hcomp, hin, heng, hnone⟩ := hl.runs_completes ht he hi
      have hrun := (runs_add hv).trans (runs_one hcomp.1)
      have hlt := hl.of_runs hrun
      obtain ⟨n', r, hrun', hin', -⟩ := goesOn (h.of_inCommand hin (runs_cfg hrun) hlt) hlt (heng.trans he) hnone
      exact ⟨n + 1 + n', r, (runs_add hrun).trans hrun', hin.trans hin', by simp⟩

end

end Sys2Proof.Machine
end

section
/-!
PROOFS. The commands under `ENV_LIVE` and `DEV_WRITE_CYCLE_ENDS` (spec 20_memory.md R63, 42_eeprom_client.md R151 to R155,
60_exceptions.md R172): each comes to its return, and so no run hangs.
-/

namespace Sys2Proof.Machine

/-! ### A step of the running command (R90, R99, R153) -/

/-- The five steps of `EE_WAIT`, the switches decided (R153, R154). -/
theorem eeWaitTable_cases {cfg : Config} {k : Nat} {act : Action} (ha : tableOf cfg .eeWait k = some act) :
    (k = 0 ∧ act = .call .start none none (some 1)) ∨ (k = 1 ∧ act = callAddr cfg.device .write 2) ∨
      (k = 2 ∧ act = .test 4 3) ∨ (k = 3 ∧ (act = .jump 0 ∨ act = .call .stop none none (some 0))) ∨
      (k = 4 ∧ (act = .ret ∨ act = .call .stop none none none)) := by
  have hk : k < 5 := (tableOf_ne_none_iff (cfg := cfg) (i := .eeWait)).1 (by simp [ha])
  interval_cases k
  · simpa [tableOf, eeWaitTable, eq_comm] using ha
  · simpa [tableOf, eeWaitTable, eq_comm] using ha
  · simpa [tableOf, eeWaitTable, eq_comm] using ha
  · obtain rfl := Option.some.inj ha
    cases cfg.probeStop <;> simp
  · obtain rfl := Option.some.inj ha
    cases cfg.waitFinalStop <;> simp

/-- `EE_WAIT` stands at its last step only with its probe acknowledged. -/
def AckKept (s : State) : Prop :=
  s.txn = .run .eeWait 4 → s.waitAcked = true

/-- A step of a running command that does not return. -/
structure RunsOn (i : Instr) (s t : State) : Prop where
  txn : ∃ k, t.txn = .run i k
  returns : t.returns = s.returns
  acked : s.cfg.pollBound = none → AckKept s → AckKept t

section

variable {i : Instr} {k : Nat} {s t : State}

theorem RunsOn.of_inCommand (h : InCommand s t) (ht : s.txn = .run i k) : RunsOn i s t :=
  ⟨⟨k, h.txn.trans ht⟩, h.returns, fun _ ha h4 => h.waitAcked.trans (ha (h.txn ▸ h4))⟩

/-- A move in the table that does not lead to the last step of `EE_WAIT`. -/
theorem RunsOn.of_txn {n : Nat} (ht : t.txn = .run i n) (hr : t.returns = s.returns) (hn : i = .eeWait → n ≠ 4) :
    RunsOn i s t :=
  ⟨⟨n, ht⟩, hr, fun _ _ h4 => by
    obtain ⟨rfl, rfl⟩ : i = .eeWait ∧ n = 4 := by simpa [ht] using h4
    exact absurd rfl (hn rfl)⟩

theorem RunsOn.of_probeTest (s : State) : RunsOn .eeWait s (probeTest .eeWait 4 3 s) := by
  refine ⟨?_, by simp, fun hbound _ h4 => ?_⟩
  · obtain ⟨n, -, hn⟩ := probeTest_txn .eeWait 4 3 s
    exact ⟨n, hn⟩
  · by_cases hst : readStatus s = 0x18
    · rw [probeTest_acked hst]
    · rw [probeTest_retries hst (by simp [hbound])] at h4
      simp at h4

/-- Only the status test leads to the last step of `EE_WAIT`, and only from there it returns. -/
theorem startAction_runsOn {act : Action} (ht : s.txn = .run i k) (ha : tableOf s.cfg i k = some act) :
    RunsOn i s (startAction i act s) ∨
      (startAction i act s = commandReturn i s ∧ (i = .eeWait → k = 4)) := by
  cases act with
  | call p a b next => exact .inl (.of_inCommand ⟨rfl, rfl, rfl⟩ ht)
  | test exit again =>
    obtain ⟨rfl, rfl, -⟩ := eeWait_of_test ha
    obtain ⟨rfl, rfl⟩ : 4 = exit ∧ 3 = again := by simpa [tableOf, eeWaitTable] using ha
    exact .inl (.of_probeTest s)
  | jump n =>
    refine .inl (.of_txn rfl rfl ?_)
    rintro rfl
    have := eeWaitTable_cases ha
    simp [callAddr] at this
    omega
  | ret =>
    refine .inr ⟨rfl, ?_⟩
    rintro rfl
    have := eeWaitTable_cases ha
    simpa [callAddr] using this

theorem leaveTo_runsOn {p : Prim} {a b : Option Byte} {next : Option Nat} {r : State}
    (ha : tableOf s.cfg i k = some (.call p a b next)) (hin : InCommand s r) :
    RunsOn i s (leaveTo i next r) ∨ (leaveTo i next r = commandReturn i r ∧ (i = .eeWait → k = 4)) := by
  cases next with
  | some n =>
    refine .inl (.of_txn rfl hin.returns ?_)
    rintro rfl
    have := eeWaitTable_cases ha
    simp [callAddr] at this
    omega
  | none =>
    refine .inr ⟨rfl, ?_⟩
    rintro rfl
    have := eeWaitTable_cases ha
    simp [callAddr] at this
    omega

/-- A step of a running command goes on with it, or returns from it, `EE_WAIT` from its last step alone. -/
theorem step_running (hp : s.powerCycles = []) (ht : s.txn = .run i k) (hstep : step s = .next t) :
    RunsOn i s t ∨ ∃ r, t = commandReturn i r ∧ InCommand s r ∧ (i = .eeWait → k = 4) := by
  rcases step_eq s with ⟨rest, h0, -⟩ | ⟨ms, pcs, ⟨op, st, d, -, hact⟩ | hact | hact⟩
  · simp [hp] at h0
  · obtain ⟨st', d', s', rfl, rfl | ⟨dev', rfl, -⟩⟩ := envAnswer_finishOp (hact.symm.trans hstep) <;>
      exact .inl (.of_inCommand ⟨by simp [counted], by simp [counted], by simp [counted]⟩ ht)
  · obtain rfl := next_inj (hact.symm.trans hstep)
    exact .inl (.of_inCommand ⟨rfl, rfl, rfl⟩ ht)
  · have hx : exec i (counted s.port ms pcs s) = .next t := by
      simpa [blockTurn, counted, ht] using hact.symm.trans hstep
    rcases exec_cases hx with ⟨ht', -⟩ | ⟨j, l, hj, hne, -⟩ | ⟨l, act, hl, ha, -, rfl⟩ |
      ⟨l, p, a, b, next, u, m, hl, ha, -, hm, hrun⟩
    · simp [counted, ht] at ht'
    · obtain ⟨rfl, -⟩ : i = j ∧ k = l := by simpa [counted, ht] using hj
      exact absurd rfl hne
    · obtain rfl : k = l := by simpa [counted, ht] using hl
      rcases startAction_runsOn (s := counted s.port ms pcs s) ht ha with hon | ⟨hret, h4⟩
      · exact .inl ⟨hon.txn, hon.returns, hon.acked⟩
      · exact .inr ⟨_, hret, ⟨rfl, rfl, rfl⟩, h4⟩
    · obtain rfl : k = l := by simpa [counted, ht] using hl
      rcases runMicro_stays_or_leaves hm hrun with hstays | ⟨r, rfl, hin, -⟩
      · obtain ⟨htxn, hreturns, hacked⟩ := hstays.inCommand
        exact .inl (.of_inCommand ⟨htxn, hreturns, hacked⟩ ht)
      · rcases leaveTo_runsOn (s := counted s.port ms pcs s) ha hin with hon | ⟨hret, h4⟩
        · exact .inl ⟨hon.txn, hon.returns, hon.acked⟩
        · exact .inr ⟨r, hret, ⟨hin.txn, hin.returns, hin.waitAcked⟩, h4⟩

/-! ### The return of a command that ends (R90, R99) -/

/-- The command in progress ends: a run reaches an idle block. -/
def Ends (s : State) : Prop :=
  ∃ n t, runs n s = .next t ∧ t.txn = .idle

theorem Ends.of_runs {n : Nat} (hrun : runs n s = .next t) (h : Ends t) : Ends s := by
  obtain ⟨m, u, hu, hidle⟩ := h
  exact ⟨n + m, u, (runs_add hrun).trans hu, hidle⟩

/-- A command that ends returns, with the port as it was; without a bound `EE_WAIT` returns acknowledged. -/
theorem Lively.returned (hl : Lively s) (ht : s.txn = .run i k) (hend : Ends s) :
    ∃ n t r, runs n s = .next t ∧ Returned t s.port ∧ t.returns = s.returns ++ [returnValue i r] ∧
      (i = .eeWait → s.cfg.pollBound = none → AckKept s → r.waitAcked = true) := by
  obtain ⟨n, t, hrun, hidle⟩ := hend
  induction n generalizing s k with
  | zero =>
    obtain rfl := next_inj hrun
    simp [ht] at hidle
  | succ n ih =>
    obtain ⟨u, hu, hrun⟩ := runs_succ.1 hrun
    have hport : u.port = s.port := step_port_of_busy hu (by simp [ht])
    have hlu := hl.of_step hu
    rcases step_running hl.powerCycles ht hu with hon | ⟨r, rfl, hin, h4⟩
    · obtain ⟨k', hk'⟩ := hon.txn
      obtain ⟨m, v, r, hv, hret, hvalue, hack⟩ := ih hlu hk' hrun
      have hcfg := configurationNeverChanges s u hu
      exact ⟨m + 1, v, r, (runs_next hu).trans hv, hport ▸ hret, hon.returns ▸ hvalue,
        fun hi hb ha => hack hi (hcfg ▸ hb) (hon.acked hb ha)⟩
    · refine ⟨1, _, r, runs_one hu, ⟨rfl, rfl, hlu.spin.none_of_eng_idle rfl, hport⟩, ?_, fun hi hb ha => ?_⟩
      · rw [commandReturn_returns, hin.returns]
      · subst hi
        exact hin.waitAcked.trans (ha (by rw [ht, h4 rfl]))

/-! ### Commands without a loop (R92, R151, R152) -/

/-- A table without a loop goes step by step, or returns. -/
theorem tableOf_straight {cfg : Config} {act : Action} (hi : i ≠ .eeWait) (ha : tableOf cfg i k = some act) :
    act = .ret ∨ ∃ p a b next, act = .call p a b next ∧ (next = none ∨ next = some (k + 1)) := by
  by_cases hs : SendsData i
  · rcases tableOf_sendsData hs ha with rfl | ⟨p, a, b, rfl, -⟩
    · exact .inl rfl
    · exact .inr ⟨p, a, b, _, rfl, .inr rfl⟩
  · have hk : k < tableLength i := (tableOf_ne_none_iff (cfg := cfg)).1 (by simp [ha])
    cases i with
    | eeWait => exact absurd rfl hi
    | eeWrite o v => exact absurd (.inl ⟨o, v, rfl⟩) hs
    | eeRead o => exact absurd (.inr ⟨o, rfl⟩) hs
    | init | start | stop | txAddr _ _ | txByte _ | rxAck | rxNak | decode _ =>
      obtain rfl : k = 0 := by simpa [tableLength] using hk
      obtain rfl := Option.some.inj ha
      exact .inr ⟨_, _, _, _, rfl, .inl rfl⟩

/-- A running command stands between two steps, or within a primitive that it calls. -/
theorem Lively.position (hl : Lively s) (ht : s.txn = .run i k) :
    (s.eng = .idle ∧ ∃ act, tableOf s.cfg i k = some act) ∨
      ∃ p a b next u, tableOf s.cfg i k = some (.call p a b next) ∧ s.eng = .exec p u ∧ Calls i p next s := by
  have hseq := hl.seq
  cases he : s.eng with
  | idle =>
    simp only [SeqInv, ht, he] at hseq
    exact .inl ⟨rfl, Option.ne_none_iff_exists'.1 hseq.2⟩
  | exec p u =>
    simp only [SeqInv, ht, he] at hseq
    obtain ⟨-, ⟨a, b, next, ha⟩, -⟩ := hseq
    exact .inr ⟨p, a, b, next, u, ha, rfl, hl.powerCycles, k, a, b, ht, ha⟩

/-- The entry of a primitive that the table calls. -/
theorem Lively.runs_call {p : Prim} {a b : Option Byte} {next : Option Nat} (hl : Lively s) (ht : s.txn = .run i k)
    (he : s.eng = .idle) (ha : tableOf s.cfg i k = some (.call p a b next)) :
    ∃ n t, runs n s = .next (leaveTo i next t) := by
  have hcall := step_action hl.powerCycles ht ha he
  have hcalls : Calls i p next (startAction i (.call p a b next) (ticked s)) := ⟨hl.powerCycles, k, a, b, ht, ha⟩
  obtain ⟨n, t, hrun, -⟩ := hcalls.runs_live (hl.of_step hcall) rfl
  exact ⟨n + 1, t, (runs_next hcall).trans hrun⟩

theorem Lively.lt_tableLength (hl : Lively s) (ht : s.txn = .run i k) : k < tableLength i := by
  rcases hl.position ht with ⟨-, act, ha⟩ | ⟨p, a, b, next, u, ha, -⟩ <;>
    exact tableOf_ne_none_iff.1 (ne_of_eq_of_ne ha (by simp))

/-- Under `ENV_LIVE` a command without a loop ends. -/
theorem Lively.ends_straight (hl : Lively s) (ht : s.txn = .run i k) (hi : i ≠ .eeWait) : Ends s := by
  obtain ⟨c, hc⟩ : ∃ c, c + k = tableLength i := ⟨_, Nat.sub_add_cancel (hl.lt_tableLength ht).le⟩
  induction c generalizing s k with
  | zero =>
    have := hl.lt_tableLength ht
    omega
  | succ c ih =>
    have behind {p : Prim} {a b : Option Byte} {next : Option Nat} {n : Nat} {r : State}
        (ha : tableOf s.cfg i k = some (.call p a b next)) (hrun : runs n s = .next (leaveTo i next r)) : Ends s := by
      rcases tableOf_straight hi ha with hret | ⟨_, _, _, _, hcall, hnext⟩
      · cases hret
      · cases hcall
        rcases hnext with rfl | rfl
        · exact ⟨n, _, hrun, rfl⟩
        · exact .of_runs hrun (ih (hl.of_runs hrun) rfl (by omega))
    rcases hl.position ht with ⟨he, act, ha⟩ | ⟨p, a, b, next, u, ha, he, hcalls⟩
    · rcases tableOf_straight hi ha with rfl | ⟨p, a, b, next, rfl, -⟩
      · exact ⟨1, _, runs_one (step_action hl.powerCycles ht ha he), rfl⟩
      · obtain ⟨n, r, hrun⟩ := hl.runs_call ht he ha
        exact behind ha hrun
    · obtain ⟨n, r, hrun, -⟩ := hcalls.runs_live hl he
      exact behind ha hrun

/-- A command that is offered and ends, once accepted, returns. -/
theorem returned_of_offers {rest : List CmdWord} (ho : Offers s i rest) (hl : EnvLive s)
    (hend : Lively (accepted i rest s) → Ends (accepted i rest s)) :
    ∃ n t r, runs n s = .next t ∧ Returned t rest ∧ t.returns = s.returns ++ [returnValue i r] ∧
      (i = .eeWait → s.cfg.pollBound = none → r.waitAcked = true) := by
  have haccept : step s = .next (accepted i rest s) := step_accepts ho
  have hla := (Lively.of_offers ho hl).of_step haccept
  have ht : (accepted i rest s).txn = .run i 0 := rfl
  obtain ⟨n, t, r, hrun, hret, hvalue, hack⟩ := hla.returned ht (hend hla)
  rw [accepted_port] at hret
  rw [accepted_returns] at hvalue
  exact ⟨n + 1, t, r, (runs_next haccept).trans hrun, hret, hvalue,
    fun hi hb => hack hi (by simpa using hb) fun h4 => by simp [ht] at h4⟩

theorem returned_of_offers_straight {rest : List CmdWord} (ho : Offers s i rest) (hl : EnvLive s) (hi : i ≠ .eeWait) :
    ∃ n t r, runs n s = .next t ∧ Returned t rest ∧ t.returns = s.returns ++ [returnValue i r] := by
  obtain ⟨n, t, r, hrun, hret, hvalue, -⟩ := returned_of_offers ho hl fun hla => hla.ends_straight rfl hi
  exact ⟨n, t, r, hrun, hret, hvalue⟩

end

/-- Settles O43: a bus primitive is a command without a loop. -/
theorem livePrimitivesReturn : Obligations.LivePrimitivesReturn := by
  intro i p dir s rest hprim ho hl
  have hi : i ≠ .eeWait := by
    rintro rfl
    simp [busPrim] at hprim
  obtain ⟨n, t, -, hrun, hret, -⟩ := returned_of_offers_straight ho hl hi
  exact ⟨n, t, hrun, hret⟩

/-! ### `EE_WAIT` (R153) -/

section

variable {s t : State} {k : Nat}

/-- The command in progress ends, or comes back to the first step of `EE_WAIT`. -/
def EndsOrProbes (s : State) : Prop :=
  Ends s ∨ ∃ n t, runs n s = .next t ∧ t.txn = .run .eeWait 0 ∧ t.eng = .idle

theorem EndsOrProbes.of_runs {n : Nat} (hrun : runs n s = .next t) (h : EndsOrProbes t) : EndsOrProbes s := by
  rcases h with hend | ⟨m, u, hu, htop⟩
  · exact .inl (.of_runs hrun hend)
  · exact .inr ⟨n + m, u, (runs_add hrun).trans hu, htop⟩

/-- Behind its loop `EE_WAIT` ends, with or without a STOP (R154). -/
theorem Lively.ends_finish (hl : Lively s) (ht : s.txn = .run .eeWait 4) (he : s.eng = .idle) : Ends s := by
  have ha := eeWaitTable_finish s.cfg
  cases hf : s.cfg.waitFinalStop with
  | false =>
    rw [hf] at ha
    exact ⟨1, _, runs_one (step_action hl.powerCycles ht ha he), rfl⟩
  | true =>
    rw [hf] at ha
    obtain ⟨n, r, hrun⟩ := hl.runs_call ht he ha
    exact ⟨n, _, hrun, rfl⟩

/-- Step 3 loops back, with or without a STOP (R154). -/
theorem Lively.probes_loopBack (hl : Lively s) (ht : s.txn = .run .eeWait 3) (he : s.eng = .idle) :
    EndsOrProbes s := by
  have ha := eeWaitTable_loopBack s.cfg
  cases hf : s.cfg.probeStop with
  | false =>
    rw [hf] at ha
    exact .inr ⟨1, _, runs_one (step_action hl.powerCycles ht ha he), rfl, he⟩
  | true =>
    rw [hf] at ha
    obtain ⟨n, r, hrun⟩ := hl.runs_call ht he ha
    exact .inr ⟨n, _, hrun, rfl, rfl⟩

theorem Lively.endsOrProbes_test (hl : Lively s) (ht : s.txn = .run .eeWait 2) (he : s.eng = .idle) :
    EndsOrProbes s := by
  have hstep := step_action (act := .test 4 3) hl.powerCycles ht rfl he
  have hl' := hl.of_step hstep
  have he' : (startAction .eeWait (.test 4 3) (ticked s)).eng = .idle := by simpa [startAction] using he
  obtain ⟨n, hn, htxn⟩ := probeTest_txn .eeWait 4 3 (ticked s)
  refine .of_runs (runs_one hstep) ?_
  rcases List.mem_pair.1 hn with rfl | rfl
  · exact .inl (hl'.ends_finish htxn he')
  · exact hl'.probes_loopBack htxn he'

/-- From between two of its steps `EE_WAIT` ends or comes to its next probe. -/
theorem Lively.endsOrProbes_between (hl : Lively s) (ht : s.txn = .run .eeWait k) (he : s.eng = .idle) (hk : k < 5) :
    EndsOrProbes s := by
  interval_cases k
  · exact .inr ⟨0, s, rfl, ht, he⟩
  · obtain ⟨n, r, hrun⟩ := hl.runs_call ht he (by exact rfl)
    exact .of_runs hrun ((hl.of_runs hrun).endsOrProbes_test rfl rfl)
  · exact hl.endsOrProbes_test ht he
  · exact hl.probes_loopBack ht he
  · exact .inl (hl.ends_finish ht he)

/-- From wherever it stands `EE_WAIT` ends or comes to its next probe. -/
theorem Lively.endsOrProbes (hl : Lively s) (ht : s.txn = .run .eeWait k) : EndsOrProbes s := by
  rcases hl.position ht with ⟨he, -⟩ | ⟨p, a, b, next, u, ha, he, hcalls⟩
  · exact hl.endsOrProbes_between ht he (hl.lt_tableLength ht)
  · obtain ⟨n, r, hrun, -⟩ := hcalls.runs_live hl he
    cases next with
    | none => exact .inl ⟨n, _, hrun, rfl⟩
    | some l =>
      have hl' := hl.of_runs hrun
      exact .of_runs hrun (hl'.endsOrProbes_between rfl rfl (hl'.lt_tableLength rfl))

/-- A probe addresses the device for write (R153). -/
theorem Lively.runs_writeAddressed (hl : Lively s) (ht : s.txn = .run .eeWait 0) (he : s.eng = .idle) :
    ∃ n u t, runs n s = .next u ∧ WriteAddressed u t := by
  obtain ⟨n, r, hstart⟩ := hl.runs_call ht he (by exact rfl)
  let s₁ : State := leaveTo .eeWait (some 1) r
  have hl₁ : Lively s₁ := hl.of_runs hstart
  let j : Instr := .txAddr s₁.cfg.device .write
  have hcall : step s₁ = .next (called j .txAddr s₁) := step_action hl₁.powerCycles rfl rfl rfl
  have hl₂ := hl₁.of_step hcall
  have hcalls : Calls .eeWait .txAddr (some 2) (called j .txAddr s₁) := ⟨hl₁.powerCycles, 1, _, _, rfl, rfl⟩
  let s₃ : State := advance .txAddr 0 (contractStep .txAddr (ticked (called j .txAddr s₁)))
  have hcontract : step (called j .txAddr s₁) = .next s₃ := hcalls.step_offSpin rfl rfl (by simp)
  have hl₃ := hl₂.of_step hcontract
  have hcalls₃ : Calls .eeWait .txAddr (some 2) s₃ := hcalls.of_same (by simp [s₃]) (by simp [s₃]) (by simp [s₃])
  have hi₃ : s₃.inflight = none := hl₃.spin.none_of_spinPast rfl (spinPast_of_ne_spinAt (by simp [spinAt]) _)
  have hops : opAddr7 (ticked s₃) = s₁.cfg.device ∧ opDir (ticked s₃) = .write :=
    operands_of_txAddr (by simp [s₃, called, j, argA, loadOperand]) (by simp [s₃, called, j, argB, loadOperand])
  have hwrite := (hcalls₃.step_offSpin rfl rfl (by simp)).trans (runMicro_writeAddr hops hi₃)
  have htrigger := hcalls₃.runs_write_trigger hwrite rfl rfl hi₃
  have hissued := (runs_add hstart).trans ((runs_next hcall).trans ((runs_next hcontract).trans htrigger))
  obtain ⟨m, v, t, hv, hc, -⟩ := (hl.of_runs hissued).runs_completes (k := 1) (i := .eeWait) (by simp [s₃, called, s₁]) rfl rfl
  obtain ⟨haddr, hdir, -⟩ := addressBytePacksBoth s₁.cfg.device .write
  refine ⟨_, v, t, (runs_add hissued).trans hv, _, hc, haddr.trans ?_, hdir⟩
  rw [runs_cfg ((runs_add hissued).trans hv), ← runs_cfg hstart]

/-- Once the device acknowledges, `EE_WAIT` ends (R153). -/
theorem Lively.ends_of_acked (hl : Lively s) (ht : s.txn = .run .eeWait k) (hw : WriteAddressed s t)
    (hst : t.status.val = 0x18) : Ends s := by
  obtain ⟨b, hc, -⟩ := hw
  obtain ⟨ws, ms, pcs, st, d, hans⟩ := hc.answered
  obtain ⟨hstep, hi, hnone, -⟩ := hc
  rcases hl.position ht with ⟨he, -⟩ | ⟨p, x, y, next, u, ha, he, hcalls⟩
  · simp [hl.spin.none_of_eng_idle he] at hi
  · obtain ⟨hfits, hwaits⟩ := hl.spin.waits_at he hi
    obtain rfl : p = .txAddr := by cases p <;> simp [opFits] at hfits ⊢
    obtain ⟨-, -, -, rfl⟩ : k = 1 ∧ _ ∧ _ ∧ next = some 2 := by simpa [callAddr] using eeWaitTable_cases ha
    have hu : u = spinAt .txAddr := spinAt_of_spin (by simpa [atSpin, he] using atSpin_of_waits he hwaits)
    obtain ⟨hin, heng⟩ := step_inFlight hl.powerCycles ht he hwaits hstep
    have hlt := hl.of_step hstep
    obtain ⟨n, r, hrun, -, hstatus⟩ := (hcalls.of_inCommand hin (configurationNeverChanges s t hstep) hlt).runs_live hlt
      (heng.trans he)
    have hread : readStatus (ticked (leaveTo .eeWait (some 2) r)) = 0x18 := by
      obtain ⟨st', d', s', rfl, -⟩ := envAnswer_finishOp hans
      have hput := hstatus hnone hu.ge
      rw [finishOp_status] at hput hst
      rw [readStatus_of_put (b := st') (by simpa using hput)]
      exact hst
    have hlr := hlt.of_runs hrun
    have htest := step_action (act := .test 4 3) hlr.powerCycles rfl rfl rfl
    have hl4 := hlr.of_step htest
    rw [startAction, probeTest_acked hread] at htest hl4
    exact .of_runs (runs_one hstep) (.of_runs hrun (.of_runs (runs_one htest) (hl4.ends_finish rfl rfl)))

/-- A command that does not end runs on. -/
theorem Lively.runs_on {n : Nat} {i : Instr} (hl : Lively s) (ht : s.txn = .run i k) (hno : ¬Ends s)
    (hrun : runs n s = .next t) : ∃ l, t.txn = .run i l := by
  induction n generalizing s k with
  | zero => exact next_inj hrun ▸ ⟨k, ht⟩
  | succ n ih =>
    obtain ⟨u, hu, hrun⟩ := runs_succ.1 hrun
    rcases step_running hl.powerCycles ht hu with hon | ⟨r, rfl, -⟩
    · obtain ⟨l, hl'⟩ := hon.txn
      exact ih (hl.of_step hu) hl' (fun hend => hno (.of_runs (runs_one hu) hend)) hrun
    · exact absurd ⟨1, _, runs_one hu, rfl⟩ hno

/-- An `EE_WAIT` that does not end begins probes again and again. -/
theorem Lively.probes_again (hl : Lively s) (ht : s.txn = .run .eeWait k) (hno : ¬Ends s) (n : Nat) :
    ∃ m u, n ≤ m ∧ runs m s = .next u ∧ u.txn = .run .eeWait 0 ∧ u.eng = .idle := by
  induction n with
  | zero =>
    obtain ⟨m, u, hu, htop⟩ := (hl.endsOrProbes ht).resolve_left hno
    exact ⟨m, u, Nat.zero_le m, hu, htop⟩
  | succ n ih =>
    obtain ⟨m, u, hm, hu, htxn, he⟩ := ih
    obtain ⟨m', v, w, hv, b, hc, -⟩ := (hl.of_runs hu).runs_writeAddressed htxn he
    have hw := (runs_add ((runs_add hu).trans hv)).trans (runs_one hc.1)
    obtain ⟨l, hl'⟩ := hl.runs_on ht hno hw
    obtain ⟨m'', x, hx, htop⟩ := ((hl.of_runs hw).endsOrProbes hl').resolve_left fun hend => hno (.of_runs hw hend)
    exact ⟨_, x, by omega, (runs_add hw).trans hx, htop⟩

/-- Under `DEV_WRITE_CYCLE_ENDS` as well every command ends. -/
theorem Lively.ends (hl : Lively s) (hd : DevWriteCycleEnds s) : Ends s := by
  cases ht : s.txn with
  | idle => exact ⟨0, s, rfl, ht⟩
  | run i k =>
    by_cases hi : i = .eeWait
    · subst hi
      by_contra hno
      obtain ⟨m, u, t, -, hu, hw, hst⟩ := hd.2 (fun n => by
        obtain ⟨m, u, hm, hu, htxn, he⟩ := hl.probes_again ht hno n
        obtain ⟨m', v, t, hv, hw⟩ := (hl.of_runs hu).runs_writeAddressed htxn he
        exact ⟨m + m', v, t, by omega, (runs_add hu).trans hv, hw⟩) 0
      obtain ⟨l, hl'⟩ := hl.runs_on ht hno hu
      exact hno (.of_runs hu ((hl.of_runs hu).ends_of_acked hl' hw hst))
    · exact hl.ends_straight ht hi

/-! ### Nothing hangs (R172) -/

theorem turn_powerCycles (h : turn exec s = .next t) : t.powerCycles = s.powerCycles := by
  obtain ⟨ms, ⟨op, st, d, -, hact⟩ | hact | hact⟩ := turn_eq s <;> rw [hact] at h
  · obtain ⟨st', d', s', rfl, rfl | ⟨dev', rfl, -⟩⟩ := envAnswer_finishOp h <;> simp
  · obtain rfl := next_inj h
    rfl
  · rcases blockTurn_cases h with ⟨i, k, -, hx⟩ | ⟨-, -, rfl⟩ | ⟨w, rest, i, -, -, -, rfl⟩
    · obtain ⟨-, -, -, -, -, hpcs, -⟩ := exec_frame hx
      exact hpcs
    · rfl
    · unfold onAccept
      split <;> rfl

/-- A power cycle that is due after `n` steps leaves the block idle. -/
theorem runs_powerCycle {n : Nat} {rest : List Nat} (hp : s.powerCycles = n :: rest)
    (hrun : runs (n + 1) s = .next t) : t.txn = .idle := by
  induction n generalizing s with
  | zero =>
    obtain ⟨u, hu, hrun⟩ := runs_succ.1 hrun
    obtain rfl := next_inj hrun
    obtain rfl := next_inj ((step_powerCycle_due hp).symm.trans hu)
    rfl
  | succ n ih =>
    obtain ⟨u, hu, hrun⟩ := runs_succ.1 hrun
    have hturn : turn exec (setPowerCycles (n :: rest) (ticked s)) = .next u := by
      simpa only [step, stepWith, hp] using hu
    exact ih (turn_powerCycles hturn) hrun

theorem MachineInv.of_runs {n : Nat} (h : MachineInv s) (hrun : runs n s = .next t) : MachineInv t := by
  induction n generalizing s with
  | zero => exact next_inj hrun ▸ h
  | succ n ih =>
    obtain ⟨u, hu, hrun⟩ := runs_succ.1 hrun
    exact ih (invIsKeptByEveryStep s u h hu) hrun

theorem Lively.of_machineInv (h : MachineInv s) (hp : s.powerCycles = []) (hl : EnvLive s) : Lively s :=
  ⟨hp, h.seq, .of_machineInv h, hl⟩

/-- A run that hangs has no power cycle to come, for that would end it, and a command that ends. -/
theorem not_hangs (h : MachineInv s) (hl : EnvLive s) (hd : DevWriteCycleEnds s) : ¬Hangs s := by
  rintro ⟨n, hbusy⟩
  obtain ⟨u, hu, -⟩ := hbusy n le_rfl
  have stays {m : Nat} {t : State} (ht : runs m u = .next t) : t.txn ≠ .idle := by
    obtain ⟨t', ht', hne⟩ := hbusy (n + m) (by omega)
    obtain rfl := next_inj (((runs_add hu).trans ht).symm.trans ht')
    exact hne
  have hp : u.powerCycles = [] := by
    cases hpu : u.powerCycles with
    | nil => rfl
    | cons m rest =>
      obtain ⟨t, ht, -⟩ := hbusy (n + (m + 1)) (by omega)
      rw [runs_add hu] at ht
      exact absurd (runs_powerCycle hpu ht) (stays ht)
  obtain ⟨m, t, ht, hidle⟩ :=
    (Lively.of_machineInv (h.of_runs hu) hp (EnvLive_of_runs hl hu)).ends (DevWriteCycleEnds_of_runs hd hu)
  exact stays ht hidle

end

/-- Settles O59: each transaction ends and so returns, and a command that ends does not hang. -/
theorem liveTransactionsReturn : Obligations.LiveTransactionsReturn := by
  intro s rest hl
  refine ⟨fun o v ho => ?_, fun o ho => ?_, fun ho hd => ?_, fun hinv hd => not_hangs hinv hl hd⟩
  · obtain ⟨n, t, r, hrun, hret, hvalue⟩ := returned_of_offers_straight ho hl (by simp)
    exact ⟨n, t, hrun, hret, hvalue⟩
  · obtain ⟨n, t, r, hrun, hret, hvalue⟩ := returned_of_offers_straight ho hl (by simp)
    exact ⟨n, t, resValue r, hrun, hret, hvalue⟩
  · have hda := DevWriteCycleEnds_of_runs hd (runs_one (step_accepts ho))
    obtain ⟨n, t, r, hrun, hret, hvalue, hack⟩ := returned_of_offers ho hl fun hla => hla.ends hda
    exact ⟨n, t, r.waitAcked, hrun, hret, hvalue, hack rfl⟩

end Sys2Proof.Machine
end

section
/-!
PROOFS. The round trip `EE_WRITE a, b; EE_WAIT; EE_READ a` against the reference device (spec 42_eeprom_client.md R157,
20_memory.md R75 to R82): a call that the device answers whether its write cycle runs or not, the probes of `EE_WAIT` until
the cycle has ended, and the three commands one after the other.
-/

namespace Sys2Proof.Machine

/-! ### A call that the device answers, busy or not (R82) -/

/-- The device `dev` answers `op` with `st` and `d` and is `dev'` from then on, where its write cycle may end before its
answer and after it. -/
def ServedAs (a : Addr7) (ph : Phase) (dev : Device) (op : BusOp) (st d : Byte) (dev' : Device) : Prop :=
  ∃ dev₀ dev₁ st₀ d₀ x, MayEndCycle dev dev₀ ∧ deviceAnswer a ph op st₀ d₀ x dev₀ = .ok (st, d, dev₁) ∧
    MayEndCycle dev₁ dev'

theorem waited_finishOp (op : BusOp) (st d : Byte) (n : Nat) (ms : List EnvMove) (dev : Device) (s : State) :
    waited n ms dev (finishOp op st d s) = finishOp op st d (waited n ms dev s) := by
  cases op <;> rfl

section

variable {i j : Instr} {p : Prim} {dir : Dir} {next : Option Nat} {s t : State} {op : BusOp} {k : Nat}

/-- From its spin a primitive in contract goes on to the device's answer, which is no refusal of a page write. -/
theorem Calls.runs_servedAnswer {u : Nat} (h : Calls i p next s) (he : s.eng = .exec p u) (hw : ¬SpinPast p u s)
    (hi : s.inflight = some op) (henv : s.env = .reference) (hph : s.phase ≠ .undefined)
    (hpage : ∀ b v, op = .opData b → s.dev.sel ≠ .wPending v) :
    ∃ n ms dev₁ st d, ServedAs s.cfg.device s.phase s.dev op st d dev₁ ∧
      runs n s = .next (finishOp op st d (waited n ms dev₁ s)) := by
  obtain ⟨n, ms, dev₀, st₀, d₀, hdev, hrun, hnext⟩ := h.runs_toAnswer he hw hi henv hph
  have hstep := step_nextMove (s := waited n ms dev₀ s) h.powerCycles hi (atSpin_of_waits he hw) hnext
  cases hans : deviceAnswer s.cfg.device s.phase op st₀ d₀ (Config.freeByte (s.tick + n + 1) .ptr) dev₀ with
  | error r =>
    obtain ⟨b, v, hb, hsel⟩ := deviceAnswer_error_iff.1 ⟨r, hans⟩
    exact absurd (hdev.sel.symm.trans hsel) (hpage b v hb)
  | ok r =>
    obtain ⟨st, d, dev₁⟩ := r
    rw [envAnswer_reference (s := dropMove (ticked (waited n ms dev₀ s))) henv hph hans] at hstep
    exact ⟨n + 1, ms.tail, dev₁, st, d, ⟨dev₀, dev₁, st₀, d₀, _, hdev, hans, .refl _⟩,
      (runs_add hrun).trans (runs_one hstep)⟩

/-- A call of a bus primitive in contract, which the device answers whether it is busy or not. -/
theorem Calls.runs_served {ph : Phase} (h : Calls i p next s) (hj : busPrim j = some (p, dir)) (hl : Loaded j s)
    (he : s.eng = .exec p 0) (hinit : s.inited = true) (hph : phaseTable p dir s.phase = some ph)
    (hi : s.inflight = none) (henv : s.env = .reference) (hop : busOp j = some op)
    (hpage : ∀ b v, op = .opData b → s.dev.sel ≠ .wPending v) :
    ∃ n ms dev' st d, ServedAs s.cfg.device s.phase s.dev op st d dev' ∧
      runs n s = .next (leaveTo i next (primDone j ph st d ms n (setDev dev' s))) := by
  have hissued := h.runs_issued hj hl he hinit (by simp [hph]) hi
  have h1 : Calls i p next (issued j p s) := ⟨h.powerCycles, h.call⟩
  have hdefined : s.phase ≠ .undefined := fun hs => by simp [hs, phaseTable_undefined hj] at hph
  obtain ⟨n, ms, dev₁, st, d, hserved, hanswered⟩ :=
    h1.runs_servedAnswer rfl (issued_waits hj s) hop henv hdefined hpage
  let t : State := finishOp op st d (waited n ms dev₁ (issued j p s))
  have h2 : Calls i p next t := h1.of_same (by simp [t, waited]) (by simp [t, waited]) (by simp [t, waited])
  obtain ⟨m, hm, hspin⟩ : ∃ m, (microSteps p)[spinAt p]? = some m ∧ ∀ s' : State, SpinPast p (spinAt p) s' →
      runMicro m p (spinAt p) (leaveTo i next) s' = .next (advance p (spinAt p) s') := by
    rcases microSteps_spinAt hj with hm | hm
    · exact ⟨_, hm, fun _ hpast => runMicro_spinTC_past (hpast.1 hm)⟩
    · exact ⟨_, hm, fun _ hpast => runMicro_spinStop_past (hpast.2 hm)⟩
  obtain ⟨n', ms', dev', hends, hmicro⟩ := h2.runs_micro (u := spinAt p) (by simp [t, waited, issued]) hm (by simp [t])
  let v : State := advance p (spinAt p) (waited n' ms' dev' t)
  have hpast : runs n' t = .next v :=
    hmicro.trans (hspin _ (waited_finishOp op st d n' ms' dev' _ ▸ spinPast_finishOp hj hop st d _))
  have h3 : Calls i p next v := h2.of_same rfl rfl rfl
  have hv : v = advance p (spinAt p) (finishOp op st d (waited n' ms' dev' (waited n ms dev₁ (issued j p s)))) := by
    rw [← waited_finishOp]
  have hreceived : j = .rxAck ∨ j = .rxNak → v.data = .put d := by
    rintro (rfl | rfl) <;> obtain rfl := Option.some.inj hop <;> rfl
  obtain ⟨n'', hreturn⟩ := h3.runs_afterSpin hj (hl.of_same (by simp [hv, waited, issued]) (by simp [hv, waited, issued]))
    rfl (by simp [hv]) (by simpa [hv, waited, issued] using hph) hreceived
  obtain ⟨dev₀, dev₂, st₀, d₀, x, hdev, hans, hends'⟩ := hserved
  refine ⟨spinAt p + n + n' + n'', ms', dev', st, d, ⟨dev₀, dev₂, st₀, d₀, x, hdev, hans, hends'.trans ?_⟩, ?_⟩
  · simpa [t, waited] using hends
  · rw [runs_add ((runs_add ((runs_add hissued).trans hanswered)).trans hpast), hreturn,
      ← finishOp_issued hj hop (setDev dev' s) st d ms' (spinAt p + n + n')]
    simp [hv, waited, issued, setDev, advance, Nat.add_assoc]

/-- The same within a transaction. -/
theorem Between.runs_served {ph : Phase} {k' : Nat} (h : Between i k s) (hj : busPrim j = some (p, dir))
    (ha : tableOf s.cfg i k = some (.call p (argA j) (argB j) (some k'))) (hph : phaseTable p dir s.phase = some ph)
    (henv : s.env = .reference) (hop : busOp j = some op) (hpage : ∀ b v, op = .opData b → s.dev.sel ≠ .wPending v) :
    ∃ n t st d, runs (n + 1) s = .next t ∧ Between i k' t ∧ t.phase = ph ∧ t.status = .put st ∧
      Did (busEvent j) (busRegOps j) 0 s t ∧ ServedAs s.cfg.device s.phase s.dev op st d t.dev := by
  obtain ⟨n, ms, dev', st, d, hserved, hrun⟩ :=
    (h.calls ha).runs_served hj (loaded_called j p s) rfl h.inited hph h.inflight henv hop hpage
  exact ⟨n, _, st, d, (runs_next (h.step_call ha)).trans hrun, h.of_call, rfl, rfl, did_call i j p dev' ph st d ms n k' s,
    hserved⟩

end

/-! ### What the device makes of a probe and of a STOP (R78, R81) -/

section

variable {a : Addr7} {ph : Phase} {dev dev' : Device} {st d : Byte}

theorem servedAs_start (h : ServedAs a ph dev .opStart st d dev') :
    dev'.sel = .none ∧ dev'.mem = dev.mem ∧ (dev.busy = false → dev'.busy = false) := by
  obtain ⟨dev₀, dev₁, st₀, d₀, x, h₀, hans, h₁⟩ := h
  cases hans
  exact ⟨h₁.sel, h₁.mem.trans h₀.mem, fun hb => h₁.idle (h₀.idle hb)⟩

/-- A device that is addressed for write acknowledges, and is not busy, or it was busy. -/
theorem servedAs_addrWrite (h : ServedAs a ph dev (.opAddr (addrByte a .write)) st d dev') :
    dev'.mem = dev.mem ∧ ((st = 0x18 ∧ dev'.busy = false ∧ dev'.sel = .wAddr) ∨
      (st ≠ 0x18 ∧ dev.busy = true ∧ dev'.sel = .none)) := by
  obtain ⟨dev₀, dev₁, st₀, d₀, x, h₀, hans, h₁⟩ := h
  obtain ⟨haddr, hdir, -⟩ := addressBytePacksBoth a .write
  rcases deviceAnswer_opAddr hans with ⟨hb, -, hst, rfl⟩ | ⟨hb, hst, rfl⟩
  · exact ⟨h₁.mem.trans h₀.mem, .inl ⟨by simpa [hdir] using hst, h₁.idle hb, by simpa [hdir] using h₁.sel⟩⟩
  · refine ⟨h₁.mem.trans h₀.mem, .inr ⟨by simp [hst, hdir], ?_, h₁.sel⟩⟩
    by_contra hno
    simp [h₀.idle (by simpa using hno)] at hb
    exact hb haddr

theorem servedAs_stop (h : ServedAs a ph dev .opStop st d dev') :
    ∃ dev₀, MayEndCycle dev dev₀ ∧ MayEndCycle (stopDevice dev₀) dev' := by
  obtain ⟨dev₀, dev₁, st₀, d₀, x, h₀, hans, h₁⟩ := h
  obtain ⟨-, -, rfl⟩ : _ ∧ _ ∧ stopDevice dev₀ = dev₁ := by simpa [deviceAnswer_opStop] using hans
  exact ⟨dev₀, h₀, h₁⟩

theorem servedAs_stop_stores {v : Byte} (h : ServedAs a ph dev .opStop st d dev') (hsel : dev.sel = .wPending v) :
    dev'.sel = .none ∧ dev'.mem = dev.mem.write dev.ptr.toNat v := by
  obtain ⟨dev₀, h₀, h₁⟩ := servedAs_stop h
  rw [stopDevice_of_pending (h₀.sel.trans hsel)] at h₁
  exact ⟨h₁.sel, by rw [h₁.mem, h₀.mem, h₀.ptr]⟩

theorem servedAs_stop_idle (h : ServedAs a ph dev .opStop st d dev') (hsel : ∀ v, dev.sel ≠ .wPending v) :
    dev'.sel = .none ∧ dev'.mem = dev.mem ∧ (dev.busy = false → dev'.busy = false) := by
  obtain ⟨dev₀, h₀, h₁⟩ := servedAs_stop h
  rw [stopDevice_of_not_pending (fun v => h₀.sel ▸ hsel v)] at h₁
  exact ⟨h₁.sel, h₁.mem.trans h₀.mem, fun hb => h₁.idle (h₀.idle hb)⟩

end

/-! ### Without a data byte no write cycle begins (R79, R81) -/

/-- No value waits in the device, and no data byte is in flight. -/
def NoData (s : State) : Prop :=
  (∀ v, s.dev.sel ≠ .wPending v) ∧ ∀ b, s.inflight ≠ some (.opData b)

theorem deviceAnswer_noData {a : Addr7} {ph : Phase} {op : BusOp} {st d x st' d' : Byte} {dev dev' : Device}
    (hsel : ∀ v, dev.sel ≠ .wPending v) (hop : ∀ b, op ≠ .opData b)
    (h : deviceAnswer a ph op st d x dev = .ok (st', d', dev')) :
    (∀ v, dev'.sel ≠ .wPending v) ∧ dev'.busy = dev.busy := by
  refine ⟨?_, ?_⟩
  · cases op with
    | opData b => exact absurd rfl (hop b)
    | opStart | opRxNak =>
      cases h
      simp
    | opAddr b => rcases deviceAnswer_opAddr h with ⟨-, -, -, rfl⟩ | ⟨-, -, rfl⟩ <;> cases byteDir b <;> simp
    | opRxAck =>
      simp only [deviceAnswer] at h
      split at h <;> cases h <;> exact hsel
    | opStop =>
      obtain ⟨-, -, rfl⟩ : _ ∧ _ ∧ stopDevice dev = dev' := by simpa [deviceAnswer_opStop] using h
      simp [stopDevice_of_not_pending hsel]
  · rcases deviceAnswer_mem h with ⟨-, hb⟩ | ⟨-, v, hv, -⟩
    · exact hb
    · exact absurd hv (hsel v)

section

variable {s t v : State}

/-- A command's step starts an operation only with its event in `TRACE` (R53). -/
theorem exec_starts {i : Instr} (h : exec i s = .next t) :
    t.inflight = s.inflight ∨ ∃ op, t.inflight = some op ∧ t.trace = s.trace ++ [eventOf op] := by
  rcases exec_cases h with ⟨-, rfl⟩ | ⟨j, k, -, -, rfl⟩ | ⟨k, act, -, -, -, rfl⟩ |
    ⟨k, p, a, b, next, u, m, -, -, -, hm, hrun⟩
  · unfold onAccept
    split <;> exact .inl rfl
  · exact .inl rfl
  · cases act <;> simp [startAction]
  · cases runMicro_move hm hrun with
    | spins => exact .inl rfl
    | triggers _ _ => exact .inr ⟨_, rfl, rfl⟩
    | goesOn _ inflight => exact .inl inflight
    | returns _ inflight => exact .inl inflight

/-- Unless it sends a data byte, a step begins no write cycle, and keeps `NoData`. -/
theorem step_noData (hp : s.powerCycles = []) (h : NoData s) (hstep : step s = .next t)
    (hno : ∀ b, t.trace ≠ s.trace ++ [.data b]) : NoData t ∧ (s.dev.busy = false → t.dev.busy = false) := by
  obtain ⟨hsel, hdata⟩ := h
  rcases step_next_cases hstep with ⟨rest, h0, -⟩ | ⟨ws, ms, pcs, ⟨op, st, d, hop, ha⟩ | rfl | rfl | ⟨i, -, hx⟩⟩
  · simp [hp] at h0
  · rcases envAnswer_cases ha with ⟨-, rfl⟩ | ⟨st', d', dev', rfl, -, -, hans⟩
    · exact ⟨⟨by simpa [counted] using hsel, by simp⟩, by simp [counted]⟩
    · obtain ⟨hsel', hbusy⟩ := deviceAnswer_noData (dev := s.dev) hsel (fun b hb => hdata b (hb ▸ hop)) hans
      exact ⟨⟨by simpa using hsel', by simp⟩, by simp [hbusy]⟩
  · exact ⟨⟨hsel, hdata⟩, fun _ => rfl⟩
  · exact ⟨⟨hsel, hdata⟩, id⟩
  · obtain ⟨-, -, -, hdev, -⟩ := exec_frame hx
    refine ⟨⟨hdev ▸ hsel, fun b hb => ?_⟩, hdev ▸ id⟩
    rcases exec_starts hx with hi | ⟨op, hop, htrace⟩
    · exact hdata b (hi.symm.trans hb)
    · obtain rfl : op = .opData b := Option.some.inj (hop.symm.trans hb)
      exact hno b htrace

theorem runs_trace {n : Nat} (hp : s.powerCycles = []) (hrun : runs n s = .next t) :
    ∃ ev, t.trace = s.trace ++ ev := by
  induction n generalizing s with
  | zero => exact ⟨[], by simp [next_inj hrun]⟩
  | succ n ih =>
    obtain ⟨u, hu, hrun⟩ := runs_succ.1 hrun
    obtain ⟨-, hgrow⟩ := tracesOnlyGrow s u hu
    obtain ⟨⟨new, hnew, -⟩, -⟩ := hgrow (by simp [hp])
    obtain ⟨ev, hev⟩ := ih (step_powerCycles hp hu) hrun
    exact ⟨new ++ ev, by rw [hev, hnew, List.append_assoc]⟩

/-- The bus has seen no data byte from `s` to `t`. -/
def NoDataSent (s t : State) : Prop :=
  ∃ ev, t.trace = s.trace ++ ev ∧ ∀ b, .data b ∉ ev

/-- Without a data byte no write cycle begins. -/
theorem runs_noData {n : Nat} (hp : s.powerCycles = []) (h : NoData s) (hrun : runs n s = .next t)
    (hsent : NoDataSent s t) : NoData t ∧ (s.dev.busy = false → t.dev.busy = false) := by
  induction n generalizing s with
  | zero => exact next_inj hrun ▸ ⟨h, id⟩
  | succ n ih =>
    obtain ⟨u, hu, hrun⟩ := runs_succ.1 hrun
    obtain ⟨-, hgrow⟩ := tracesOnlyGrow s u hu
    obtain ⟨⟨new, hnew, -⟩, -⟩ := hgrow (by simp [hp])
    have hpu := step_powerCycles hp hu
    obtain ⟨ev, hev⟩ := runs_trace hpu hrun
    obtain ⟨ev', hev', hno⟩ := hsent
    obtain rfl : ev' = new ++ ev := by
      rw [hev, hnew, List.append_assoc] at hev'
      exact (List.append_cancel_left hev').symm
    obtain ⟨hnd, hb⟩ := step_noData hp h hu fun b hb => by
      obtain rfl : new = [.data b] := List.append_cancel_left (hnew.symm.trans hb)
      exact hno b (by simp)
    obtain ⟨hnd', hb'⟩ := ih hpu hnd hrun ⟨ev, hev, fun b hmem => hno b (List.mem_append_right _ hmem)⟩
    exact ⟨hnd', fun h0 => hb' (hb h0)⟩

/-- An environment that has become arbitrary stays so. -/
theorem step_env (hstep : step s = .next t) (ht : t.env = .reference) : s.env = .reference := by
  rcases step_next_cases hstep with ⟨rest, -, rfl⟩ | ⟨ws, ms, pcs, ⟨op, st, d, -, ha⟩ | rfl | rfl | ⟨i, -, hx⟩⟩
  · simp only [powerCycle] at ht
    split at ht
    · exact ht
    · cases ht
  · obtain ⟨st', d', s', rfl, rfl | ⟨dev', rfl, -⟩⟩ := envAnswer_finishOp ha
    · simp at ht
    · simpa [counted] using ht
  · exact ht
  · exact ht
  · obtain ⟨-, -, henv, -⟩ := exec_frame hx
    exact henv.symm.trans ht

theorem runs_env {n : Nat} (hrun : runs n s = .next t) (ht : t.env = .reference) : s.env = .reference := by
  induction n generalizing s with
  | zero => exact next_inj hrun ▸ ht
  | succ n ih =>
    obtain ⟨u, hu, hrun⟩ := runs_succ.1 hrun
    exact step_env hu (ih hrun)

/-- A write cycle that has ended within a stretch without a data byte has ended at its end. -/
theorem not_busy_after {m n : Nat} (hp : s.powerCycles = []) (h : NoData s) (hrun : runs n s = .next t)
    (hsent : NoDataSent s t) (henv : t.env = .reference) (hm : m ≤ n) (hv : runs m s = .next v)
    (hidle : deviceBusy v = false) : t.dev.busy = false := by
  obtain ⟨v', hv', hrest⟩ := runs_prefix hrun hm
  obtain rfl := next_inj (hv.symm.trans hv')
  have hpv := runs_powerCycles hp hv
  obtain ⟨ev, hev, hno⟩ := hsent
  obtain ⟨ev₁, hev₁⟩ := runs_trace hp hv
  obtain ⟨ev₂, hev₂⟩ := runs_trace hpv hrest
  obtain rfl : ev = ev₁ ++ ev₂ := by
    rw [hev₂, hev₁, List.append_assoc] at hev
    exact (List.append_cancel_left hev).symm
  obtain ⟨hnd, -⟩ := runs_noData hp h hv ⟨ev₁, hev₁, fun b hmem => hno b (List.mem_append_left _ hmem)⟩
  obtain ⟨-, hb⟩ := runs_noData hpv hnd hrest ⟨ev₂, hev₂, fun b hmem => hno b (List.mem_append_right _ hmem)⟩
  exact hb (by simpa [deviceBusy, runs_env hrest henv] using hidle)

end

/-! ### The probes of `EE_WAIT` against the device (R153, R154) -/

/-- From `s` to `t` the bus has seen no data byte, the device has stored nothing, and the marks, the environment and the
host's side are as before. -/
structure Probed (s t : State) : Prop where
  sent : NoDataSent s t
  mem : t.dev.mem = s.dev.mem
  faults : t.faults = s.faults
  port : t.port = s.port
  returns : t.returns = s.returns
  env : t.env = s.env
  cfg : t.cfg = s.cfg

/-- `EE_WAIT` without a bound stands before a probe, no value waiting in the reference device. -/
structure AtProbe (s : State) : Prop where
  between : Between .eeWait 0 s
  phase : s.phase = .idle ∨ s.phase = .dataWrite
  env : s.env = .reference
  sel : ∀ v, s.dev.sel ≠ .wPending v
  bound : s.cfg.pollBound = none

/-- `EE_WAIT` has left its loop, its probe acknowledged by a device that is not busy. -/
structure Acknowledged (s : State) : Prop where
  between : Between .eeWait 4 s
  phase : s.phase = .dataWrite
  waitAcked : s.waitAcked = true
  sel : ∀ v, s.dev.sel ≠ .wPending v
  busy : s.dev.busy = false

section

variable {s t u : State}

theorem Probed.of_did {ev : List BusEvent} {ro : List RegOp} {n : Nat} (h : Did ev ro n s t) (hno : ∀ b, .data b ∉ ev)
    (hmem : t.dev.mem = s.dev.mem) : Probed s t :=
  ⟨⟨ev, h.trace, hno⟩, hmem, h.faults, h.port, h.returns, h.env, h.cfg⟩

theorem Probed.trans (h : Probed s t) (h' : Probed t u) : Probed s u where
  sent := by
    obtain ⟨ev, hev, hno⟩ := h.sent
    obtain ⟨ev', hev', hno'⟩ := h'.sent
    exact ⟨ev ++ ev', by rw [hev', hev, List.append_assoc], fun b hb => (List.mem_append.1 hb).elim (hno b) (hno' b)⟩
  mem := h'.mem.trans h.mem
  faults := h'.faults.trans h.faults
  port := h'.port.trans h.port
  returns := h'.returns.trans h.returns
  env := h'.env.trans h.env
  cfg := h'.cfg.trans h.cfg

/-- The START and the address byte of a probe: the device acknowledges and is not busy, or it was busy. -/
theorem AtProbe.runs_address (h : AtProbe s) :
    ∃ n t st, runs (n + 1) s = .next t ∧ Between .eeWait 2 t ∧ t.phase = .dataWrite ∧ t.status = .put st ∧ Probed s t ∧
      ((st = 0x18 ∧ t.dev.busy = false ∧ t.dev.sel = .wAddr) ∨
        (st ≠ 0x18 ∧ s.dev.busy = true ∧ t.dev.sel = .none)) := by
  obtain ⟨n₁, t₁, st₁, d₁, hrun₁, hb₁, hph₁, -, hdid₁, hserved₁⟩ :=
    h.between.runs_served (j := .start) (k' := 1) rfl rfl (phaseTable_start h.phase) h.env rfl (by simp)
  obtain ⟨-, hmem₁, hidle₁⟩ := servedAs_start hserved₁
  obtain ⟨n₂, t₂, st₂, d₂, hrun₂, hb₂, hph₂, hst₂, hdid₂, hserved₂⟩ :=
    hb₁.runs_served (j := .txAddr t₁.cfg.device .write) (k' := 2) (ph := .dataWrite) rfl rfl (by rw [hph₁]; rfl)
      (hdid₁.env.trans h.env) rfl (by simp)
  obtain ⟨hmem₂, hst⟩ := servedAs_addrWrite hserved₂
  have hprobed := (Probed.of_did hdid₁ (by simp [busEvent]) hmem₁).trans (.of_did hdid₂ (by simp [busEvent]) hmem₂)
  refine ⟨n₁ + 1 + n₂, t₂, st₂, (runs_add hrun₁).trans hrun₂, hb₂, hph₂, hst₂, hprobed, hst.imp_right ?_⟩
  rintro ⟨hne, hbusy, hsel⟩
  refine ⟨hne, ?_, hsel⟩
  by_contra hno
  simp [hidle₁ (by simpa using hno)] at hbusy

/-- A failed probe loops back, with a STOP that stores nothing under `PROBE_STOP` (R154). -/
theorem Between.runs_loopBack_device (h : Between .eeWait 3 s) (hph : s.phase = .dataWrite) (henv : s.env = .reference)
    (hsel : s.dev.sel = .none) (hbound : s.cfg.pollBound = none) :
    ∃ n t, runs n s = .next t ∧ AtProbe t ∧ Probed s t := by
  have htable := eeWaitTable_loopBack s.cfg
  cases hstop : s.cfg.probeStop with
  | false =>
    rw [hstop] at htable
    have hjump := step_action h.powerCycles h.txn htable h.eng
    exact ⟨1, goto .eeWait 0 (ticked s), runs_one hjump,
      ⟨⟨rfl, h.eng, h.inflight, h.powerCycles, h.inited⟩, .inr hph, henv, by simp [hsel], hbound⟩,
      .of_did ((Did.refl s).after_ticked.after_goto _ _) (by simp) rfl⟩
  | true =>
    rw [hstop] at htable
    obtain ⟨n, t, st, d, hrun, hb, hph', -, hdid, hserved⟩ :=
      h.runs_served (j := .stop) (ph := .idle) rfl htable (by rw [hph]; rfl) henv rfl (by simp)
    obtain ⟨hsel', hmem, -⟩ := servedAs_stop_idle hserved (by simp [hsel])
    exact ⟨n + 1, t, hrun, ⟨hb, .inl hph', hdid.env.trans henv, by simp [hsel'], hdid.cfg ▸ hbound⟩,
      .of_did hdid (by simp [busEvent]) hmem⟩

/-- A probe is acknowledged by a device that is not busy, or finds the device busy and leads to the next one. -/
theorem AtProbe.runs_probe (h : AtProbe s) :
    ∃ n t, runs (n + 1) s = .next t ∧ Probed s t ∧ (Acknowledged t ∨ (AtProbe t ∧ s.dev.busy = true)) := by
  obtain ⟨n, t, st, hrun, hb, hph, hst, hprobed, hend⟩ := h.runs_address
  have htest := step_action hb.powerCycles hb.txn rfl hb.eng
  have hread : readStatus (ticked t) = st := readStatus_of_put (s := ticked t) hst
  have hdid : Probed s (probeTest .eeWait 4 3 (ticked t)) :=
    hprobed.trans (.of_did ((Did.refl t).after_ticked.trans (did_probeTest 4 3 (ticked t))) (by simp) (by simp))
  rcases hend with ⟨rfl, hbusy, hsel⟩ | ⟨hne, hbusy, hsel⟩
  · have heq := probeTest_acked (i := .eeWait) (exit := 4) (again := 3) hread
    refine ⟨n + 1, _, (runs_add hrun).trans (runs_one htest), hdid, .inl ⟨?_, ?_, ?_, ?_, ?_⟩⟩
    · exact hb.after_ticked.of_probeTest (by rw [heq])
    · simpa [startAction] using hph
    · rw [startAction, heq]
    · simp [startAction, hsel]
    · simpa [startAction] using hbusy
  · have hbound : t.cfg.pollBound = none := hprobed.cfg ▸ h.bound
    have heq := probeTest_retries (i := .eeWait) (exit := 4) (again := 3) (hread.trans_ne hne) (by simp [hbound])
    have hb' : Between .eeWait 3 (probeTest .eeWait 4 3 (ticked t)) := hb.after_ticked.of_probeTest (by rw [heq])
    obtain ⟨n', u, hback, hat, hprobed'⟩ := hb'.runs_loopBack_device (by simpa using hph)
      (by simpa using hprobed.env.trans h.env) (by simpa using hsel) (by simpa using hbound)
    refine ⟨n + 1 + n', u, ?_, hdid.trans hprobed', .inr ⟨hat, hbusy⟩⟩
    rw [show n + 1 + n' + 1 = n + 1 + 1 + n' by omega]
    exact (runs_add ((runs_add hrun).trans (runs_one htest))).trans hback

theorem AtProbe.noData (h : AtProbe s) : NoData s :=
  ⟨h.sel, by simp [h.between.inflight]⟩

/-- The write cycle ends, and the next probe after that is acknowledged. -/
theorem AtProbe.runs_acknowledged {m : Nat} {v : State} (h : AtProbe s) (hv : runs m s = .next v)
    (hidle : deviceBusy v = false) : ∃ n t, runs n s = .next t ∧ Acknowledged t ∧ Probed s t := by
  induction m using Nat.strong_induction_on generalizing s v with
  | _ m ih =>
    obtain ⟨n, t, hrun, hprobed, hack | ⟨hat, hbusy⟩⟩ := h.runs_probe
    · exact ⟨n + 1, t, hrun, hack, hprobed⟩
    · have hm : 0 < m := by
        by_contra hm0
        obtain rfl : m = 0 := by omega
        obtain rfl := next_inj hv
        simp [deviceBusy, h.env, hbusy] at hidle
      obtain ⟨n', u, hrun', hack, hprobed'⟩ :
          ∃ n' u, runs n' t = .next u ∧ Acknowledged u ∧ Probed t u := by
        rcases Nat.lt_or_ge m (n + 1) with hlt | hge
        · have hb := not_busy_after h.between.powerCycles h.noData hrun hprobed.sent hat.env hlt.le hv hidle
          exact ih 0 hm hat (runs_zero t) (by simp [deviceBusy, hb])
        · obtain ⟨l, rfl⟩ := Nat.exists_eq_add_of_le hge
          exact ih l (by omega) hat ((runs_add hrun).symm.trans hv) hidle
      exact ⟨n + 1 + n', u, (runs_add hrun).trans hrun', hack, hprobed.trans hprobed'⟩

/-- What a command has left to the next one: a returned block in a phase between commands, on the reference device. -/
structure Handed (rest : List CmdWord) (s t : State) : Prop where
  returned : Returned t rest
  powerCycles : t.powerCycles = []
  inited : t.inited = true
  phase : t.phase = .idle ∨ t.phase = .dataWrite
  faults : t.faults = s.faults
  env : t.env = .reference
  cfg : t.cfg = s.cfg

/-- Acknowledged, `EE_WAIT` returns the flag, with a STOP before it under `WAIT_FINAL_STOP` (R154). -/
theorem Acknowledged.runs_finish {rest : List CmdWord} (h : Acknowledged s) (henv : s.env = .reference)
    (hport : s.port = rest) :
    ∃ n t, runs n s = .next t ∧ Handed rest s t ∧ t.dev.busy = false ∧ t.dev.mem = s.dev.mem ∧
      t.returns = s.returns ++ [.flag true] := by
  have hb := h.between
  have htable := eeWaitTable_finish s.cfg
  cases hstop : s.cfg.waitFinalStop with
  | false =>
    rw [hstop] at htable
    refine ⟨1, _, runs_one (hb.step_return htable),
      ⟨hb.returned hport, hb.powerCycles, hb.inited, .inr h.phase, rfl, henv, rfl⟩, h.busy, rfl, ?_⟩
    rw [commandReturn_returns, returnValue, ticked_waitAcked, h.waitAcked, ticked_returns]
  | true =>
    rw [hstop] at htable
    obtain ⟨n, ms, dev', st, d, hserved, hrun⟩ := (hb.calls (j := .stop) htable).runs_served (j := .stop) (ph := .idle)
      rfl (loaded_called _ _ _) rfl hb.inited (by rw [called, enter_phase, ticked_phase, h.phase]; rfl) hb.inflight henv
      rfl (by simp)
    obtain ⟨-, hmem, hidle⟩ := servedAs_stop_idle hserved h.sel
    refine ⟨n + 1, _, (runs_next (hb.step_call (j := .stop) htable)).trans hrun,
      ⟨⟨rfl, rfl, rfl, hport⟩, hb.powerCycles, hb.inited, .inl rfl, rfl, henv, rfl⟩, hidle h.busy, hmem, ?_⟩
    simp [returnValue, called, h.waitAcked]

/-- Without a bound and with no value waiting, `EE_WAIT` returns acknowledged, the device's write cycle ended. -/
theorem eeWait_returns_device {rest : List CmdWord} (ho : Offers s .eeWait rest) (hinit : s.inited = true)
    (hph : s.phase = .idle ∨ s.phase = .dataWrite) (henv : s.env = .reference) (hsel : ∀ v, s.dev.sel ≠ .wPending v)
    (hbound : s.cfg.pollBound = none) (hd : DevWriteCycleEnds s) :
    ∃ n t, runs n s = .next t ∧ Handed rest s t ∧ t.dev.busy = false ∧ t.dev.mem = s.dev.mem ∧
      t.returns = s.returns ++ [.flag true] := by
  have haccept : step s = .next (accepted .eeWait rest s) := step_accepts ho
  have hat : AtProbe (accepted .eeWait rest s) :=
    ⟨ho.between hinit, by simpa using hph, by simpa using henv, by simpa using hsel, by simpa using hbound⟩
  obtain ⟨m, v, hv, hidle⟩ : ∃ m v, runs m (accepted .eeWait rest s) = .next v ∧ deviceBusy v = false := by
    cases hb : deviceBusy (accepted .eeWait rest s) with
    | false => exact ⟨0, _, rfl, hb⟩
    | true => exact (DevWriteCycleEnds_of_runs hd (runs_one haccept)).1 0 _ rfl hb
  obtain ⟨n, t, hrun, hack, hprobed⟩ := hat.runs_acknowledged hv hidle
  obtain ⟨n', u, hend, hhanded, hbusy, hmem, hvalue⟩ :=
    hack.runs_finish (rest := rest) (hprobed.env.trans hat.env) (by simp [hprobed.port])
  obtain ⟨hreturned, hp, hinit', hph', hfaults, henv', hcfg⟩ := hhanded
  refine ⟨n + 1 + n', u, (runs_add ((runs_next haccept).trans hrun)).trans hend,
    ⟨hreturned, hp, hinit', hph', ?_, henv', ?_⟩, hbusy, ?_, ?_⟩
  · simp [hfaults, hprobed.faults]
  · simp [hcfg, hprobed.cfg]
  · simp [hmem, hprobed.mem]
  · simp [hvalue, hprobed.returns]

/-- `EE_WRITE` to a device that is not busy stores its value, whatever moves are listed, and leaves the write cycle running
or ended. -/
theorem eeWrite_returns_device {o v : Byte} {rest : List CmdWord} (ho : Offers s (.eeWrite o v) rest)
    (hinit : s.inited = true) (hph : s.phase = .idle ∨ s.phase = .dataWrite) (henv : s.env = .reference)
    (hbusy : s.dev.busy = false) :
    ∃ n t, runs n s = .next t ∧ Handed rest s t ∧ t.dev.sel = .none ∧ t.dev.mem = s.dev.mem.write o.toNat v ∧
      t.returns = s.returns ++ [.nothing] := by
  have haccept : step s = .next (accepted (.eeWrite o v) rest s) := step_accepts ho
  obtain ⟨n, t, hrun, hb, hphase, -, hdev, -, hdid⟩ :=
    (callPath_eeWrite_loads hph).reaches_device (s := accepted (.eeWrite o v) rest s) (devicePath_eeWrite hbusy s.res)
      (ho.between hinit) rfl rfl henv hbusy
  obtain ⟨n', u, st, d, hstop, hbu, hphu, -, hdidu, hserved⟩ := hb.runs_served (j := .stop) (k' := 5) (ph := .idle) rfl
    (by rw [hdid.cfg]; rfl) (by rw [hphase]; rfl) (hdid.env.trans henv) rfl (by simp)
  obtain ⟨hsel, hmem⟩ := servedAs_stop_stores (v := v) hserved (by rw [hdev])
  have hall := hdid.trans hdidu
  have hret := hbu.step_return (by rw [hall.cfg]; rfl)
  refine ⟨1 + n + (n' + 1) + 1, commandReturn (.eeWrite o v) (ticked u),
    (runs_add ((runs_add ((runs_add (runs_one haccept)).trans hrun)).trans hstop)).trans (runs_one hret),
    ⟨hbu.returned hall.port, hbu.powerCycles, hbu.inited, .inl hphu, hall.faults, hall.env.trans henv, hall.cfg⟩, hsel,
    by rw [hdev] at hmem; exact hmem, congrArg (· ++ [Ret.nothing]) hall.returns⟩

/-- The next command is on offer where a command has left the block to it. -/
theorem Handed.offers {i : Instr} {rest : List CmdWord} (h : Handed (encode i :: rest) s t)
    (hpublic : i.isPublic = true) : Offers t i rest :=
  ⟨h.returned.txn, h.returned.eng, h.returned.inflight, h.powerCycles, h.returned.port,
    by simp [Instr.wellFormed, hpublic]⟩

end

/-- Settles O42: the three commands one after the other, each offered where the one before it has returned. -/
theorem roundTripReturnsTheByte : Obligations.RoundTripReturnsTheByte := by
  intro a b s rest ho hinit hph henv hbusy hwf hbound hd
  obtain ⟨n₁, t₁, hwrite, h₁, hsel₁, hmem₁, hvalue₁⟩ := eeWrite_returns_device ho hinit hph henv hbusy
  obtain ⟨n₂, t₂, hwait, h₂, hbusy₂, hmem₂, hvalue₂⟩ := eeWait_returns_device (h₁.offers rfl) h₁.inited h₁.phase h₁.env
    (by simp [hsel₁]) (by rw [h₁.cfg, hbound]) (DevWriteCycleEnds_of_runs hd hwrite)
  obtain ⟨n₃, t₃, hread, hret₃, hph₃, hfaults₃, -, hbusy₃, hmem₃, hvalue₃⟩ :=
    eeReadReturnsTheDevicesByte a t₂ rest (h₂.offers rfl) h₂.inited h₂.phase h₂.env hbusy₂
  have hmem : t₂.dev.mem = s.dev.mem.write a.toNat b := hmem₂.trans hmem₁
  have hbyte : (s.dev.mem.write a.toNat b).read a.toNat = b := Memory.read_write_same hwf a.toNat b
  refine ⟨n₁ + n₂ + n₃, t₃, (runs_add ((runs_add hwrite).trans hwait)).trans hread, hret₃, hph₃, ?_, hbusy₃, ?_,
    fun c hc => ?_, ?_⟩
  · rw [hfaults₃, h₂.faults, h₁.faults]
  · rw [hmem₃, hmem, hbyte]
  · rw [hmem₃, hmem, Memory.read_write_other b hc]
  · rw [hvalue₃, hvalue₂, hvalue₁, hmem, hbyte]
    simp

end Sys2Proof.Machine
end
